-- ==== Sys2Proof/Word.lean ====
section
/-! DEFINITION. The word types of the XOR combiner: 00_scope.md R16, R17 and 30_encoding.md R91. -/
namespace Sys2Proof

/-- A register or command word: 32 bits (10_state.md R39, 30_encoding.md R90). -/
abbrev Word := BitVec 32

/-- A unit, "an 8-bit storage cell; the smallest addressable chunk of the backing buffer" (R16). -/
abbrev Byte := BitVec 8

/-- A slot number as a command word's 4-bit field names it (R91): unsigned, 0 to 15. -/
abbrev SlotNum := Fin 16

end Sys2Proof
end

