-- ==== Sys2Proof/Syntax.lean ====
section
/-! DEFINITION. The nine commands (30_encoding.md R93), one constructor per row of spec/opcode_table.json. -/
namespace Sys2Proof

/-- A command as its word names it. Bit lengths, bit indices and external addresses are no part of the word: they
come from the latched OPA and OPB (30_encoding.md R90, R92). -/
inductive Instr where
  /-- INIT: Initialize(bitLength), slot VD (R111). -/
  | init (d : SlotNum)
  /-- INITPAT: InitializeWithPattern(patternByte, flag), slot VD, IMMH, IMML (R114). -/
  | initpat (d : SlotNum) (pat flag : Byte)
  /-- ATTACH: Attach(externalBuffer, bitLength, flag), slot VD, IMML (R116). -/
  | attach (d : SlotNum) (flag : Byte)
  /-- DETACH: Detach(), slot VD (R119). -/
  | detach (d : SlotNum)
  /-- SETBIT: SetBit(index, value), slot VD, IMML bit 0 (R142). -/
  | setbit (d : SlotNum) (val : Bool)
  /-- GETBIT: GetBit(index), slot VD (R145). -/
  | getbit (d : SlotNum)
  /-- XOR3: CombineXor(a, b), slots VD, VA, VB (R163). -/
  | xor3 (d a b : SlotNum)
  /-- XOR2: CombineXorInPlace(other), slots VD, VA (R166). -/
  | xor2 (d o : SlotNum)
  /-- HASSURV: HasSurvivingRedundancyBit(other), slots VD, VA (R193). -/
  | hassurv (d a : SlotNum)
deriving DecidableEq, Repr

end Sys2Proof
end

