-- ==== Sys2Proof/WellFormed.lean ====
section
/-! DEFINITION. The slot-range check of 30_encoding.md R94, the one check the mask of a row does not make. -/
namespace Sys2Proof

/-- The slot fields a row uses (the "uses" column of R93), which are the slots the command names. -/
def Instr.slots : Instr → List SlotNum
  | .init d => [d]
  | .initpat d _ _ => [d]
  | .attach d _ => [d]
  | .detach d => [d]
  | .setbit d _ => [d]
  | .getbit d => [d]
  | .xor3 d a b => [d, a, b]
  | .xor2 d o => [d, o]
  | .hassurv d a => [d, a]

/-- "Every slot field a row uses must hold a value below `NV`" (R94). -/
def Instr.wf (nv : Nat) (i : Instr) : Bool :=
  i.slots.all fun d => decide (d.val < nv)

end Sys2Proof
end

