-- ==== Sys2Proof/Decode.lean ====
section
/-! DEFINITION. Decoding and encoding a command word: 30_encoding.md R91, R93, R95, R96. -/
namespace Sys2Proof

/-- The assigned opcodes of R93. -/
inductive Opcode where
  | init | initpat | attach | detach | setbit | getbit | xor3 | xor2 | hassurv
deriving DecidableEq, Repr

/-- Why a word selects no row (R95). The slot range is checked separately, against `NV` (R94). -/
inductive DecodeError where
  /-- OP is 0x0 or 0xA to 0xF. -/
  | reservedOpcode
  /-- A must-be-zero bit of the row is set. -/
  | mustBeZero
deriving DecidableEq, Repr

/-- A row of the opcode map (R93). -/
structure OpcodeRow where
  op : Opcode
  matchWord : Word
  mask : Word
deriving DecidableEq, Repr

/-- The opcode map of R93: OP 0x1 to 0x9 in order. -/
def opcodeTable : List OpcodeRow :=
  [ ⟨.init, 0x10000000, 0xF0FFFFFF⟩,
    ⟨.initpat, 0x20000000, 0xF0FF0000⟩,
    ⟨.attach, 0x30000000, 0xF0FFFF00⟩,
    ⟨.detach, 0x40000000, 0xF0FFFFFF⟩,
    ⟨.setbit, 0x50000000, 0xF0FFFFFE⟩,
    ⟨.getbit, 0x60000000, 0xF0FFFFFF⟩,
    ⟨.xor3, 0x70000000, 0xF000FFFF⟩,
    ⟨.xor2, 0x80000000, 0xF00FFFFF⟩,
    ⟨.hassurv, 0x90000000, 0xF00FFFFF⟩ ]

/-- The fields of R91. -/
def fieldOP (w : Word) : BitVec 4 := w.extractLsb' 28 4
def fieldVD (w : Word) : SlotNum := (w.extractLsb' 24 4).toFin
def fieldVA (w : Word) : SlotNum := (w.extractLsb' 20 4).toFin
def fieldVB (w : Word) : SlotNum := (w.extractLsb' 16 4).toFin
def fieldIMMH (w : Word) : Byte := w.extractLsb' 8 8
def fieldIMML (w : Word) : Byte := w.extractLsb' 0 8

/-- "A word selects a row when (word & mask) == match" (R93). -/
def OpcodeRow.selects (r : OpcodeRow) (w : Word) : Bool := w &&& r.mask == r.matchWord

/-- The row whose match has the word's OP, if the opcode is assigned (R93, R95). -/
def rowOf (w : Word) : Option OpcodeRow :=
  opcodeTable.find? fun r => fieldOP r.matchWord == fieldOP w

/-- The command a word of a row stands for: the fields of R91, R92. -/
def Opcode.command (op : Opcode) (w : Word) : Instr :=
  match op with
  | .init => .init (fieldVD w)
  | .initpat => .initpat (fieldVD w) (fieldIMMH w) (fieldIMML w)
  | .attach => .attach (fieldVD w) (fieldIMML w)
  | .detach => .detach (fieldVD w)
  | .setbit => .setbit (fieldVD w) (w.getLsbD 0)
  | .getbit => .getbit (fieldVD w)
  | .xor3 => .xor3 (fieldVD w) (fieldVA w) (fieldVB w)
  | .xor2 => .xor2 (fieldVD w) (fieldVA w)
  | .hassurv => .hassurv (fieldVD w) (fieldVA w)

/-- Decoding, total on every word, in the order of R96: the opcode, then the must-be-zero bits. -/
def decode (w : Word) : Except DecodeError Instr :=
  match rowOf w with
  | none => .error .reservedOpcode
  | some r => if r.selects w then .ok (r.op.command w) else .error .mustBeZero

/-- A slot field's four bits. -/
def slotBits (d : SlotNum) : BitVec 4 := BitVec.ofFin (w := 4) d

/-- A command word from its fields, high to low (R91). -/
def packWord (op : BitVec 4) (d a b : BitVec 4) (immh imml : Byte) : Word :=
  (op ++ d ++ a ++ b ++ immh ++ imml).cast rfl

/-- The words of the assembler's "CMD word" column (R99). -/
def encode : Instr → Word
  | .init d => packWord 0x1 (slotBits d) 0 0 0 0
  | .initpat d pat flag => packWord 0x2 (slotBits d) 0 0 pat flag
  | .attach d flag => packWord 0x3 (slotBits d) 0 0 0 flag
  | .detach d => packWord 0x4 (slotBits d) 0 0 0 0
  | .setbit d val => packWord 0x5 (slotBits d) 0 0 0 (if val then 1 else 0)
  | .getbit d => packWord 0x6 (slotBits d) 0 0 0 0
  | .xor3 d a b => packWord 0x7 (slotBits d) (slotBits a) (slotBits b) 0 0
  | .xor2 d o => packWord 0x8 (slotBits d) (slotBits o) 0 0 0
  | .hassurv d a => packWord 0x9 (slotBits d) (slotBits a) 0 0 0

/-- The word given by its lowest `nbits` bits, every bit above them 0. A command word is no sequence of memory bytes
(20_memory.md R78): it is the value written to CMD, whatever the host bus's byte order (R65). -/
def tableWord (nbits w : Nat) : Word := BitVec.ofNat 32 (w % 2 ^ nbits)

/-- The instruction the decoder reads from an instruction whose bits are `w`. -/
def decodeTableWord (nbits w : Nat) : Option Instr :=
  match decode (tableWord nbits w) with
  | .ok i => some i
  | .error _ => none

end Sys2Proof
end

