-- ==== Sys2Proof/Config.lean ====
section
/-! DEFINITION. The implementation parameters (00_scope.md R7 to R12) and the free values, `draw()` (R15). -/
namespace Sys2Proof

/-- The agreement rules of the redundancy-survival check (00_scope.md R11, 43_redundancy_check.md R192). -/
inductive SurvRule where
  | allBoth
  | allEqual
  | allImplies
deriving DecidableEq, Repr

/-- The named parameters of a block. A block's parameters never change: State carries them and no step writes them. -/
structure Config where
  /-- `NV`, the number of vector slots, 1 to 16 (R7). -/
  nv : Nat
  /-- `MAXUNITS`, the owned-storage capacity of each slot in units, 1 to 2^29 (R8). -/
  maxUnits : Nat
  /-- `AW`, the width of external addresses, 1 to 32 (R9). -/
  aw : Nat
  /-- `LANES`, units per datapath step, at least 1, without architectural effect (R10). -/
  lanes : Nat
  /-- `SURV_RULE` (R11). -/
  survRule : SurvRule
  /-- `SURV_MASK`, bit 7 set (R11). -/
  survMask : Byte
  /-- `REG_BASE`, OPEN: the host address of the register window (R12). -/
  regBase : Nat
  /-- `HOST_WRITE_VISIBLE`, OPEN: the platform's promise of 20_memory.md R72(d), assumed true (R12). -/
  hostWriteVisible : Bool
deriving DecidableEq, Repr

/-- The defaults of R7 to R11. `regBase` is OPEN in the spec; 0 here is a DESIGN CHOICE (log entry 1). -/
def Config.standard : Config :=
  { nv := 4, maxUnits := 64, aw := 32, lanes := 1, survRule := .allBoth, survMask := 0x80,
    regBase := 0, hostWriteVisible := true }

/-- The ranges of R7 to R11. -/
def Config.wf (c : Config) : Bool :=
  decide (1 ≤ c.nv ∧ c.nv ≤ 16) && decide (1 ≤ c.maxUnits ∧ c.maxUnits ≤ 2 ^ 29)
    && decide (1 ≤ c.aw ∧ c.aw ≤ 32) && decide (1 ≤ c.lanes) && c.survMask.getLsbD 7

/-- `draw()`, "an unconstrained 8-bit value chosen anew at each use" (R15): in an epoch of a run, the n-th draw. It has
no body, so nothing can be proved of its values; `State.draws` counts the uses, and `State.epoch` begins a fresh
sequence wherever the outcome that a racing read may have looked ahead to is given up (log entry 3). -/
opaque Config.freeByte : Nat → Nat → Byte

/-- `draw()` for what a host read returns: a sequence of its own, counted by `State.hostDraws`, so that a host read
between acceptance and completion uses up no draw of the executing command (log entry 3). -/
opaque Config.hostByte : Nat → Byte

end Sys2Proof
end

