-- ==== Sys2Proof/Machine/State.lean ====
section
/-! DEFINITION. The state of the block and of its surroundings, as plain data: 10_state.md R20 to R49, and the
stops of the model. The list of every field with its rule stands in INVENTORY.md, '## State'. -/
namespace Sys2Proof.Machine

/-- A slot's ownership mode; the value 3 "is never held" (10_state.md R21, R24). -/
inductive Mode where
  | empty
  | owned
  | borrowed
deriving DecidableEq, Repr

/-- Bytes by address: addresses strictly rising, no entry equal to what an unlisted address reads as
(`Memory.wf`, Machine/Ops.lean). -/
abbrev Memory := List Host.Cell

/-- A vector slot (R21). `unitLength` is derived and not stored (R23). -/
structure Slot where
  mode : Mode
  bitLength : Word
  extFlag : Byte
  /-- External address of unit 0 of a borrowed buffer, `AW` bits; 0 unless BORROWED. -/
  base : Word
  /-- The observable bytes of `OWN[s]`: units below `unitLength` while OWNED, none otherwise (R26; log entry 5). -/
  own : Memory
deriving DecidableEq, Repr

/-- The EMPTY state of a slot (R22, 40_vector_lifecycle.md R119). -/
def Slot.emptied : Slot := { mode := .empty, bitLength := 0, extFlag := 0, base := 0, own := [] }

/-- The error codes of `STATUS.ERR` (60_exceptions.md R211). -/
inductive ErrCode where
  | ok
  | oob
  | lenMismatch
  | alloc
  | unattached
  | illegal
  | range
  | bus
  | halted
deriving DecidableEq, Repr

/-- The flags of `STATUS` (R31). Its reserved bits read 0 and are not stored. -/
structure Status where
  busy : Bool
  done : Bool
  result : Bool
  halted : Bool
  ovf : Bool
  err : ErrCode
deriving DecidableEq, Repr

/-- The in-flight latch `CUR` (R47, R48). `raced` is the part of the command's progress that can be observed: the
external bytes of a named borrowed buffer that the host wrote while BUSY (20_memory.md R74). -/
structure Latch where
  word : Word
  opa : Word
  opb : Word
  raced : List Nat
deriving DecidableEq, Repr

/-- What the platform does at a region of external memory (R69, R217, R68). -/
inductive RegionKind where
  /-- Engine reads get a bus error response. -/
  | refusesReads
  /-- Engine writes get a bus error response. -/
  | refusesWrites
  /-- Reads have side effects: no meaning is given to a command that accesses it (R68). -/
  | readSideEffects
deriving DecidableEq, Repr

/-- A region of external addresses: `size` bytes from `base`. -/
structure Region where
  base : Nat
  size : Nat
  kind : RegionKind
deriving DecidableEq, Repr

/-- One turn: which agent moves, and what it does (70_reset_and_hazards.md R262). A list of turns is one interleaving
of the host, the platform and the engine (log entry 15). -/
inductive Turn where
  /-- The engine moves: it completes the executing command, or idles. -/
  | engine
  /-- The host reads `size` bytes at a host bus address. -/
  | regRead (addr size : Nat)
  /-- The host writes the low `size` bytes of `val` at a host bus address. -/
  | regWrite (addr size : Nat) (val : Word)
  /-- The host reads one external byte. -/
  | extRead (addr : Nat)
  /-- The host writes one external byte. -/
  | extWrite (addr : Nat) (val : Byte)
  /-- The host asserts reset. -/
  | reset
  /-- The host waits (30_encoding.md R100): it reads `STATUS` until DONE = 1. -/
  | wait
  /-- The platform changes what it answers (R69, R80). -/
  | remap (regions : List Region)
  /-- Several masters drive the register window at once, unserialised (R229). -/
  | mastersClash
deriving DecidableEq, Repr

/-- What the host's last read returned: a register word (R65), or single bytes. -/
inductive Answer where
  | nothing
  | word (w : Word)
  | bytes (bs : List Byte)
deriving DecidableEq, Repr

/-- Why the model stops with a fault. -/
inductive Fault where
  /-- Raised by a HOST access (turns `extRead`, `extWrite`) to an address at or above 2^AW, which does not exist
  (20_memory.md R60). No command raises it. Safe: the model stops (log entry 14). -/
  | outsideExternalMemory
deriving DecidableEq, Repr

/-- Why the model gives no meaning. -/
inductive Refusal where
  /-- Raised by `exec`'s arm of an instruction that has no meaning yet. Safe. -/
  | notModelled (mnemonic : String)
  /-- Raised by a command that accesses external addresses with read side effects, whose effects "are outside this
  spec" (20_memory.md R68; 93_implementation_defined.md item 14, `refuse`). Safe (log entry 11). -/
  | readSideEffects
  /-- Raised by the turn `mastersClash` (60_exceptions.md R229; 93_implementation_defined.md item 19, `refuse`).
  Safe (log entry 12). -/
  | severalMasters
  /-- Raised by a host write to external memory on a platform that does not promise `HOST_WRITE_VISIBLE`, which is
  outside the rules (00_scope.md R12, 20_memory.md R72(d)). Safe (log entry 13). -/
  | hostWriteNotVisible
deriving DecidableEq, Repr

/-- The block (cfg to cur), external memory, and the model's own fields (epoch to answer). -/
structure State where
  cfg : Config
  slots : List Slot
  status : Status
  opa : Word
  opb : Word
  cur : Latch
  ext : Memory
  epoch : Nat
  draws : Nat
  hostDraws : Nat
  platform : List Region
  turns : List Turn
  answer : Answer
deriving DecidableEq, Repr

/-- `STATUS` at reset (R49). -/
def Status.zero : Status :=
  { busy := false, done := false, result := false, halted := false, ovf := false, err := .ok }

/-- The latch at reset: "no meaning (BUSY = 0)" (R49); zeros are a DESIGN CHOICE (log entry 4). -/
def Latch.zero : Latch := { word := 0, opa := 0, opb := 0, raced := [] }

/-- The block with its default parameters right after reset (R49), nothing listed in external memory, no turn
waiting. -/
def State.reset : State :=
  { cfg := Config.standard
    slots := List.replicate Config.standard.nv Slot.emptied
    status := Status.zero
    opa := 0
    opb := 0
    cur := Latch.zero
    ext := []
    epoch := 0
    draws := 0
    hostDraws := 0
    platform := []
    turns := []
    answer := .nothing }

/-- What one instruction or one turn comes to. -/
abbrev Result := Host.Outcome State Fault Refusal

end Sys2Proof.Machine
end

