-- ==== Sys2Proof/Machine/Flags.lean ====
section
/-! DEFINITION. STATUS: the codes its fields show, the word the host reads, and each change of its flags
(10_state.md R31 to R37, R47; 60_exceptions.md R211, R221). -/
namespace Sys2Proof.Machine

/-- The codes of R211. -/
def ErrCode.code : ErrCode → BitVec 4
  | .ok => 0
  | .oob => 1
  | .lenMismatch => 2
  | .alloc => 3
  | .unattached => 4
  | .illegal => 5
  | .range => 6
  | .bus => 7
  | .halted => 8

/-- `EMPTY` = 0, `OWNED` = 1, `BORROWED` = 2 (R21). -/
def Mode.code : Mode → BitVec 2
  | .empty => 0
  | .owned => 1
  | .borrowed => 2

/-- The CFG codes of `SURV_RULE` (R40, 43_redundancy_check.md R192). -/
def survCode : SurvRule → BitVec 2
  | .allBoth => 0
  | .allEqual => 1
  | .allImplies => 2

/-- The word a read of STATUS returns (R31), high bits first; reserved bits are 0. -/
def Status.word (f : Status) : Word :=
  (0#20 ++ f.err.code ++ 0#3 ++ BitVec.ofBool f.ovf ++ BitVec.ofBool f.halted ++ BitVec.ofBool f.result
    ++ BitVec.ofBool f.done ++ BitVec.ofBool f.busy).cast rfl

/-- A command is accepted: BUSY 1, DONE 0, RESULT 0, ERR 0 (R47). -/
def Status.accepted (f : Status) : Status :=
  { f with busy := true, done := false, result := false, err := .ok }

/-- A command completes: ERR, RESULT (0 unless ERR = OK), BUSY 0, DONE 1 (R221, R34). -/
def Status.completed (f : Status) (err : ErrCode) (res : Bool) : Status :=
  { f with err := err, result := res && err == .ok, busy := false, done := true }

/-- A CMD write while BUSY is dropped: OVF 1 (R36, R47). -/
def Status.dropped (f : Status) : Status := { f with ovf := true }

/-- A host write of `v` to STATUS: bit 4 = 1 clears OVF, every other bit is ignored (R36). -/
def Status.written (f : Status) (v : Word) : Status :=
  { f with ovf := f.ovf && !v.getLsbD 4 }

/-- An INIT that fails allocation sets HALTED (R35, 40_vector_lifecycle.md R112). -/
def Status.halting (f : Status) : Status := { f with halted := true }

end Sys2Proof.Machine
end

