-- ==== Sys2Proof/Machine/Operands.lean ====
section
/-! DEFINITION. Operands: unit counts, bit positions, bits of a byte, the latched operands and the ATTACH range
check (00_scope.md R13, R14; 30_encoding.md R92; 40_vector_lifecycle.md R117). -/
namespace Sys2Proof.Machine

/-- `ceil8(n) = (n + 7) div 8` on unbounded numbers (R14). -/
def ceil8 (n : Nat) : Nat := (n + 7) / 8

/-- `V[s].unitLength = ceil8(V[s].bitLength)`, "at all times" (10_state.md R23). -/
def Slot.unitLength (sl : Slot) : Nat := ceil8 sl.bitLength.toNat

/-- A slot in mode EMPTY is unattached. -/
def Slot.isEmpty (sl : Slot) : Bool := sl.mode == .empty

/-- `unitOf(i) = i div 8` (R13, 41_bit_access.md R141). -/
def unitOf (i : Nat) : Nat := i / 8

/-- `bitpos(i) = 7 - (i mod 8)` (R13, R141): "bit 0 is the unit's high-order bit". -/
def bitpos (i : Nat) : Nat := 7 - i % 8

/-- `val << p` on 8-bit values, where a boolean is 0 or 1 (R142). -/
def bitAt (val : Bool) (p : Nat) : Byte := (if val then 1#8 else 0#8) <<< p

/-- `(old & ~(1 << p)) | (val << p)` on 8-bit values (R142). -/
def byteSetBit (old : Byte) (p : Nat) (val : Bool) : Byte := (old &&& ~~~(bitAt true p)) ||| bitAt val p

/-- `x[p]` (R13, R145). -/
def byteGetBit (x : Byte) (p : Nat) : Bool := x.getLsbD p

/-- `bitLength = CUR.opa` for INIT and ATTACH (R92). -/
def State.lengthOperand (s : State) : Word := s.cur.opa

/-- `index = CUR.opa` for SETBIT and GETBIT (R92). -/
def State.indexOperand (s : State) : Nat := s.cur.opa.toNat

/-- `externalBuffer = CUR.opb` for ATTACH (R92). -/
def State.addressOperand (s : State) : Word := s.cur.opb

/-- The number of external addresses, `2^AW` (R9, 20_memory.md R60). -/
def extSize (c : Config) : Nat := 2 ^ c.aw

/-- ATTACH's RANGE condition: `addr >= 2^AW or addr + ceil8(n) > 2^AW` (R117). -/
def outsideRange (c : Config) (addr n : Word) : Bool :=
  decide (extSize c ≤ addr.toNat) || decide (extSize c < addr.toNat + ceil8 n.toNat)

end Sys2Proof.Machine
end

