-- ==== Sys2Proof/Machine/Ops.lean ====
section
/-! DEFINITION. The shared operations: memory, slots, units, free values, completion (the block's one way to end a
command, 60_exceptions.md R221), the platform's answers, and reset. -/
namespace Sys2Proof.Machine

/-! ## Memory -/

/-- What an address that a memory does not list reads as. Owned storage: INIT zero-fills it (R111). External memory:
DESIGN CHOICE, the spec gives no power-on contents (log entry 2). -/
def unlistedByte : Byte := 0x00

/-- The byte at an address. -/
def Memory.read : Memory → Nat → Byte
  | [], _ => unlistedByte
  | c :: m, a => if c.1 = a then c.2 else Memory.read m a

/-- Put a listed byte in its place in the rising order of addresses. -/
def Memory.insert : Memory → Nat → Byte → Memory
  | [], a, v => [(a, v)]
  | c :: m, a, v =>
    if a < c.1 then (a, v) :: c :: m
    else if c.1 = a then (a, v) :: m
    else c :: Memory.insert m a v

/-- Write a byte, keeping the canonical form: the value an unlisted address reads as removes the entry. -/
def Memory.write (m : Memory) (a : Nat) (v : Byte) : Memory :=
  if v = unlistedByte then m.filter (fun c => c.1 != a) else Memory.insert m a v

/-- The canonical form: addresses strictly rising, no entry equal to what an unlisted address reads as. -/
def Memory.wf : Memory → Bool
  | [] => true
  | c :: m => c.2 != unlistedByte && m.all (fun c' => decide (c.1 < c'.1)) && Memory.wf m

/-- Every listed address lies below `n`. -/
def Memory.below (m : Memory) (n : Nat) : Bool := m.all fun c => decide (c.1 < n)

/-! ## Slots and units -/

/-- `V[d]`. A block has `NV` slots; reading beyond them gives an EMPTY one, which no command does (R94). -/
def State.slot (s : State) (d : SlotNum) : Slot := s.slots.getD d.val Slot.emptied

/-- Write all fields of `V[d]`. -/
def State.setSlot (s : State) (d : SlotNum) (sl : Slot) : State := { s with slots := s.slots.set d.val sl }

/-- `V[d].unitLength` (10_state.md R23). -/
def State.unitLength (s : State) (d : SlotNum) : Nat := (s.slot d).unitLength

/-- `V[d].mode == EMPTY`. -/
def State.unattached (s : State) (d : SlotNum) : Bool := (s.slot d).isEmpty

/-- The external address of unit `u` of a BORROWED slot, `V[d].base + u` (20_memory.md R62); none in another mode. -/
def State.unitAddress (s : State) (d : SlotNum) (u : Nat) : Option Nat :=
  if (s.slot d).mode = .borrowed then some ((s.slot d).base.toNat + u) else none

/-- `UnitRead(d, u)` (20_memory.md R63) where the platform gives data. No command calls it on an EMPTY slot. -/
def State.unitRead (s : State) (d : SlotNum) (u : Nat) : Byte :=
  match (s.slot d).mode with
  | .empty => unlistedByte
  | .owned => Memory.read (s.slot d).own u
  | .borrowed => Memory.read s.ext ((s.slot d).base.toNat + u)

/-- `UnitWrite(d, u, v)` (R63) where the platform takes it. No command calls it on an EMPTY slot. -/
def State.unitWrite (s : State) (d : SlotNum) (u : Nat) (v : Byte) : State :=
  match (s.slot d).mode with
  | .empty => s
  | .owned => s.setSlot d { s.slot d with own := Memory.write (s.slot d).own u v }
  | .borrowed => { s with ext := Memory.write s.ext ((s.slot d).base.toNat + u) v }

/-- Write units `lo`, `lo + 1`, ... of slot `d` (in any order: the units are distinct, R73). -/
def State.writeUnits (s : State) (d : SlotNum) (lo : Nat) : List Byte → State
  | [] => s
  | v :: vs => State.writeUnits (s.unitWrite d lo v) d (lo + 1) vs

/-- The units of slot `d`, unit 0 first, as they stand: the snapshot of 42_xor_combine.md R162. -/
def State.units (s : State) (d : SlotNum) : List Byte :=
  (List.range (s.unitLength d)).map (s.unitRead d)

/-- Write `V[d].extFlag`. -/
def State.setExtFlag (s : State) (d : SlotNum) (flag : Byte) : State :=
  s.setSlot d { s.slot d with extFlag := flag }

/-! ## Free values: `draw()` (R15) -/

/-- The next `n` draws. -/
def State.drawn (s : State) (n : Nat) : List Byte :=
  (List.range n).map fun k => Config.freeByte s.epoch (s.draws + k)

/-- Count `n` draws as used. -/
def State.tick (s : State) (n : Nat) : State := { s with draws := s.draws + n }

/-- The next draw is number `n` of the epoch. -/
def State.drawFrom (s : State) (n : Nat) : State := { s with draws := n }

/-- Every draw from here on is anew (R15), also beside a value that a racing read has looked ahead to: a fresh
sequence begins (log entry 3). -/
def State.redraw (s : State) : State := { s with epoch := s.epoch + 1 }

/-- A free choice between two behaviours the spec admits: one bit of the next draw. -/
def State.freeBit (s : State) : Bool := (Config.freeByte s.epoch s.draws).getLsbD 0

/-- The next `n` draws of the host's reads, a sequence of its own (log entry 3). -/
def State.hostDrawn (s : State) (n : Nat) : List Byte :=
  (List.range n).map fun k => Config.hostByte (s.hostDraws + k)

/-- Count `n` draws of the host's reads as used. -/
def State.hostTick (s : State) (n : Nat) : State := { s with hostDraws := s.hostDraws + n }

/-- A free choice in what a host read returns: one bit of its next draw. -/
def State.hostBit (s : State) : Bool := (Config.hostByte s.hostDraws).getLsbD 0

/-- Units `lo .. lo + count - 1` of a slot. -/
structure Span where
  slot : SlotNum
  lo : Nat
  count : Nat
deriving DecidableEq, Repr

/-- All units of slot `d`. -/
def State.wholeSlot (s : State) (d : SlotNum) : Span := { slot := d, lo := 0, count := s.unitLength d }

/-- Every unit of the span holds a `draw()`-valued byte (R164, R217, R251, R74). -/
def State.scramble (s : State) (sp : Span) : State :=
  (s.writeUnits sp.slot sp.lo (s.drawn sp.count)).tick sp.count

/-- Every listed external byte holds a `draw()`-valued byte (R74(b)). -/
def State.scrambleExt (s : State) : List Nat → State
  | [] => s
  | a :: as =>
    State.scrambleExt
      { s with ext := Memory.write s.ext a (Config.freeByte s.epoch s.draws), draws := s.draws + 1 } as

/-! ## Completion (60_exceptions.md R221): how a command ends, with an error or without -/

/-- `complete(err, res)`. -/
def complete (err : ErrCode) (res : Bool) (s : State) : State :=
  { s with status := s.status.completed err res }

/-- `raise E` is `complete(E, 0)` (R15, R221). -/
def raise (err : ErrCode) (s : State) : Result := .next (complete err false s)

/-- `complete(OK, res)`. -/
def finish (res : Bool) (s : State) : Result := .next (complete .ok res s)

/-- The checks of 30_encoding.md R96 that come before every command, in its order: HALTED (R216), then the slot range
(R94). The opcode and the must-be-zero bits are the decoder's. -/
def issue (i : Instr) (s : State) (body : Result) : Result :=
  if s.status.halted then raise .halted s
  else if i.wf s.cfg.nv then body
  else raise .illegal s

/-! ## The platform's answers (R69, R217, R68) -/

/-- Some unit of the span lies in a region of kind `k`. Only BORROWED slots reach external memory (R60). -/
def State.spanIn (s : State) (k : RegionKind) (sp : Span) : Bool :=
  let first := (s.slot sp.slot).base.toNat + sp.lo
  (s.slot sp.slot).mode == .borrowed
    && s.platform.any fun r => r.kind == k
        && decide (max r.base first < min (r.base + r.size) (first + sp.count))

/-- Some unit of the span lies at or above 2^AW. R62 and R117 exclude it in every state a run reaches; where it holds
all the same, nothing is there to answer and the access counts as refused (log entry 10). -/
def State.spanBeyond (s : State) (sp : Span) : Bool :=
  (s.slot sp.slot).mode == .borrowed && sp.count != 0
    && decide (extSize s.cfg < (s.slot sp.slot).base.toNat + sp.lo + sp.count)

/-- The platform refuses a read of some unit of the span. -/
def State.readRefused (s : State) (sp : Span) : Bool := s.spanIn .refusesReads sp || s.spanBeyond sp

/-- The platform refuses a write of some unit of the span. -/
def State.writeRefused (s : State) (sp : Span) : Bool := s.spanIn .refusesWrites sp || s.spanBeyond sp

/-- Some accessed span lies on addresses with read side effects. -/
def State.onDevice (s : State) (spans : List Span) : Bool := spans.any (s.spanIn .readSideEffects)

/-- The accesses of a command that has passed its checks. On addresses with read side effects the spec gives no
meaning (R68). If an access is refused the command completes with BUS, no slot field changes and every receiver unit
it would write holds a draw (R217). Otherwise it goes on. -/
def withAccess (reads writes : List Span) (receiver : Span) (s : State) (body : Result) : Result :=
  if s.onDevice (reads ++ writes) then .refused .readSideEffects
  else if reads.any s.readRefused || writes.any s.writeRefused then raise .bus (s.scramble receiver)
  else body

/-! ## Acceptance (10_state.md R47) -/

/-- A command word is accepted: word, OPA and OPB are latched (R38, R48), and the flags change as R47 says.
Its draws are a sequence of their own (log entry 3). -/
def State.accept (s : State) (w : Word) : State :=
  { s with cur := { word := w, opa := s.opa, opb := s.opb, raced := [] }, status := s.status.accepted,
           epoch := s.epoch + 1 }

end Sys2Proof.Machine
end

