-- ==== Sys2Proof/Machine/BitAccess.lean ====
section
/-! DEFINITION. SETBIT and GETBIT: 41_bit_access.md R140 to R146. -/
namespace Sys2Proof.Machine

/-- The index is valid exactly when `index < V[d].bitLength` (R140); an EMPTY slot has bit length 0. -/
def State.indexValid (s : State) (d : SlotNum) : Bool :=
  decide (s.indexOperand < (s.slot d).bitLength.toNat)

/-- The one unit a bit access touches, `i div 8` (R141). -/
def State.bitSpan (s : State) (d : SlotNum) : Span := { slot := d, lo := unitOf s.indexOperand, count := 1 }

/-- The unit with the addressed bit set to `val` (R142). -/
def State.bitWritten (s : State) (d : SlotNum) (val : Bool) : Byte :=
  byteSetBit (s.unitRead d (unitOf s.indexOperand)) (bitpos s.indexOperand) val

/-- SETBIT (R142): OOB when the index is not valid (R144); no write when the bit already holds `val` (R143). -/
def execSetbit (d : SlotNum) (val : Bool) (s : State) : Result :=
  issue (.setbit d val) s <|
    if s.indexValid d then
      if s.bitWritten d val = s.unitRead d (unitOf s.indexOperand) then
        withAccess [s.bitSpan d] [] (s.bitSpan d) s (finish false s)
      else
        withAccess [s.bitSpan d] [s.bitSpan d] (s.bitSpan d) s <|
          finish false (s.unitWrite d (unitOf s.indexOperand) (s.bitWritten d val))
    else raise .oob s

/-- GETBIT (R145): RESULT is bit `7 - (i mod 8)` of unit `i div 8`; OOB when the index is not valid. -/
def execGetbit (d : SlotNum) (s : State) : Result :=
  issue (.getbit d) s <|
    if s.indexValid d then
      withAccess [s.bitSpan d] [] { slot := d, lo := 0, count := 0 } s <|
        finish (byteGetBit (s.unitRead d (unitOf s.indexOperand)) (bitpos s.indexOperand)) s
    else raise .oob s

end Sys2Proof.Machine
end

