-- ==== Sys2Proof/Machine/Combine.lean ====
section
/-! DEFINITION. XOR3 and XOR2: 42_xor_combine.md R160 to R167. -/
namespace Sys2Proof.Machine

/-- The checks of a command over several slots, the receiver first: UNATTACHED if any is EMPTY (R161), then
LENMISMATCH if a unit length differs from the receiver's (R160). The error, or OK. -/
def State.vectorError (s : State) (d : SlotNum) (others : List SlotNum) : ErrCode :=
  if s.unattached d || others.any s.unattached then .unattached
  else if others.any (fun a => s.unitLength a != s.unitLength d) then .lenMismatch
  else .ok

/-- The receiver's and a source's borrowed buffers share external bytes at different bases (R164). Called when both
have the same unit length. -/
def State.partialOverlap (s : State) (d a : SlotNum) : Bool :=
  let rd := s.slot d
  let ra := s.slot a
  rd.mode == .borrowed && ra.mode == .borrowed && rd.base != ra.base
    && decide (ra.base.toNat < rd.base.toNat + rd.unitLength)
    && decide (rd.base.toNat < ra.base.toNat + ra.unitLength)

/-- `x[u] <- UnitRead(a, u) ^ UnitRead(b, u)`, from the snapshot (R162, R163). -/
def xorUnits (as bs : List Byte) : List Byte := List.zipWith (fun x y => x ^^^ y) as bs

/-- XOR of slots `a` and `b` into slot `d` (R163). Every source unit is read before any receiver unit is written
(R162); on partial overlap every receiver unit holds a draw (R164). -/
def combine (d a b : SlotNum) (s : State) : Result :=
  match s.vectorError d [a, b] with
  | .ok =>
    withAccess [s.wholeSlot a, s.wholeSlot b] [s.wholeSlot d] (s.wholeSlot d) s <|
      if s.partialOverlap d a || s.partialOverlap d b then finish false (s.scramble (s.wholeSlot d))
      else finish false (s.writeUnits d 0 (xorUnits (s.units a) (s.units b)))
  | e => raise e s

/-- XOR3: CombineXor(a, b), out of place (R163). -/
def execXor3 (d a b : SlotNum) (s : State) : Result := issue (.xor3 d a b) s (combine d a b s)

/-- XOR2: CombineXorInPlace(other) (R166): the receiver's own units are the first source. -/
def execXor2 (d o : SlotNum) (s : State) : Result := issue (.xor2 d o) s (combine d d o s)

end Sys2Proof.Machine
end

