-- ==== Sys2Proof/Machine/Lifecycle.lean ====
section
/-! DEFINITION. INIT, INITPAT, ATTACH, DETACH: 40_vector_lifecycle.md R110 to R119. -/
namespace Sys2Proof.Machine

/-- A slot OWNED with bit length `n`, its units zero-filled, padding bits included (R111): an owned byte that is not
listed reads 0x00. -/
def Slot.allocated (n : Word) : Slot := { mode := .owned, bitLength := n, extFlag := 0, base := 0, own := [] }

/-- A slot BORROWED at `addr` with bit length `n` and `flag` (R116). -/
def Slot.attachedAt (addr n : Word) (flag : Byte) : Slot :=
  { mode := .borrowed, bitLength := n, extFlag := flag, base := addr, own := [] }

/-- INIT (R111): bit length 0 empties the slot (R113); a unit count above MAXUNITS halts the block (R112); otherwise
the previous buffer is released (R115) and the slot is OWNED and zero. -/
def execInit (d : SlotNum) (s : State) : Result :=
  issue (.init d) s <|
    if s.lengthOperand = 0 then finish false (s.setSlot d Slot.emptied)
    else if s.cfg.maxUnits < ceil8 s.lengthOperand.toNat then
      raise .alloc { s with status := s.status.halting }
    else finish false (s.setSlot d (Slot.allocated s.lengthOperand))

/-- INITPAT (R114): every unit becomes `pat`, then the extension flag `flag`. -/
def execInitpat (d : SlotNum) (pat flag : Byte) (s : State) : Result :=
  issue (.initpat d pat flag) s <|
    if s.unattached d then raise .unattached s
    else
      withAccess [] [s.wholeSlot d] (s.wholeSlot d) s <|
        finish false ((s.writeUnits d 0 (List.replicate (s.unitLength d) pat)).setExtFlag d flag)

/-- ATTACH (R116): bit length 0 empties the slot, address and flag discarded (R113); RANGE (R117); otherwise the
previous buffer is released (R115) and the slot is BORROWED, with no memory access (R118). -/
def execAttach (d : SlotNum) (flag : Byte) (s : State) : Result :=
  issue (.attach d flag) s <|
    if s.lengthOperand = 0 then finish false (s.setSlot d Slot.emptied)
    else if outsideRange s.cfg s.addressOperand s.lengthOperand then raise .range s
    else finish false (s.setSlot d (Slot.attachedAt s.addressOperand s.lengthOperand flag))

/-- DETACH (R119): EMPTY, whatever the slot was, with no memory access. -/
def execDetach (d : SlotNum) (s : State) : Result :=
  issue (.detach d) s (finish false (s.setSlot d Slot.emptied))

end Sys2Proof.Machine
end

