-- ==== Sys2Proof/Machine/Survival.lean ====
section
/-! DEFINITION. HASSURV: 43_redundancy_check.md R190 to R197. -/
namespace Sys2Proof.Machine

/-- The per-unit tests of R192: receiver unit `r`, other unit `o`, mask `m`. -/
def survTest (rule : SurvRule) (m r o : Byte) : Bool :=
  match rule with
  | .allBoth => (r &&& o &&& m) == m
  | .allEqual => (r &&& m) == (o &&& m)
  | .allImplies => (r &&& m &&& ~~~o) == 0

/-- The survival predicate of two unit sequences: the AND-reduction of the per-unit test (R192). -/
def survives (rule : SurvRule) (m : Byte) (rs os : List Byte) : Bool :=
  (rs.zip os).all fun p => survTest rule m p.1 p.2

/-- Some unit that both slots' buffers answer fails its test: the engine "may stop reading once a test has failed"
(R195), and then need not meet an access the platform refuses. -/
def State.failsReadably (s : State) (d a : SlotNum) : Bool :=
  (List.range (s.unitLength d)).any fun u =>
    !s.readRefused { slot := d, lo := u, count := 1 } && !s.readRefused { slot := a, lo := u, count := 1 }
      && !survTest s.cfg.survRule s.cfg.survMask (s.unitRead d u) (s.unitRead a u)

/-- The check over any total predicate `surv` of the two unit sequences (R197). `early` says that a readable unit
already decides it false: with a refused unit besides, both endings are admitted, BUS (R217) and false (R195), and
a free bit chooses (log entry 8). -/
def surviveBy (surv : List Byte → List Byte → Bool) (early : Bool) (d a : SlotNum) (s : State) : Result :=
  match s.vectorError d [a] with
  | .ok =>
    if s.onDevice [s.wholeSlot d, s.wholeSlot a] then .refused .readSideEffects
    else if s.readRefused (s.wholeSlot d) || s.readRefused (s.wholeSlot a) then
      if early then
        if s.freeBit then finish false (s.tick 1) else raise .bus (s.tick 1)
      else raise .bus s
    else finish (surv (s.units d) (s.units a)) s
  | e => raise e s

/-- HASSURV: HasSurvivingRedundancyBit(other) (R193), with the block's SURV_RULE and SURV_MASK. -/
def execHassurv (d a : SlotNum) (s : State) : Result :=
  issue (.hassurv d a) s <|
    surviveBy (survives s.cfg.survRule s.cfg.survMask) (s.failsReadably d a) d a s

end Sys2Proof.Machine
end

