-- ==== Sys2Proof/Machine/Dispatch.lean ====
section
/-! DEFINITION. One arm per command: the `case op of` of 30_encoding.md R96. -/
namespace Sys2Proof.Machine

def exec (i : Instr) (s : State) : Host.Outcome State Fault Refusal :=
  match i with
  | .init d => Sys2Proof.Machine.execInit d s
  | .initpat d pat flag => Sys2Proof.Machine.execInitpat d pat flag s
  | .attach d flag => Sys2Proof.Machine.execAttach d flag s
  | .detach d => Sys2Proof.Machine.execDetach d s
  | .setbit d val => Sys2Proof.Machine.execSetbit d val s
  | .getbit d => Sys2Proof.Machine.execGetbit d s
  | .xor3 d a b => Sys2Proof.Machine.execXor3 d a b s
  | .xor2 d o => Sys2Proof.Machine.execXor2 d o s
  | .hassurv d a => Sys2Proof.Machine.execHassurv d a s

end Sys2Proof.Machine
end

