-- ==== Sys2Proof/Machine/Engine.lean ====
section
/-! DEFINITION. The engine's turn: it decodes and executes the latched command to completion (30_encoding.md R96),
with the outcome of a host race (20_memory.md R74). -/
namespace Sys2Proof.Machine

/-- The units a command would write if it went on (60_exceptions.md R217): all units of VD for INITPAT, XOR3 and
XOR2; unit `i div 8` for SETBIT; none for the others, and none for a command that its checks end. -/
def receiverOf (i : Instr) (s : State) : Span :=
  if s.status.halted || !i.wf s.cfg.nv then { slot := 0, lo := 0, count := 0 }
  else match i with
  | .initpat d _ _ => s.wholeSlot d
  | .setbit d _ => { s.bitSpan d with count := if s.indexValid d then 1 else 0 }
  | .xor3 d a b => { s.wholeSlot d with count := if s.vectorError d [a, b] = .ok then s.unitLength d else 0 }
  | .xor2 d o => { s.wholeSlot d with count := if s.vectorError d [d, o] = .ok then s.unitLength d else 0 }
  | .init d | .attach d _ | .detach d | .getbit d | .hassurv d _ => { slot := d, lo := 0, count := 0 }

/-- The command's result bit is a value read from the buffers: GETBIT and HASSURV (10_state.md R34). -/
def Instr.hasResult : Instr → Bool
  | .getbit _ => true
  | .hassurv _ _ => true
  | .init _ | .initpat _ _ _ | .attach _ _ | .detach _ | .setbit _ _ | .xor3 _ _ _ | .xor2 _ _ => false

/-- RESULT becomes a free bit, unless the command ended with an error (R34) or has no result. -/
def freeResult (i : Instr) (s : State) : State :=
  if Instr.hasResult i && s.status.err == .ok then
    { s.tick 1 with status := { s.status with result := s.freeBit } }
  else s

/-- The receiver units the command writes (R74(b)): those of `receiverOf`, but none for SETBIT of the value the bit
holds, which performs no write (41_bit_access.md R143), and for an INIT that succeeds the units it zero-fills
(10_state.md R29, 40_vector_lifecycle.md R111), which stand in the slot it leaves. -/
def raceUnits (i : Instr) (s : State) : Span :=
  match i with
  | .init d =>
    { slot := d, lo := 0
      count :=
        if s.status.halted || !(Instr.init d).wf s.cfg.nv || decide (s.cfg.maxUnits < ceil8 s.lengthOperand.toNat)
        then 0 else ceil8 s.lengthOperand.toNat }
  | .setbit d val =>
    if s.bitWritten d val = s.unitRead d (unitOf s.indexOperand) then { slot := d, lo := 0, count := 0 }
    else receiverOf i s
  | .initpat _ _ _ | .attach _ _ | .detach _ | .getbit _ | .xor3 _ _ _ | .xor2 _ _ | .hassurv _ _ =>
    receiverOf i s

/-- Where the draws of a race begin: after every draw the command itself can make, whatever the platform answers it. -/
def raceDraws (i : Instr) (s : State) : Nat := s.draws + (receiverOf i s).count + 1

/-- The outcome of a race (R74(b)): if the host wrote bytes of a named borrowed buffer while the command was BUSY,
those bytes, every receiver unit the command writes and the result bit each hold a draw (log entry 16). `s` is the
state the command ran in, `t` the state it completed in. -/
def settleRace (i : Instr) (s t : State) : State :=
  if s.cur.raced = [] then t
  else freeResult i (((t.drawFrom (raceDraws i s)).scramble (raceUnits i s)).scrambleExt s.cur.raced)

/-- Execute `CUR` to completion (R96). A word that decodes to nothing is ILLEGAL (R95), after HALTED (R216). -/
def runCommand (s : State) : Result :=
  match decode s.cur.word with
  | .error _ => if s.status.halted then raise .halted s else raise .illegal s
  | .ok i =>
    match exec i s with
    | .next t => .next (settleRace i s t)
    | .fault f => .fault f
    | .refused r => .refused r

/-- The engine's turn: complete the executing command, or stay idle, keeping all state (60_exceptions.md R231). -/
def engineTurn (s : State) : Result :=
  if s.status.busy then runCommand s else .next s

/-- The block's slots that the latched command names (20_memory.md R74). A word that selects a row names the slots of
the row's used fields, and still names those below `NV` where another is `>= NV` and makes it illegal (the words of R94
and R215); a word that selects no row names none. The spec does not say it for the race (DESIGN CHOICE, log entry
16). -/
def State.namedSlots (s : State) : List SlotNum :=
  match decode s.cur.word with
  | .ok i => i.slots.filter fun d => decide (d.val < s.cfg.nv)
  | .error _ => []

/-- `a` is an external byte in the buffer of a BORROWED slot that the executing command names (R74). -/
def State.racesAt (s : State) (a : Nat) : Bool :=
  s.status.busy && s.namedSlots.any fun d =>
    (s.slot d).mode == .borrowed && decide ((s.slot d).base.toNat ≤ a)
      && decide (a < (s.slot d).base.toNat + s.unitLength d)

end Sys2Proof.Machine
end

