-- ==== Sys2Proof/Machine/HostPort.lean ====
section
/-! DEFINITION. The host's turns (70_reset_and_hazards.md R262): the register window (10_state.md R39 to R47),
external memory (20_memory.md R74, R75) and reset (R250, R251). -/
namespace Sys2Proof.Machine

/-! ## Register window -/

/-- CFG (R40): NV, AW, SURV_RULE and SURV_MASK in their fields. -/
def cfgWord (c : Config) : Word :=
  (c.survMask ++ 0#6 ++ survCode c.survRule ++ 0#2 ++ BitVec.ofNat 6 c.aw ++ 0#3 ++ BitVec.ofNat 5 c.nv).cast rfl

/-- SMODE_s (R42). -/
def Slot.modeWord (sl : Slot) : Word := (0#16 ++ sl.extFlag ++ 0#6 ++ sl.mode.code).cast rfl

/-- The four registers of a slot, by word number: SMODE, SBITLEN, SUNITLEN, SBASE (R39). -/
def Slot.register (sl : Slot) (k : Nat) : Word :=
  if k = 0 then sl.modeWord
  else if k = 1 then sl.bitLength
  else if k = 2 then BitVec.ofNat 32 sl.unitLength
  else sl.base

/-- The register at a window offset (R39): reserved offsets, slots `>= NV` and CMD read 0 (R43). -/
def State.register (s : State) (off : Nat) : Word :=
  if off = 0x000 then cfgWord s.cfg
  else if off = 0x004 then BitVec.ofNat 32 s.cfg.maxUnits
  else if off = 0x008 then s.status.word
  else if off = 0x010 then s.opa
  else if off = 0x014 then s.opb
  else if 0x040 ≤ off then
    let k := (off - 0x040) / 0x10
    if k < s.cfg.nv then (s.slots.getD k Slot.emptied).register ((off - 0x040) % 0x10 / 4) else 0
  else 0

/-- The window offset of a host bus address; none outside the `0x140` bytes at `REG_BASE` (R39, R12). -/
def windowOffset (c : Config) (addr : Nat) : Option Nat :=
  if c.regBase ≤ addr ∧ addr < c.regBase + 0x140 then some (addr - c.regBase) else none

/-- "Only aligned 32-bit reads and writes are defined" (R43). Aligned is judged by the window offset: where `REG_BASE`
is no multiple of 4 (R12 lets the platform assign any address) the spec does not say whether the host bus address or
the offset must be aligned, and the model takes the offset (DEDUCED, log entry 19: by the bus address, no register of
such a block could be accessed). -/
def wordAccess (off size : Nat) : Bool := size == 4 && off % 4 == 0

/-- A host read of the window: no side effects (R43) beyond the answer the host gets. An access of another size or
alignment returns draws of the host's own sequence. An access elsewhere is not the block's. -/
def hostRegRead (addr size : Nat) (s : State) : Result :=
  match windowOffset s.cfg addr with
  | none => .next s
  | some off =>
    if wordAccess off size then .next { s with answer := .word (s.register off) }
    else .next { s.hostTick size with answer := .bytes (s.hostDrawn size) }

/-- A write of `w` to CMD (R47). While HALTED an accepted command completes at once (R35, R216). -/
def writeCmd (w : Word) (s : State) : Result :=
  if s.status.busy then .next { s with status := s.status.dropped }
  else if s.status.halted then raise .halted (s.accept w)
  else .next (s.accept w)

/-- A host write of the window (R39, R43): STATUS (R36), OPA, OPB (R38), CMD (R47); every other write is ignored. -/
def hostRegWrite (addr size : Nat) (v : Word) (s : State) : Result :=
  match windowOffset s.cfg addr with
  | none => .next s
  | some off =>
    if wordAccess off size then
      if off = 0x008 then .next { s with status := s.status.written v }
      else if off = 0x010 then .next { s with opa := v }
      else if off = 0x014 then .next { s with opb := v }
      else if off = 0x018 then writeCmd v s
      else .next s
    else .next s

/-- One turn of the host's `wait` loop, "read `STATUS` until bit 1 (DONE) = 1" (30_encoding.md R100): it reads STATUS.
With DONE = 1 the loop ends; otherwise the engine moves and the host reads again (log entry 23). -/
def hostWait (s : State) : Result :=
  .next { s with
    answer := .word (s.register 0x008)
    turns := if s.status.done then s.turns else .engine :: .wait :: s.turns }

/-! ## External memory -/

/-- What a racing host read returns (R74(a)): the byte before the command, or the byte the command writes to it, by a
free choice; any value once the host itself has written the byte during the command. "The byte the command writes" is
the one it would write from the state at the read; a later racing host write makes the final byte a draw, and does not
change what was read. While the command lies on addresses with read side effects, where R68 gives it no meaning
(93_implementation_defined.md item 14), the read answers the byte before the command. (Log entry 16: DEDUCED, and
DESIGN CHOICE for read side effects.) -/
def racingByte (s : State) (a : Nat) : Byte :=
  if s.cur.raced.contains a then Config.hostByte s.hostDraws
  else if s.hostBit then
    match runCommand s with
    | .next t => Memory.read t.ext a
    | .fault _ => Memory.read s.ext a
    | .refused _ => Memory.read s.ext a
  else Memory.read s.ext a

/-- A host read of an external byte (R75, R74(a)). The spec does not say what the host's own access gives where the
platform refuses the engine's accesses, or where reads have side effects: the model treats the byte as plain memory, read
without side effect and never refused (DESIGN CHOICE, log entry 26). -/
def hostExtRead (a : Nat) (s : State) : Result :=
  if extSize s.cfg ≤ a then .fault .outsideExternalMemory
  else if s.racesAt a then .next { s.hostTick 1 with answer := .bytes [racingByte s a] }
  else .next { s with answer := .bytes [Memory.read s.ext a] }

/-- A host write of an external byte (R75); a race if the executing command names its buffer (R74(b)), whose outcome is
then drawn anew, whatever a racing read has looked ahead to (R15). As for `hostExtRead`, the byte is plain memory
whatever the platform's regions are (DESIGN CHOICE, log entry 26). -/
def hostExtWrite (a : Nat) (v : Byte) (s : State) : Result :=
  if extSize s.cfg ≤ a then .fault .outsideExternalMemory
  else if s.cfg.hostWriteVisible then
    let t := { s with ext := Memory.write s.ext a v }
    if s.racesAt a then .next { t.redraw with cur := { t.cur with raced := a :: t.cur.raced } } else .next t
  else .refused .hostWriteNotVisible

/-! ## Reset -/

/-- A command abandoned by reset (R251): every external byte it would write holds a draw, and so does every byte the
host raced on (R74(b)), drawn anew whatever a racing read has looked ahead to (R15). Owned storage needs none: reset
empties every slot. A command over addresses with read side effects (R68, 93_implementation_defined.md item 14) is not
refused here, where it completes no access the model would have to give a meaning: reset frees its receiver units and
the raced bytes as for any other (DESIGN CHOICE, log entry 17). -/
def abandonCommand (s : State) : State :=
  match decode s.cur.word with
  | .error _ => s
  | .ok i =>
    if s.status.busy then (s.redraw.scramble (receiverOf i s)).scrambleExt s.cur.raced else s

/-- Reset (R250, R49): every piece of the block's state at its reset value; external memory untouched but for an
abandoned command's bytes (R251). -/
def blockReset (s : State) : State :=
  { abandonCommand s with
    slots := List.replicate s.cfg.nv Slot.emptied
    status := Status.zero
    opa := 0
    opb := 0
    cur := Latch.zero }

/-- One turn. -/
def takeTurn (t : Turn) (s : State) : Result :=
  match t with
  | .engine => engineTurn s
  | .regRead addr size => hostRegRead addr size s
  | .regWrite addr size v => hostRegWrite addr size v s
  | .extRead a => hostExtRead a s
  | .extWrite a v => hostExtWrite a v s
  | .reset => .next (blockReset s)
  | .wait => hostWait s
  | .remap regions => .next { s with platform := regions }
  | .mastersClash => .refused .severalMasters

end Sys2Proof.Machine
end

