-- ==== Sys2Proof/Machine/Step.lean ====
section
/-! DEFINITION. One step of the whole machine, and where it takes its next command. -/
namespace Sys2Proof.Machine

/-- One step: the first waiting turn is taken; with none waiting the engine moves, so that an accepted command always
completes (70_reset_and_hazards.md R261). The block has no program counter (10_state.md R30): its commands come from
the CMD writes among the turns. -/
def step (s : State) : Host.Outcome State Fault Refusal :=
  match s.turns with
  | [] => engineTurn s
  | t :: ts => takeTurn t { s with turns := ts }

/-- `s` with the command word accepted (R47) and the engine to move next. The block fetches nothing (20_memory.md R78):
the latch CUR, filled at acceptance with the word and the operand registers, is where the engine finds the command it
executes (log entry 15). -/
def State.withFetchWord (s : State) (nbits w : Nat) : State :=
  { s.accept (tableWord nbits w) with turns := .engine :: s.turns }

end Sys2Proof.Machine
end

