-- ==== Sys2Proof/Machine/Assembler.lean ====
section
/-! DEFINITION. The assembly lines of 30_encoding.md R99 and the pseudo-instructions of R100, as the host turns they
stand for under the protocol of R101. A line is first read into its operands, then assembled. -/
namespace Sys2Proof.Machine

/-- A line of R99 or R100. -/
inductive AsmLine where
  | init (d n : Nat)
  | initpat (d pat flag : Nat)
  | attach (d addr n flag : Nat)
  | detach (d : Nat)
  | setbit (d i b : Nat)
  | getbit (d i : Nat)
  | xor3 (d a b : Nat)
  | xor2 (d a : Nat)
  | hassurv (d a : Nat)
  /-- `setbit vD, i` -/
  | setbit1 (d i : Nat)
  /-- `clrbit vD, i` -/
  | clrbit (d i : Nat)
  /-- `zero vD` -/
  | zero (d : Nat)
  /-- `copy vD, vA` -/
  | copy (d a : Nat)
  /-- `wait`: a host-side loop that issues no command (`lineTurns`) -/
  | wait
deriving DecidableEq, Repr

/-! ## The text of a line -/

/-- A digit of base 10 or 16; hexadecimal digits in either case (log entry 23). -/
def digitValue (base : Nat) (c : Char) : Option Nat :=
  let v :=
    if '0' ≤ c ∧ c ≤ '9' then c.toNat - '0'.toNat
    else if 'a' ≤ c ∧ c ≤ 'f' then c.toNat - 'a'.toNat + 10
    else if 'A' ≤ c ∧ c ≤ 'F' then c.toNat - 'A'.toNat + 10
    else base
  if v < base then some v else none

/-- The number the digits write, after those read so far. -/
def digitsValue (base : Nat) : Nat → List Char → Option Nat
  | n, [] => some n
  | n, c :: cs =>
    match digitValue base c with
    | some v => digitsValue base (n * base + v) cs
    | none => none

/-- A number "in decimal or with a `0x` prefix in hexadecimal" (R99), of at least one digit; leading zeros are accepted
(log entry 23). -/
def numberText : List Char → Option Nat
  | [] => none
  | ['0', 'x'] => none
  | '0' :: 'x' :: cs => digitsValue 16 0 cs
  | cs => digitsValue 10 0 cs

/-- A slot, `v` and its number (R99); a number above 15 is an assembly error (`asmSlot`). The number is any decimal
digits, leading zeros included (`v00`, `v015`): R99 does not say whether a slot may be spelled so (DESIGN CHOICE, log
entry 23). -/
def slotText : List Char → Option Nat
  | 'v' :: c :: cs => digitsValue 10 0 (c :: cs)
  | _ => none

/-- The parts between commas, without blanks. -/
def commaParts : List Char → List (List Char)
  | [] => [[]]
  | c :: cs =>
    if c = ',' then [] :: commaParts cs
    else
      match commaParts cs with
      | [] => [[c]]
      | p :: ps => if c = ' ' then p :: ps else (c :: p) :: ps

/-- The mnemonic, up to the first blank. -/
def mnemonicText (cs : List Char) : List Char := cs.takeWhile (· != ' ')

/-- The operands, after the first blank. -/
def operandTexts (cs : List Char) : List (List Char) := commaParts (cs.dropWhile (· != ' '))

/-- Read one line in the syntax of R99 and R100; none for any other text. -/
def readLine (cs : List Char) : Option AsmLine := do
  match mnemonicText cs, operandTexts cs with
  | ['i', 'n', 'i', 't'], [d, n] => return .init (← slotText d) (← numberText n)
  | ['i', 'n', 'i', 't', 'p', 'a', 't'], [d, p, f] =>
    return .initpat (← slotText d) (← numberText p) (← numberText f)
  | ['a', 't', 't', 'a', 'c', 'h'], [d, a, n, f] =>
    return .attach (← slotText d) (← numberText a) (← numberText n) (← numberText f)
  | ['d', 'e', 't', 'a', 'c', 'h'], [d] => return .detach (← slotText d)
  | ['s', 'e', 't', 'b', 'i', 't'], [d, i, b] => return .setbit (← slotText d) (← numberText i) (← numberText b)
  | ['s', 'e', 't', 'b', 'i', 't'], [d, i] => return .setbit1 (← slotText d) (← numberText i)
  | ['c', 'l', 'r', 'b', 'i', 't'], [d, i] => return .clrbit (← slotText d) (← numberText i)
  | ['g', 'e', 't', 'b', 'i', 't'], [d, i] => return .getbit (← slotText d) (← numberText i)
  | ['x', 'o', 'r', '3'], [d, a, b] => return .xor3 (← slotText d) (← slotText a) (← slotText b)
  | ['x', 'o', 'r', '2'], [d, a] => return .xor2 (← slotText d) (← slotText a)
  | ['h', 'a', 's', 's', 'u', 'r', 'v'], [d, a] => return .hassurv (← slotText d) (← slotText a)
  | ['z', 'e', 'r', 'o'], [d] => return .zero (← slotText d)
  | ['c', 'o', 'p', 'y'], [d, a] => return .copy (← slotText d) (← slotText a)
  | ['w', 'a', 'i', 't'], [[]] => return .wait
  | _, _ => none

/-! ## The commands of a line -/

/-- What one line writes: OPA and OPB where the command uses them, then CMD (R99). -/
structure Command where
  opa : Option Word
  opb : Option Word
  word : Word
deriving DecidableEq, Repr

/-- A slot above 15 is an assembly error (R99). -/
def asmSlot (n : Nat) : Option SlotNum := if h : n < 16 then some ⟨n, h⟩ else none

/-- A byte above 255 is an assembly error (R99). -/
def asmByte (n : Nat) : Option Byte := if n < 256 then some (BitVec.ofNat 8 n) else none

/-- A number above 2^32 - 1 is an assembly error (R99). -/
def asmWord (n : Nat) : Option Word := if n < 2 ^ 32 then some (BitVec.ofNat 32 n) else none

/-- `b` other than 0 or 1 is an assembly error (R99). -/
def asmBit (n : Nat) : Option Bool := if n < 2 then some (n == 1) else none

/-- A command that uses neither operand register. -/
def Command.plain (i : Instr) : Command := { opa := none, opb := none, word := encode i }

/-- A bit-write line. -/
def asmSetbit (d i b : Nat) : Option Command := do
  return { opa := some (← asmWord i), opb := none, word := encode (.setbit (← asmSlot d) (← asmBit b)) }

/-- An `xor3` line. -/
def asmXor3 (d a b : Nat) : Option Command := do
  return Command.plain (.xor3 (← asmSlot d) (← asmSlot a) (← asmSlot b))

/-- An `xor2` line. -/
def asmXor2 (d a : Nat) : Option Command := do
  return Command.plain (.xor2 (← asmSlot d) (← asmSlot a))

/-- The commands a line stands for; none for an assembly error, for which "the assembler emits nothing" (R99, R100). -/
def assemble (l : AsmLine) : Option (List Command) :=
  match l with
  | .init d n => do
    return [{ opa := some (← asmWord n), opb := none, word := encode (.init (← asmSlot d)) }]
  | .initpat d pat flag => do
    return [Command.plain (.initpat (← asmSlot d) (← asmByte pat) (← asmByte flag))]
  | .attach d addr n flag => do
    return [{ opa := some (← asmWord n), opb := some (← asmWord addr),
              word := encode (.attach (← asmSlot d) (← asmByte flag)) }]
  | .detach d => do return [Command.plain (.detach (← asmSlot d))]
  | .setbit d i b => do return [← asmSetbit d i b]
  | .getbit d i => do
    return [{ opa := some (← asmWord i), opb := none, word := encode (.getbit (← asmSlot d)) }]
  | .xor3 d a b => do return [← asmXor3 d a b]
  | .xor2 d a => do return [← asmXor2 d a]
  | .hassurv d a => do return [Command.plain (.hassurv (← asmSlot d) (← asmSlot a))]
  | .setbit1 d i => do return [← asmSetbit d i 1]
  | .clrbit d i => do return [← asmSetbit d i 0]
  | .zero d => do return [← asmXor3 d d d]
  | .copy d a => do return [← asmXor3 d d d, ← asmXor2 d a]
  | .wait => some []

/-- The commands of a line of text; none for an assembly error. -/
def assembleText (cs : List Char) : Option (List Command) := do assemble (← readLine cs)

/-- The host turns of one command under the protocol of R101: the operand writes, the CMD write, and the `wait`. -/
def Command.turns (c : Config) (cmd : Command) : List Turn :=
  (match cmd.opa with | some w => [Turn.regWrite (c.regBase + 0x010) 4 w] | none => [])
    ++ (match cmd.opb with | some w => [Turn.regWrite (c.regBase + 0x014) 4 w] | none => [])
    ++ [.regWrite (c.regBase + 0x018) 4 cmd.word, .wait]

/-- The host turns of one line: those of its commands, and for a `wait` line the loop itself (R100). -/
def lineTurns (c : Config) (l : AsmLine) : Option (List Turn) :=
  if l = .wait then some [.wait] else do return ((← assemble l).map (Command.turns c)).flatten

/-- The host turns of a program: none if a line does not assemble. -/
def programTurns (c : Config) (ls : List AsmLine) : Option (List Turn) := do
  return (← ls.mapM (lineTurns c)).flatten

end Sys2Proof.Machine
end

