-- ==== Sys2Proof/Safety.lean ====
section
/-! DEFINITION. The terms claims are stated in: the invariants of the spec, the frame of a command, and what it means
that the platform answers every access of a command. -/
namespace Sys2Proof.Machine

/-- The invariants of one slot: emptiness (10_state.md R22), `base` (R21), the capacity of owned storage
(40_vector_lifecycle.md R112), the range of a borrowed buffer (20_memory.md R62), and the canonical form of the owned
bytes kept (R26). -/
structure SlotInv (c : Config) (sl : Slot) : Prop where
  empty_iff : sl.mode = .empty ↔ sl.bitLength = 0
  empty_flag : sl.mode = .empty → sl.extFlag = 0
  base_zero : sl.mode ≠ .borrowed → sl.base = 0
  owned_fits : sl.mode = .owned → sl.unitLength ≤ c.maxUnits
  borrowed_fits : sl.mode = .borrowed → sl.base.toNat + sl.unitLength ≤ extSize c
  own_wf : Memory.wf sl.own = true
  own_below : Memory.below sl.own sl.unitLength = true
  own_none : sl.mode ≠ .owned → sl.own = []

/-- The invariant of the machine. Every step keeps it; `State.reset` has it. -/
structure Inv (s : State) : Prop where
  /-- The parameters lie in their ranges (00_scope.md R7 to R11). -/
  cfg_wf : s.cfg.wf = true
  /-- There are `NV` slots (10_state.md R20). -/
  slot_count : s.slots.length = s.cfg.nv
  slots_inv : ∀ sl ∈ s.slots, SlotInv s.cfg sl
  /-- "BUSY and DONE are never both 1" (R32). -/
  busy_not_done : s.status.busy = true → s.status.done = false
  /-- "While BUSY = 1, STATUS.ERR and STATUS.RESULT read 0" (70_reset_and_hazards.md R256). -/
  busy_clear : s.status.busy = true → s.status.err = .ok ∧ s.status.result = false
  /-- RESULT is 0 for every command that completes with an error (10_state.md R34). -/
  result_ok : s.status.result = true → s.status.err = .ok
  /-- External memory is in canonical form, within 2^AW addresses (20_memory.md R60). -/
  ext_wf : Memory.wf s.ext = true
  ext_below : Memory.below s.ext (extSize s.cfg) = true
  raced_below : ∀ a ∈ s.cur.raced, a < extSize s.cfg

/-- What no command changes: parameters, OPA, OPB, the latch, the platform, the waiting turns, the host's answer, the
epoch of draws and the draws of the host's reads, and the flags OVF and (but for INIT) HALTED. -/
structure SameBlock (s t : State) : Prop where
  cfg : t.cfg = s.cfg
  opa : t.opa = s.opa
  opb : t.opb = s.opb
  cur : t.cur = s.cur
  platform : t.platform = s.platform
  turns : t.turns = s.turns
  answer : t.answer = s.answer
  epoch : t.epoch = s.epoch
  hostDraws : t.hostDraws = s.hostDraws
  halted : t.status.halted = s.status.halted
  ovf : t.status.ovf = s.status.ovf
  slotCount : t.slots.length = s.slots.length

/-- STATUS after a completion (60_exceptions.md R221): BUSY 0, DONE 1, the code and the result. -/
def Completed (t : State) (err : ErrCode) (res : Bool) : Prop :=
  t.status.busy = false ∧ t.status.done = true ∧ t.status.err = err ∧ t.status.result = res

/-- Every slot but `d` is unchanged. -/
def OtherSlotsSame (d : SlotNum) (s t : State) : Prop := ∀ k : SlotNum, k ≠ d → t.slot k = s.slot k

/-- The fields of slot `d` other than its buffer are unchanged. -/
def SameFields (d : SlotNum) (s t : State) : Prop :=
  (t.slot d).mode = (s.slot d).mode ∧ (t.slot d).bitLength = (s.slot d).bitLength
    ∧ (t.slot d).extFlag = (s.slot d).extFlag ∧ (t.slot d).base = (s.slot d).base

/-- Every external byte reads as before. -/
def SameExt (s t : State) : Prop := ∀ a : Nat, Memory.read t.ext a = Memory.read s.ext a

/-- Every external byte but those of the units `P` of slot `d` reads as before. -/
def SameExtBut (d : SlotNum) (P : Nat → Prop) (s t : State) : Prop :=
  ∀ a : Nat, (∀ u, P u → s.unitAddress d u ≠ some a) → Memory.read t.ext a = Memory.read s.ext a

/-- Nothing of slots, external memory and free values changes. -/
def SameStorage (s t : State) : Prop := t.slots = s.slots ∧ t.ext = s.ext ∧ t.draws = s.draws

/-- The command word may run: the block is not halted and every named slot is below `NV` (30_encoding.md R96). -/
def Issued (i : Instr) (s : State) : Prop := s.status.halted = false ∧ i.wf s.cfg.nv = true

/-- The platform answers every read and every write of these spans with data, in memory without read side effects. -/
def Answered (reads writes : List Span) (s : State) : Prop :=
  s.onDevice (reads ++ writes) = false ∧ reads.any s.readRefused = false ∧ writes.any s.writeRefused = false

/-- `b` is a draw made between `s` and `t` (R15): the statement holds whatever its value is. -/
def IsDraw (s t : State) (b : Byte) : Prop := ∃ n, s.draws ≤ n ∧ n < t.draws ∧ b = Config.freeByte t.epoch n

/-- `b` is a draw of a host read made between `s` and `t` (R15, R43, R74): the statement holds whatever its value is. -/
def IsHostDraw (s t : State) (b : Byte) : Prop := ∃ n, s.hostDraws ≤ n ∧ n < t.hostDraws ∧ b = Config.hostByte n

/-- External address `a` belongs to the buffer of the BORROWED slot `d` (20_memory.md R62). -/
def InBuffer (s : State) (d : SlotNum) (a : Nat) : Prop := ∃ u, u < s.unitLength d ∧ s.unitAddress d u = some a

/-- Two slots have an external byte in common. -/
def ShareBytes (s : State) (d a : SlotNum) : Prop := ∃ x, InBuffer s d x ∧ InBuffer s a x

/-- Partial overlap (42_xor_combine.md R164): common bytes, different bases. -/
def PartlyOverlaps (s : State) (d a : SlotNum) : Prop := ShareBytes s d a ∧ (s.slot d).base ≠ (s.slot a).base

/-- The slots of a two- or three-vector command are attached and have equal unit lengths (R160, R161). -/
def Compatible (s : State) (d : SlotNum) (others : List SlotNum) : Prop :=
  (s.slot d).mode ≠ .empty ∧ ∀ a ∈ others, (s.slot a).mode ≠ .empty ∧ s.unitLength a = s.unitLength d

/-- Apply `f` to the next state, if there is one. -/
def onNext (f : State → State) : Result → Result
  | .next t => .next (f t)
  | .fault e => .fault e
  | .refused r => .refused r

/-- Write the listed units of slot `d`. -/
def writeAt (d : SlotNum) : List (Nat × Byte) → State → State
  | [], s => s
  | p :: ps, s => writeAt d ps (s.unitWrite d p.1 p.2)

/-- XOR by groups of units: the source units of a group are read, then its receiver units are written, group after
group. Groups of one are a pipeline, one group of all units is the snapshot, groups of `LANES` are a parallel datapath
(42_xor_combine.md R162, 00_scope.md R10). -/
def combineByGroups (d a b : SlotNum) : List (List Nat) → State → State
  | [], s => s
  | g :: gs, s => combineByGroups d a b gs (writeAt d (g.map fun u => (u, s.unitRead a u ^^^ s.unitRead b u)) s)

/-- The engine moves next: its turn stands first, or no turn waits; `rest` is what waits after it. -/
def EngineNext (s : State) (rest : List Turn) : Prop := s.turns = .engine :: rest ∨ (s.turns = [] ∧ rest = [])

end Sys2Proof.Machine
end

