-- ==== Sys2Proof/Certificates/Slice0/Obligations.lean ====
section
/-! DEFINITION. The statements for the provers. Each docstring names the rule it formalises. -/
open Sys2Proof Sys2Proof.Machine

/-! ## Encoding -/

/-- No field of a command word is dropped: R90 to R93. -/
def Obligations.EncodeThenDecodeGivesBack : Prop := ∀ i : Instr, decode (encode i) = .ok i

/-- Each legal word has one meaning and one spelling: R91, R93. -/
def Obligations.DecodeThenEncodeGivesBack : Prop :=
  ∀ (w : Word) (i : Instr), decode w = .ok i → encode i = w

/-- R93: "A word selects a row when `(word & mask) == match`", with the rows' match and mask written out; every other
word is rejected (R95), by reserved opcode or by must-be-zero bits. -/
def Obligations.WordsSelectRowsByMask : Prop :=
  ∀ w : Word,
    ((∃ i, decode w = .ok i) ↔
      (w &&& 0xF0FFFFFF#32 = 0x10000000#32 ∨ w &&& 0xF0FF0000#32 = 0x20000000#32
        ∨ w &&& 0xF0FFFF00#32 = 0x30000000#32 ∨ w &&& 0xF0FFFFFF#32 = 0x40000000#32
        ∨ w &&& 0xF0FFFFFE#32 = 0x50000000#32 ∨ w &&& 0xF0FFFFFF#32 = 0x60000000#32
        ∨ w &&& 0xF000FFFF#32 = 0x70000000#32 ∨ w &&& 0xF00FFFFF#32 = 0x80000000#32
        ∨ w &&& 0xF00FFFFF#32 = 0x90000000#32))
    ∧ (decode w = .error .reservedOpcode ↔ (w.toNat / 2 ^ 28 = 0 ∨ 10 ≤ w.toNat / 2 ^ 28))

/-- Words written out from the table of R93 decode to the commands they stand for. -/
def Obligations.KnownWordsDecode : Prop :=
  decode 0x11000000 = .ok (.init 1) ∧ decode 0x2000A533 = .ok (.initpat 0 0xA5 0x33)
    ∧ decode 0x31000005 = .ok (.attach 1 5) ∧ decode 0x41000000 = .ok (.detach 1)
    ∧ decode 0x50000001 = .ok (.setbit 0 true) ∧ decode 0x61000000 = .ok (.getbit 1)
    ∧ decode 0x73210000 = .ok (.xor3 3 2 1) ∧ decode 0x80100000 = .ok (.xor2 0 1)
    ∧ decode 0x90100000 = .ok (.hassurv 0 1) ∧ decode 0x00000000 = .error .reservedOpcode
    ∧ decode 0x80120000 = .error .mustBeZero

/-! ## The step -/

/-- When the engine moves and BUSY = 1, the step is `exec` of the command the latch decodes to (R96), followed by the
outcome of a host race (R74) if there was one; and a word placed by `withFetchWord` is run by the very next step. -/
def Obligations.StepRunsLatchedCommand : Prop :=
  (∀ (s : State) (i : Instr) (rest : List Turn), EngineNext s rest → s.status.busy = true →
    decode s.cur.word = .ok i →
    step s = onNext (settleRace i { s with turns := rest }) (exec i { s with turns := rest })
    ∧ (s.cur.raced = [] → step s = exec i { s with turns := rest }))
  ∧ (∀ (s : State) (w : Nat) (i : Instr), decodeTableWord 32 w = some i →
      step (s.withFetchWord 32 w) = exec i (s.accept (BitVec.ofNat 32 w)))

/-- Completion (R221) and rest (R231) of an engine turn: in memory without read side effects it completes the executing
command; with BUSY = 0 it keeps all state. That ONE engine turn completes a command is the model's choice (log entry 6,
DEDUCED: R261 says a finite but unspecified number of cycles), and so is that the engine moves where no turn is listed
(log entry 15, DESIGN CHOICE). -/
def Obligations.EngineTurnCompletesOrIdles : Prop :=
  ∀ (s : State) (rest : List Turn), EngineNext s rest →
    (s.status.busy = true → (∀ r ∈ s.platform, r.kind ≠ .readSideEffects) →
      ∃ t, step s = .next t ∧ t.status.busy = false ∧ t.status.done = true)
    ∧ (s.status.busy = false → step s = .next { s with turns := rest })

/-! ## Completion and errors -/

/-- Every command ends with one completion (R210, R221, R32 to R34), unless it meets memory with read side effects
(R68). -/
def Obligations.EveryCommandCompletesOnce : Prop :=
  (∀ (i : Instr) (s t : State), exec i s = .next t →
    t.status.busy = false ∧ t.status.done = true ∧ (t.status.err ≠ .ok → t.status.result = false)
      ∧ t.status.ovf = s.status.ovf)
  ∧ (∀ (i : Instr) (s : State), (∃ t, exec i s = .next t)
      ∨ (exec i s = .refused .readSideEffects ∧ ∃ r ∈ s.platform, r.kind = .readSideEffects))

/-- R222: an error other than BUS is precise. -/
def Obligations.ErrorsArePrecise : Prop :=
  ∀ (i : Instr) (s t : State), exec i s = .next t → t.status.err ≠ .ok → t.status.err ≠ .bus →
    t.slots = s.slots ∧ t.ext = s.ext ∧ t.draws = s.draws

/-- R215: a word that selects no row or names a slot `>= NV` completes with ILLEGAL and changes nothing. A host race
meanwhile (log entry 16) is another statement's: `RacingWriteFreesResults`. -/
def Obligations.IllegalWordChangesNothing : Prop :=
  ∀ (s : State) (rest : List Turn), EngineNext s rest → s.status.busy = true → s.status.halted = false →
    s.cur.raced = [] → (∀ i, decode s.cur.word = .ok i → ∃ d ∈ i.slots, s.cfg.nv ≤ d.val) →
    ∃ t, step s = .next t ∧ Completed t .illegal false ∧ SameBlock { s with turns := rest } t ∧ SameStorage s t

/-- R216: while HALTED every accepted command, legal or not, completes with HALTED and changes nothing else: a latched
one at the engine's turn, one written to CMD at once (R35; the DEDUCED reading of "at once" is log entry 7). -/
def Obligations.HaltedBlocksEveryCommand : Prop :=
  (∀ (i : Instr) (s : State), s.status.halted = true →
    ∃ t, exec i s = .next t ∧ Completed t .halted false ∧ SameBlock s t ∧ SameStorage s t)
  ∧ (∀ (s : State) (rest : List Turn), EngineNext s rest → s.status.busy = true → s.status.halted = true →
      s.cur.raced = [] →
      ∃ t, step s = .next t ∧ Completed t .halted false ∧ SameBlock { s with turns := rest } t ∧ SameStorage s t)
  ∧ (∀ (s : State) (w : Word) (rest : List Turn), s.turns = .regWrite (s.cfg.regBase + 0x18) 4 w :: rest →
      s.status.busy = false → s.status.halted = true →
      ∃ t, step s = .next t ∧ Completed t .halted false ∧ t.status.halted = true ∧ SameStorage s t
        ∧ t.opa = s.opa ∧ t.opb = s.opb)

/-- HALTED (R35, R218): only reset clears it, and only an INIT beyond MAXUNITS sets it. -/
def Obligations.HaltedSetByInitClearedByReset : Prop :=
  ∀ s t : State, step s = .next t →
    (s.status.halted = true → t.status.halted = true ∨ ∃ rest, s.turns = .reset :: rest)
    ∧ (s.status.halted = false → t.status.halted = true →
        s.status.busy = true ∧ t.status.err = .alloc
          ∧ ∃ d, decode s.cur.word = .ok (.init d) ∧ s.cfg.maxUnits < ceil8 s.cur.opa.toNat)

/-- R212: an EMPTY operand slot. -/
def Obligations.EmptySlotIsUnattached : Prop :=
  ∀ (s : State) (i : Instr), Issued i s →
    ((∃ d pat flag, i = .initpat d pat flag ∧ (s.slot d).mode = .empty)
      ∨ (∃ d a b, i = .xor3 d a b ∧ ((s.slot d).mode = .empty ∨ (s.slot a).mode = .empty ∨ (s.slot b).mode = .empty))
      ∨ (∃ d o, i = .xor2 d o ∧ ((s.slot d).mode = .empty ∨ (s.slot o).mode = .empty))
      ∨ (∃ d a, i = .hassurv d a ∧ ((s.slot d).mode = .empty ∨ (s.slot a).mode = .empty))) →
    ∃ t, exec i s = .next t ∧ Completed t .unattached false ∧ SameBlock s t ∧ SameStorage s t

/-- R214: attached slots of differing unit length. -/
def Obligations.UnequalLengthsMismatch : Prop :=
  ∀ (s : State) (i : Instr), Issued i s → (∀ d ∈ i.slots, (s.slot d).mode ≠ .empty) →
    (∃ d ∈ i.slots, ∃ a ∈ i.slots, s.unitLength d ≠ s.unitLength a) →
    ∃ t, exec i s = .next t ∧ Completed t .lenMismatch false ∧ SameBlock s t ∧ SameStorage s t

/-- R213: an index outside `[0, bitLength)`, every index on an EMPTY slot included. -/
def Obligations.BadIndexIsOutOfBounds : Prop :=
  ∀ (s : State) (d : SlotNum) (i : Instr), ((∃ val, i = .setbit d val) ∨ i = .getbit d) → Issued i s → Inv s →
    ((s.slot d).bitLength.toNat ≤ s.cur.opa.toNat ∨ (s.slot d).mode = .empty) →
    ∃ t, exec i s = .next t ∧ Completed t .oob false ∧ SameBlock s t ∧ SameStorage s t

/-- R217, the trigger: a command whose access the platform refuses completes with BUS. HASSURV does so when no unit it
can read decides it (log entry 8 for the other case). -/
def Obligations.RefusedAccessGivesBus : Prop :=
  ∀ (s : State) (i : Instr), Issued i s → (∀ r ∈ s.platform, r.kind ≠ .readSideEffects) →
    ((∃ d pat flag, i = .initpat d pat flag ∧ (s.slot d).mode ≠ .empty ∧ s.writeRefused (s.wholeSlot d) = true)
      ∨ (∃ d val, i = .setbit d val ∧ s.indexValid d = true ∧ (s.readRefused (s.bitSpan d) = true
          ∨ (s.writeRefused (s.bitSpan d) = true
              ∧ (s.unitRead d (s.cur.opa.toNat / 8)).getLsbD (7 - s.cur.opa.toNat % 8) ≠ val)))
      ∨ (∃ d, i = .getbit d ∧ s.indexValid d = true ∧ s.readRefused (s.bitSpan d) = true)
      ∨ (∃ d a b, i = .xor3 d a b ∧ Compatible s d [a, b] ∧ (s.readRefused (s.wholeSlot a) = true
          ∨ s.readRefused (s.wholeSlot b) = true ∨ s.writeRefused (s.wholeSlot d) = true))
      ∨ (∃ d o, i = .xor2 d o ∧ Compatible s d [o] ∧ (s.readRefused (s.wholeSlot d) = true
          ∨ s.readRefused (s.wholeSlot o) = true ∨ s.writeRefused (s.wholeSlot d) = true))
      ∨ (∃ d a, i = .hassurv d a ∧ Compatible s d [a] ∧ s.failsReadably d a = false
          ∧ (s.readRefused (s.wholeSlot d) = true ∨ s.readRefused (s.wholeSlot a) = true))) →
    ∃ t, exec i s = .next t ∧ Completed t .bus false

/-- R217, the state after BUS: RESULT 0, no slot field changes, every receiver unit holds a draw, no other byte
changes. -/
def Obligations.BusLeavesOnlyReceiverUnitsDrawn : Prop :=
  ∀ (i : Instr) (s t : State), Inv s → exec i s = .next t → t.status.err = .bus →
    t.status.result = false ∧ SameBlock s t
    ∧ (∀ k : SlotNum, SameFields k s t)
    ∧ OtherSlotsSame (receiverOf i s).slot s t
    ∧ SameExtBut (receiverOf i s).slot
        (fun u => (receiverOf i s).lo ≤ u ∧ u < (receiverOf i s).lo + (receiverOf i s).count) s t
    ∧ (∀ u, (receiverOf i s).lo ≤ u → u < (receiverOf i s).lo + (receiverOf i s).count →
        IsDraw s t (t.unitRead (receiverOf i s).slot u))
    ∧ (∀ u, (u < (receiverOf i s).lo ∨ (receiverOf i s).lo + (receiverOf i s).count ≤ u) →
        t.unitRead (receiverOf i s).slot u = s.unitRead (receiverOf i s).slot u)
    ∧ ((∃ d pat flag, i = .initpat d pat flag ∧ receiverOf i s = s.wholeSlot d)
        ∨ (∃ d val, i = .setbit d val ∧ receiverOf i s = s.bitSpan d)
        ∨ (∃ d a b, i = .xor3 d a b ∧ receiverOf i s = s.wholeSlot d)
        ∨ (∃ d o, i = .xor2 d o ∧ receiverOf i s = s.wholeSlot d)
        ∨ ((∃ d, i = .getbit d) ∨ ∃ d a, i = .hassurv d a) ∧ (receiverOf i s).count = 0)

/-! ## INIT, INITPAT, ATTACH, DETACH -/

/-- R111: INIT of 1 to 8 * MAXUNITS bits, with its frame. -/
def Obligations.InitAllocatesZeroedSlot : Prop :=
  ∀ (s : State) (d : SlotNum), Issued (.init d) s → Inv s → s.cur.opa ≠ 0 →
    ceil8 s.cur.opa.toNat ≤ s.cfg.maxUnits →
    ∃ t, exec (.init d) s = .next t ∧ Completed t .ok false ∧ SameBlock s t ∧ OtherSlotsSame d s t
      ∧ SameExt s t ∧ t.draws = s.draws
      ∧ (t.slot d).mode = .owned ∧ (t.slot d).bitLength = s.cur.opa ∧ (t.slot d).extFlag = 0
      ∧ (t.slot d).base = 0 ∧ t.unitLength d = (s.cur.opa.toNat + 7) / 8
      ∧ ∀ u, u < t.unitLength d → t.unitRead d u = 0

/-- R112: an INIT beyond MAXUNITS leaves every slot, sets HALTED and completes with ALLOC. -/
def Obligations.InitBeyondCapacityHalts : Prop :=
  ∀ (s : State) (d : SlotNum), Issued (.init d) s → s.cfg.maxUnits < ceil8 s.cur.opa.toNat →
    s.cur.opa ≠ 0 →
    ∃ t, exec (.init d) s = .next t ∧ Completed t .alloc false ∧ t.status.halted = true
      ∧ t.status.ovf = s.status.ovf ∧ SameStorage s t ∧ t.cfg = s.cfg ∧ t.opa = s.opa ∧ t.opb = s.opb
      ∧ t.cur = s.cur ∧ t.platform = s.platform ∧ t.turns = s.turns ∧ t.answer = s.answer
      ∧ t.epoch = s.epoch ∧ t.hostDraws = s.hostDraws

/-- R113: INIT and ATTACH of bit length 0, whatever the address operand. -/
def Obligations.ZeroLengthEmptiesSlot : Prop :=
  ∀ (s : State) (d : SlotNum) (i : Instr), (i = .init d ∨ ∃ flag, i = .attach d flag) → Issued i s → Inv s →
    s.cur.opa = 0 →
    ∃ t, exec i s = .next t ∧ Completed t .ok false ∧ SameBlock s t ∧ OtherSlotsSame d s t
      ∧ SameExt s t ∧ t.draws = s.draws
      ∧ (t.slot d).mode = .empty ∧ (t.slot d).bitLength = 0 ∧ (t.slot d).extFlag = 0 ∧ (t.slot d).base = 0
      ∧ t.unitLength d = 0

/-- R114: INITPAT, with its frame; stored bytes are the units of `d`. -/
def Obligations.InitpatFillsEveryUnit : Prop :=
  ∀ (s : State) (d : SlotNum) (pat flag : Byte), Issued (.initpat d pat flag) s → Inv s →
    (s.slot d).mode ≠ .empty → Answered [] [s.wholeSlot d] s →
    ∃ t, exec (.initpat d pat flag) s = .next t ∧ Completed t .ok false ∧ SameBlock s t
      ∧ OtherSlotsSame d s t ∧ SameExtBut d (fun u => u < s.unitLength d) s t ∧ t.draws = s.draws
      ∧ (t.slot d).mode = (s.slot d).mode ∧ (t.slot d).bitLength = (s.slot d).bitLength
      ∧ (t.slot d).base = (s.slot d).base ∧ (t.slot d).extFlag = flag
      ∧ ∀ u, u < s.unitLength d → t.unitRead d u = pat

/-- R116: ATTACH of a buffer inside the address space, with its frame: no external byte is written. -/
def Obligations.AttachBorrowsBuffer : Prop :=
  ∀ (s : State) (d : SlotNum) (flag : Byte), Issued (.attach d flag) s → Inv s → s.cur.opa ≠ 0 →
    s.cur.opb.toNat + ceil8 s.cur.opa.toNat ≤ 2 ^ s.cfg.aw →
    ∃ t, exec (.attach d flag) s = .next t ∧ Completed t .ok false ∧ SameBlock s t ∧ OtherSlotsSame d s t
      ∧ SameExt s t ∧ t.draws = s.draws
      ∧ (t.slot d).mode = .borrowed ∧ (t.slot d).bitLength = s.cur.opa ∧ (t.slot d).extFlag = flag
      ∧ (t.slot d).base = s.cur.opb ∧ t.unitLength d = (s.cur.opa.toNat + 7) / 8
      ∧ ∀ u, u < t.unitLength d → t.unitRead d u = Memory.read s.ext (s.cur.opb.toNat + u)

/-- R117: RANGE when the buffer leaves the address space, and changing nothing; a buffer that ends exactly at the top is
admitted. -/
def Obligations.AttachOutsideSpaceIsRange : Prop :=
  ∀ (s : State) (d : SlotNum) (flag : Byte), Issued (.attach d flag) s → s.cur.opa ≠ 0 →
    ((2 ^ s.cfg.aw ≤ s.cur.opb.toNat ∨ 2 ^ s.cfg.aw < s.cur.opb.toNat + ceil8 s.cur.opa.toNat) →
      ∃ t, exec (.attach d flag) s = .next t ∧ Completed t .range false ∧ SameBlock s t ∧ SameStorage s t)
    ∧ (s.cur.opb.toNat + ceil8 s.cur.opa.toNat ≤ 2 ^ s.cfg.aw →
      ∃ t, exec (.attach d flag) s = .next t ∧ Completed t .ok false)

/-- R119: DETACH, with its frame. -/
def Obligations.DetachEmptiesSlot : Prop :=
  ∀ (s : State) (d : SlotNum), Issued (.detach d) s → Inv s →
    ∃ t, exec (.detach d) s = .next t ∧ Completed t .ok false ∧ SameBlock s t ∧ OtherSlotsSame d s t
      ∧ SameExt s t ∧ t.draws = s.draws
      ∧ (t.slot d).mode = .empty ∧ (t.slot d).bitLength = 0 ∧ (t.slot d).extFlag = 0 ∧ (t.slot d).base = 0
      ∧ t.unitLength d = 0

/-! ## SETBIT, GETBIT -/

/-- R142: SETBIT changes word bit `7 - (i mod 8)` of unit `i div 8` and no other bit, with its frame. -/
def Obligations.SetbitWritesOneBit : Prop :=
  ∀ (s : State) (d : SlotNum) (val : Bool), Issued (.setbit d val) s → Inv s →
    s.cur.opa.toNat < (s.slot d).bitLength.toNat → Answered [s.bitSpan d] [s.bitSpan d] s →
    ∃ t, exec (.setbit d val) s = .next t ∧ Completed t .ok false ∧ SameBlock s t ∧ OtherSlotsSame d s t
      ∧ SameFields d s t ∧ SameExtBut d (fun u => u = s.cur.opa.toNat / 8) s t ∧ t.draws = s.draws
      ∧ ∀ u p, u < s.unitLength d → p < 8 →
          (t.unitRead d u).getLsbD p =
            if u = s.cur.opa.toNat / 8 ∧ p = 7 - s.cur.opa.toNat % 8 then val
            else (s.unitRead d u).getLsbD p

/-- R143: setting a bit to the value it holds performs no write (a platform that refuses writes is not asked); it still
reads the unit (a platform that refuses the read gives BUS). -/
def Obligations.SetbitOfHeldValueWritesNothing : Prop :=
  ∀ (s : State) (d : SlotNum) (val : Bool), Issued (.setbit d val) s →
    s.cur.opa.toNat < (s.slot d).bitLength.toNat →
    (s.unitRead d (s.cur.opa.toNat / 8)).getLsbD (7 - s.cur.opa.toNat % 8) = val →
    (Answered [s.bitSpan d] [] s →
      ∃ t, exec (.setbit d val) s = .next t ∧ Completed t .ok false ∧ SameBlock s t ∧ SameStorage s t)
    ∧ ((∀ r ∈ s.platform, r.kind ≠ .readSideEffects) → s.readRefused (s.bitSpan d) = true →
      ∃ t, exec (.setbit d val) s = .next t ∧ Completed t .bus false)

/-- R145: GETBIT returns the bit, with its frame. -/
def Obligations.GetbitReadsOneBit : Prop :=
  ∀ (s : State) (d : SlotNum), Issued (.getbit d) s →
    s.cur.opa.toNat < (s.slot d).bitLength.toNat → Answered [s.bitSpan d] [] s →
    ∃ t, exec (.getbit d) s = .next t
      ∧ Completed t .ok ((s.unitRead d (s.cur.opa.toNat / 8)).getLsbD (7 - s.cur.opa.toNat % 8))
      ∧ SameBlock s t ∧ SameStorage s t

/-- R146: the set-then-get law, and the idempotence of SETBIT. -/
def Obligations.SetThenGetReturnsValue : Prop :=
  ∀ (s : State) (d : SlotNum) (val : Bool), Issued (.setbit d val) s → Inv s →
    s.cur.opa.toNat < (s.slot d).bitLength.toNat → Answered [s.bitSpan d] [s.bitSpan d] s →
    ∃ t r r', exec (.setbit d val) s = .next t ∧ exec (.getbit d) t = .next r ∧ Completed r .ok val
      ∧ exec (.setbit d val) t = .next r' ∧ Completed r' .ok false ∧ r'.slots = t.slots ∧ r'.ext = t.ext

/-! ## XOR3, XOR2 -/

/-- R163: XOR3 of compatible slots whose buffers do not partly overlap the receiver's, with its frame. The named slots
may coincide. -/
def Obligations.Xor3CombinesUnits : Prop :=
  ∀ (s : State) (d a b : SlotNum), Issued (.xor3 d a b) s → Inv s → Compatible s d [a, b] →
    Answered [s.wholeSlot a, s.wholeSlot b] [s.wholeSlot d] s →
    ¬ PartlyOverlaps s d a → ¬ PartlyOverlaps s d b →
    ∃ t, exec (.xor3 d a b) s = .next t ∧ Completed t .ok false ∧ SameBlock s t ∧ OtherSlotsSame d s t
      ∧ SameFields d s t ∧ SameExtBut d (fun u => u < s.unitLength d) s t ∧ t.draws = s.draws
      ∧ ∀ u, u < s.unitLength d → t.unitRead d u = s.unitRead a u ^^^ s.unitRead b u

/-- R166: XOR2, with its frame. -/
def Obligations.Xor2CombinesInPlace : Prop :=
  ∀ (s : State) (d o : SlotNum), Issued (.xor2 d o) s → Inv s → Compatible s d [o] →
    Answered [s.wholeSlot d, s.wholeSlot o] [s.wholeSlot d] s → ¬ PartlyOverlaps s d o →
    ∃ t, exec (.xor2 d o) s = .next t ∧ Completed t .ok false ∧ SameBlock s t ∧ OtherSlotsSame d s t
      ∧ SameFields d s t ∧ SameExtBut d (fun u => u < s.unitLength d) s t ∧ t.draws = s.draws
      ∧ ∀ u, u < s.unitLength d → t.unitRead d u = s.unitRead d u ^^^ s.unitRead o u

/-- R164: partial overlap leaves every receiver unit a draw and writes no byte outside the receiver's buffer. -/
def Obligations.PartialOverlapDrawsReceiver : Prop :=
  ∀ (s : State) (d : SlotNum) (i : Instr) (others : List SlotNum),
    ((∃ a b, i = .xor3 d a b ∧ others = [a, b]) ∨ ∃ o, i = .xor2 d o ∧ others = [d, o]) →
    Issued i s → Inv s → Compatible s d others →
    Answered (others.map s.wholeSlot) [s.wholeSlot d] s → (∃ a ∈ others, PartlyOverlaps s d a) →
    ∃ t, exec i s = .next t ∧ Completed t .ok false ∧ SameBlock s t ∧ OtherSlotsSame d s t
      ∧ SameFields d s t ∧ SameExtBut d (fun u => u < s.unitLength d) s t
      ∧ ∀ u, u < s.unitLength d → IsDraw s t (t.unitRead d u)

/-- R165: the self-inverse law, padding bits included. -/
def Obligations.XorIsSelfInverse : Prop :=
  ∀ (s : State) (r1 r2 a b : SlotNum), [r1, r2, a, b].Nodup → Inv s →
    Issued (.xor3 r1 a b) s → Issued (.xor3 r2 r1 b) s → Compatible s r1 [r2, a, b] →
    [r1, r2, a, b].Pairwise (fun x y => ¬ ShareBytes s x y) →
    Answered ([r1, r2, a, b].map s.wholeSlot) ([r1, r2].map s.wholeSlot) s →
    ∃ t r, exec (.xor3 r1 a b) s = .next t ∧ exec (.xor3 r2 r1 b) t = .next r
      ∧ Completed t .ok false ∧ Completed r .ok false
      ∧ ∀ u, u < s.unitLength a → r.unitRead r2 u = s.unitRead a u

/-- R162: every datapath gives the snapshot result: whatever the order and the grouping of the units, pipelined or
`LANES` at a time, the whole state after XOR3 or XOR2 is the same. -/
def Obligations.EveryDatapathGivesSnapshotResult : Prop :=
  (∀ (s : State) (d a b : SlotNum) (groups : List (List Nat)), Issued (.xor3 d a b) s → Inv s →
    Compatible s d [a, b] → Answered [s.wholeSlot a, s.wholeSlot b] [s.wholeSlot d] s →
    ¬ PartlyOverlaps s d a → ¬ PartlyOverlaps s d b → groups.flatten.Perm (List.range (s.unitLength d)) →
    exec (.xor3 d a b) s = .next (complete .ok false (combineByGroups d a b groups s)))
  ∧ (∀ (s : State) (d o : SlotNum) (groups : List (List Nat)), Issued (.xor2 d o) s → Inv s →
    Compatible s d [o] → Answered [s.wholeSlot d, s.wholeSlot o] [s.wholeSlot d] s →
    ¬ PartlyOverlaps s d o → groups.flatten.Perm (List.range (s.unitLength d)) →
    exec (.xor2 d o) s = .next (complete .ok false (combineByGroups d d o groups s)))

/-! ## HASSURV -/

/-- R193: HASSURV's result is the AND over all units of the test of R192, with its frame. -/
def Obligations.HassurvReducesUnitTests : Prop :=
  ∀ (s : State) (d a : SlotNum), Issued (.hassurv d a) s → Compatible s d [a] →
    Answered [s.wholeSlot d, s.wholeSlot a] [] s →
    ∃ t res, exec (.hassurv d a) s = .next t ∧ Completed t .ok res ∧ SameBlock s t ∧ SameStorage s t
      ∧ (res = true ↔ ∀ u, u < s.unitLength d →
          match s.cfg.survRule with
          | .allBoth => s.unitRead d u &&& s.unitRead a u &&& s.cfg.survMask = s.cfg.survMask
          | .allEqual => s.unitRead d u &&& s.cfg.survMask = s.unitRead a u &&& s.cfg.survMask
          | .allImplies => s.unitRead d u &&& s.cfg.survMask &&& ~~~(s.unitRead a u) = 0)

/-- R191, R194: the binding case gives false under every rule with `v1` as receiver, under ALL_BOTH and ALL_EQUAL for
the other receiver too, and true under ALL_IMPLIES there. -/
def Obligations.BindingCaseByRule : Prop :=
  ∀ (s : State) (v1 v2 : SlotNum), Issued (.hassurv v1 v2) s → Compatible s v1 [v2] → s.unitLength v1 = 8 →
    s.cfg.survMask = 0x80 → Answered [s.wholeSlot v1, s.wholeSlot v2] [] s →
    (∀ u, u < 8 → s.unitRead v1 u = 0x80) → s.unitRead v2 0 = 0x00 →
    (∀ u, 0 < u → u < 8 → s.unitRead v2 u = 0x80) →
    ∃ t t', exec (.hassurv v1 v2) s = .next t ∧ exec (.hassurv v2 v1) s = .next t'
      ∧ Completed t .ok false ∧ Completed t' .ok (decide (s.cfg.survRule = .allImplies))

/-- R196: ALL_BOTH and ALL_EQUAL are symmetric. -/
def Obligations.HassurvIsSymmetric : Prop :=
  ∀ (s : State) (d a : SlotNum), Issued (.hassurv d a) s → Compatible s d [a] → s.cfg.survRule ≠ .allImplies →
    Answered [s.wholeSlot d, s.wholeSlot a] [] s →
    ∃ t t' res, exec (.hassurv d a) s = .next t ∧ exec (.hassurv a d) s = .next t'
      ∧ Completed t .ok res ∧ Completed t' .ok res

/-- R197: for every predicate of the two unit sequences alone that gives false on the binding case, the check gives
its value, writes nothing but STATUS, and is false on the binding case. HASSURV itself is this check with the block's
SURV_RULE and SURV_MASK (log entry 20, DEDUCED: the rule is a parameter). -/
def Obligations.AnySurvivalPredicate : Prop :=
  (∀ (surv : List Byte → List Byte → Bool) (early : Bool) (s : State) (d a : SlotNum),
    surv [0x80, 0x80, 0x80, 0x80, 0x80, 0x80, 0x80, 0x80] [0x00, 0x80, 0x80, 0x80, 0x80, 0x80, 0x80, 0x80] = false →
    Compatible s d [a] → Answered [s.wholeSlot d, s.wholeSlot a] [] s →
    ∃ t, surviveBy surv early d a s = .next t ∧ Completed t .ok (surv (s.units d) (s.units a))
      ∧ SameBlock s t ∧ SameStorage s t
      ∧ (s.unitLength d = 8 → (∀ u, u < 8 → s.unitRead d u = 0x80) → s.unitRead a 0 = 0x00 →
          (∀ u, 0 < u → u < 8 → s.unitRead a u = 0x80) → t.status.result = false))
  ∧ (∀ (s : State) (d a : SlotNum), Issued (.hassurv d a) s →
      exec (.hassurv d a) s
        = surviveBy (survives s.cfg.survRule s.cfg.survMask) (s.failsReadably d a) d a s)

/-- R195 beside R217 (a DEDUCED reading, log entry 8): when a unit that can be read decides the check false and another
unit is refused, HASSURV completes with BUS or with false, and writes nothing but STATUS. -/
def Obligations.HassurvMayStopEarly : Prop :=
  ∀ (s : State) (d a : SlotNum), Issued (.hassurv d a) s → Compatible s d [a] →
    s.onDevice [s.wholeSlot d, s.wholeSlot a] = false → s.failsReadably d a = true →
    (s.readRefused (s.wholeSlot d) = true ∨ s.readRefused (s.wholeSlot a) = true) →
    ∃ t, exec (.hassurv d a) s = .next t ∧ (Completed t .bus false ∨ Completed t .ok false)
      ∧ SameBlock s t ∧ t.slots = s.slots ∧ t.ext = s.ext

/-! ## Whole-machine rules -/

/-- The invariant holds at reset. -/
def Obligations.InvAtReset : Prop := Inv State.reset

/-- Every step keeps the invariant: R20 to R24, R32, R34, R62, R256 and the canonical form of memory. -/
def Obligations.StepKeepsInv : Prop := ∀ s t : State, Inv s → step s = .next t → Inv t

/-- R26, R20: a command neither changes nor depends on a slot it does not name, whatever that slot holds. -/
def Obligations.UnnamedSlotsAreIsolated : Prop :=
  ∀ (i : Instr) (s : State) (k : SlotNum) (sl : Slot), k ∉ i.slots →
    exec i (s.setSlot k sl) = onNext (fun t => t.setSlot k sl) (exec i s)
    ∧ ∀ t, exec i s = .next t → t.slot k = s.slot k

/-- R61, writes: a command changes external bytes only in the buffers of BORROWED slots it names. -/
def Obligations.ExternalWritesStayInNamedBuffers : Prop :=
  ∀ (i : Instr) (s t : State), exec i s = .next t → ∀ a, Memory.read t.ext a ≠ Memory.read s.ext a →
    ∃ d ∈ i.slots, InBuffer s d a

/-- R61, reads: two external memories that agree on the named buffers give the same outcome, and every other byte stays
as it was. -/
def Obligations.ExternalReadsStayInNamedBuffers : Prop :=
  ∀ (i : Instr) (s t : State) (e : Memory),
    (∀ d ∈ i.slots, ∀ a, InBuffer s d a → Memory.read e a = Memory.read s.ext a) → exec i s = .next t →
    ∃ t', exec i { s with ext := e } = .next t' ∧ t'.status = t.status ∧ t'.slots = t.slots
      ∧ t'.draws = t.draws
      ∧ ∀ a, ((∃ d ∈ i.slots, InBuffer s d a) → Memory.read t'.ext a = Memory.read t.ext a)
          ∧ ((∀ d ∈ i.slots, ¬ InBuffer s d a) → Memory.read t'.ext a = Memory.read e a)

/-- R28: "`V[s].extFlag` is stored and reported but never interpreted". -/
def Obligations.ExtFlagIsOpaque : Prop :=
  ∀ (i : Instr) (s t : State) (k : SlotNum) (f : Byte), exec i s = .next t →
    ∃ t', exec i (s.setExtFlag k f) = .next t' ∧ t'.status = t.status ∧ t'.ext = t.ext ∧ t'.draws = t.draws
      ∧ ∀ j : SlotNum, { t'.slot j with extFlag := 0 } = { t.slot j with extFlag := 0 }

/-- R10: `LANES` has no architectural effect. -/
def Obligations.LanesHaveNoEffect : Prop :=
  ∀ (i : Instr) (s : State) (n : Nat),
    exec i { s with cfg := { s.cfg with lanes := n } }
      = onNext (fun t => { t with cfg := { t.cfg with lanes := n } }) (exec i s)

/-- R255: OPA and OPB may be written while a command is BUSY without affecting it. -/
def Obligations.OperandWritesDoNotDisturbCommand : Prop :=
  ∀ (i : Instr) (s : State) (x y : Word),
    exec i { s with opa := x, opb := y } = onNext (fun t => { t with opa := x, opb := y }) (exec i s)

/-- R44: the slots change only when a command completes, or at reset. -/
def Obligations.SlotsChangeOnlyAtCompletion : Prop :=
  ∀ s t : State, step s = .next t → t.slots ≠ s.slots →
    (s.status.busy = true ∧ t.status.busy = false ∧ t.status.done = true) ∨ ∃ rest, s.turns = .reset :: rest

/-! ## Register window -/

/-- R31, R211: the register at window offset 0x008 is STATUS: the flags in their bits, the code of the error, and 0 in
every other bit. -/
def Obligations.StatusWordLayout : Prop :=
  ∀ s : State,
    (s.register 0x008).getLsbD 0 = s.status.busy ∧ (s.register 0x008).getLsbD 1 = s.status.done
    ∧ (s.register 0x008).getLsbD 2 = s.status.result ∧ (s.register 0x008).getLsbD 3 = s.status.halted
    ∧ (s.register 0x008).getLsbD 4 = s.status.ovf ∧ (s.register 0x008).extractLsb' 5 3 = 0
    ∧ ((s.register 0x008).extractLsb' 8 4).toNat
        = (match s.status.err with
          | .ok => 0 | .oob => 1 | .lenMismatch => 2 | .alloc => 3 | .unattached => 4 | .illegal => 5
          | .range => 6 | .bus => 7 | .halted => 8)
    ∧ (s.register 0x008).extractLsb' 12 20 = 0

/-- R40, R41: CFG and MAXUNITS report the parameters; with the defaults they read 0x80002004 and 0x00000040; no step
changes them. -/
def Obligations.CfgReportsParameters : Prop :=
  (∀ s : State, s.cfg.wf = true →
    ((s.register 0x000).extractLsb' 0 5).toNat = s.cfg.nv ∧ (s.register 0x000).extractLsb' 5 3 = 0
    ∧ ((s.register 0x000).extractLsb' 8 6).toNat = s.cfg.aw ∧ (s.register 0x000).extractLsb' 14 2 = 0
    ∧ ((s.register 0x000).extractLsb' 16 2).toNat
        = (match s.cfg.survRule with | .allBoth => 0 | .allEqual => 1 | .allImplies => 2)
    ∧ (s.register 0x000).extractLsb' 18 6 = 0 ∧ (s.register 0x000).extractLsb' 24 8 = s.cfg.survMask
    ∧ (s.register 0x004).toNat = s.cfg.maxUnits)
  ∧ State.reset.register 0x000 = 0x80002004 ∧ State.reset.register 0x004 = 0x00000040
  ∧ (∀ s t : State, step s = .next t → t.register 0x000 = s.register 0x000 ∧ t.register 0x004 = s.register 0x004)

/-- R42, R39: the slot registers show the slot's fields; slots `>= NV` read 0. -/
def Obligations.SlotRegistersShowFields : Prop :=
  ∀ (s : State) (k : SlotNum),
    (k.val < s.cfg.nv →
      (s.register (0x040 + 0x10 * k.val)).extractLsb' 0 2
        = (match (s.slot k).mode with | .empty => 0 | .owned => 1 | .borrowed => 2)
      ∧ (s.register (0x040 + 0x10 * k.val)).extractLsb' 2 6 = 0
      ∧ (s.register (0x040 + 0x10 * k.val)).extractLsb' 8 8 = (s.slot k).extFlag
      ∧ (s.register (0x040 + 0x10 * k.val)).extractLsb' 16 16 = 0
      ∧ s.register (0x040 + 0x10 * k.val + 0x4) = (s.slot k).bitLength
      ∧ (s.register (0x040 + 0x10 * k.val + 0x8)).toNat = ((s.slot k).bitLength.toNat + 7) / 8
      ∧ s.register (0x040 + 0x10 * k.val + 0xC) = (s.slot k).base)
    ∧ (s.cfg.nv ≤ k.val → ∀ j, j < 16 → s.register (0x040 + 0x10 * k.val + j) = 0)

/-- R43: register-window accesses: which are defined, which are ignored, what they return, and that reads have no side
effects. That "aligned" is judged by the window offset is the model's choice (log entry 19, DEDUCED); it matters only
where `REG_BASE` is no multiple of 4. -/
def Obligations.WindowAccessRules : Prop :=
  ∀ (s : State) (off : Nat) (rest : List Turn), off < 0x140 →
    (∀ size, s.turns = .regRead (s.cfg.regBase + off) size :: rest →
      if size = 4 ∧ off % 4 = 0 then
        step s = .next { s with turns := rest, answer := .word (s.register off) }
        ∧ ((off = 0x00C ∨ off = 0x018 ∨ (0x01C ≤ off ∧ off < 0x040) ∨ 0x040 + 0x10 * s.cfg.nv ≤ off) →
            s.register off = 0)
      else ∃ bs t, step s = .next t ∧ t = { s with turns := rest, answer := .bytes bs, hostDraws := s.hostDraws + size }
        ∧ bs.length = size ∧ ∀ b ∈ bs, IsHostDraw s t b)
    ∧ (∀ size v, s.turns = .regWrite (s.cfg.regBase + off) size v :: rest →
        (size ≠ 4 ∨ off % 4 ≠ 0 ∨ (off ≠ 0x008 ∧ off ≠ 0x010 ∧ off ≠ 0x014 ∧ off ≠ 0x018)) →
        step s = .next { s with turns := rest })

/-- R38: OPA and OPB hold the last value written and are read back; the write disturbs nothing else, BUSY or not. -/
def Obligations.OperandRegistersHoldLastWrite : Prop :=
  ∀ (s : State) (v : Word) (rest : List Turn),
    (s.turns = .regWrite (s.cfg.regBase + 0x010) 4 v :: rest →
      step s = .next { s with turns := rest, opa := v } ∧ State.register { s with turns := rest, opa := v } 0x010 = v)
    ∧ (s.turns = .regWrite (s.cfg.regBase + 0x014) 4 v :: rest →
      step s = .next { s with turns := rest, opb := v } ∧ State.register { s with turns := rest, opb := v } 0x014 = v)

/-- R47: a CMD write while BUSY only sets OVF; otherwise, in a block that is not halted, it latches the word and the
operand registers and starts the command. That the command's draws begin a fresh epoch is the model's own (log entry 3,
DESIGN CHOICE). -/
def Obligations.CmdWriteAcceptsOrDrops : Prop :=
  ∀ (s : State) (w : Word) (rest : List Turn), s.turns = .regWrite (s.cfg.regBase + 0x018) 4 w :: rest →
    (s.status.busy = true → step s = .next { s with turns := rest, status := { s.status with ovf := true } })
    ∧ (s.status.busy = false → s.status.halted = false →
        step s = .next { s with
          turns := rest
          cur := { word := w, opa := s.opa, opb := s.opb, raced := [] }
          epoch := s.epoch + 1
          status := { busy := true, done := false, result := false, halted := false, ovf := s.status.ovf, err := .ok } })

/-- R36: OVF is set by a CMD write while BUSY and by nothing else, is sticky, and is cleared only by a STATUS write with
bit 4 = 1 or by reset, which do clear it; a STATUS write changes nothing else. -/
def Obligations.OvfIsSticky : Prop :=
  (∀ s t : State, step s = .next t →
    (s.status.ovf = true → t.status.ovf = true ∨ (∃ rest, s.turns = .reset :: rest)
      ∨ ∃ v rest, s.turns = .regWrite (s.cfg.regBase + 0x008) 4 v :: rest ∧ v.getLsbD 4 = true)
    ∧ (s.status.ovf = false → t.status.ovf = true →
        s.status.busy = true ∧ ∃ w rest, s.turns = .regWrite (s.cfg.regBase + 0x018) 4 w :: rest))
  ∧ (∀ (s : State) (v : Word) (rest : List Turn), s.turns = .regWrite (s.cfg.regBase + 0x008) 4 v :: rest →
      step s = .next { s with
        turns := rest, status := { s.status with ovf := if v.getLsbD 4 then false else s.status.ovf } })
  ∧ (∀ (s : State) (w : Word) (rest : List Turn), s.turns = .regWrite (s.cfg.regBase + 0x018) 4 w :: rest →
      s.status.busy = true → ∃ t, step s = .next t ∧ t.status.ovf = true)
  ∧ (∀ (s : State) (rest : List Turn), s.turns = .reset :: rest → ∃ t, step s = .next t ∧ t.status.ovf = false)

/-! ## External memory, races, reset -/

/-- R75, R60: host accesses to external memory that are no race. A write changes that one byte and nothing else, a read
answers the byte and changes nothing else; with BUSY = 0 a host write of a borrowed byte is seen by the next GETBIT of
it (zero-copy). That the host's own access finds plain memory whatever the platform's regions are is the model's choice
(log entry 26, DESIGN CHOICE). Where the model stops: an address that does not exist (log entry 14, DEDUCED), a
platform outside the rules (R12; log entry 13, DESIGN CHOICE). -/
def Obligations.HostWriteIsSeenThroughSlot : Prop :=
  (∀ (s : State) (a : Nat) (v : Byte) (rest : List Turn), s.turns = .extWrite a v :: rest →
    (a < 2 ^ s.cfg.aw → s.cfg.hostWriteVisible = true → s.racesAt a = false →
      ∃ t, step s = .next t ∧ t = { s with turns := rest, ext := t.ext }
        ∧ ∀ x, Memory.read t.ext x = if x = a then v else Memory.read s.ext x)
    ∧ (2 ^ s.cfg.aw ≤ a → step s = .fault .outsideExternalMemory)
    ∧ (a < 2 ^ s.cfg.aw → s.cfg.hostWriteVisible = false → step s = .refused .hostWriteNotVisible))
  ∧ (∀ (s : State) (a : Nat) (rest : List Turn), s.turns = .extRead a :: rest →
    (a < 2 ^ s.cfg.aw → s.racesAt a = false →
      step s = .next { s with turns := rest, answer := .bytes [Memory.read s.ext a] })
    ∧ (2 ^ s.cfg.aw ≤ a → step s = .fault .outsideExternalMemory))
  ∧ (∀ s : State, s.status.busy = false → ∀ a, s.racesAt a = false)
  ∧ (∀ (s : State) (d : SlotNum) (v : Byte) (rest : List Turn), Issued (.getbit d) s → Inv s →
    s.status.busy = false → s.cfg.hostWriteVisible = true →
    (s.slot d).mode = .borrowed → s.opa.toNat < (s.slot d).bitLength.toNat →
    Answered [{ slot := d, lo := s.opa.toNat / 8, count := 1 }] [] s →
    s.turns = .extWrite ((s.slot d).base.toNat + s.opa.toNat / 8) v :: rest →
    ∃ t r, step s = .next t ∧ exec (.getbit d) (t.accept (encode (.getbit d))) = .next r
      ∧ Completed r .ok (v.getLsbD (7 - s.opa.toNat % 8)))

/-- R74: which host accesses race, and (a): a racing read returns the byte before the command or the byte the command
writes to it (what the command would leave from the state at the read), and changes nothing but the answer and the
count of the host's draws. The model's choices (log entry 16): that a word made illegal by a slot `>= NV` still names its
other slots (DESIGN CHOICE); that after the host has itself written the byte, its reads of it answer any value
(DEDUCED); that while the command lies on addresses with read side effects the read answers the byte before the command
(DESIGN CHOICE). And log entry 26 (DESIGN CHOICE): on every platform the host's own racing read is plain and changes
nothing else, in regions with read side effects or refused to the engine too. -/
def Obligations.RacingReadSeesOldOrNew : Prop :=
  (∀ (s : State) (a : Nat), s.racesAt a = true ↔
    s.status.busy = true ∧ ∃ i, decode s.cur.word = .ok i ∧ ∃ d ∈ i.slots, d.val < s.cfg.nv ∧ InBuffer s d a)
  ∧ (∀ (s : State) (a : Nat) (rest : List Turn), s.turns = .extRead a :: rest → a < 2 ^ s.cfg.aw →
    s.racesAt a = true →
    ∃ b t, step s = .next t
      ∧ t = { s with turns := rest, answer := .bytes [b], hostDraws := s.hostDraws + 1 }
      ∧ (a ∉ s.cur.raced →
          b = Memory.read s.ext a ∨ ∃ r, runCommand t = .next r ∧ b = Memory.read r.ext a)
      ∧ (a ∈ s.cur.raced → IsHostDraw s t b))

/-- R74(b): a racing host write stores its byte and is recorded. After it, the bytes the host wrote and every receiver
unit the command writes hold draws, the result bit is free, and nothing else differs from what the command alone
leaves. The units the command writes are those of R217, none for SETBIT of the value the bit holds (R143), and for INIT
the units it zero-fills (R29, R111). The model's choices: that a word made illegal by a slot `>= NV` still names its
other slots (log entry 16, DESIGN CHOICE); that on every platform the host's own racing write just stores its byte and
changes nothing else of the machine, in regions with read side effects or refused to the engine too (log entry 26,
DESIGN CHOICE); that the write begins a fresh epoch of draws (log entry 3, DESIGN CHOICE, the model's own field). That a
command ending in an error keeps its STATUS, and writes none of them unless the error is BUS, is the model's reading
(log entry 16, DEDUCED). -/
def Obligations.RacingWriteFreesResults : Prop :=
  (∀ (s : State) (a : Nat) (v : Byte) (rest : List Turn), s.turns = .extWrite a v :: rest → a < 2 ^ s.cfg.aw →
    s.cfg.hostWriteVisible = true → s.racesAt a = true →
    ∃ t, step s = .next t
      ∧ t = { s with
          turns := rest, ext := t.ext, cur := { s.cur with raced := a :: s.cur.raced }, epoch := s.epoch + 1 }
      ∧ ∀ x, Memory.read t.ext x = if x = a then v else Memory.read s.ext x)
  ∧ (∀ (s t : State) (i : Instr) (rest : List Turn), Inv s → EngineNext s rest → s.status.busy = true →
    decode s.cur.word = .ok i → s.cur.raced ≠ [] → exec i { s with turns := rest } = .next t →
    ∃ r, step s = .next r ∧ SameBlock t r
      ∧ (∀ a ∈ s.cur.raced, IsDraw t r (Memory.read r.ext a))
      ∧ (∀ u, (raceUnits i s).lo ≤ u → u < (raceUnits i s).lo + (raceUnits i s).count →
          IsDraw t r (r.unitRead (raceUnits i s).slot u))
      ∧ (∀ a, a ∉ s.cur.raced → (∀ u, (raceUnits i s).lo ≤ u →
            u < (raceUnits i s).lo + (raceUnits i s).count → t.unitAddress (raceUnits i s).slot u ≠ some a) →
          Memory.read r.ext a = Memory.read t.ext a)
      ∧ OtherSlotsSame (raceUnits i s).slot t r ∧ SameFields (raceUnits i s).slot t r
      ∧ (∀ u, (u < (raceUnits i s).lo ∨ (raceUnits i s).lo + (raceUnits i s).count ≤ u) →
          (t.slot (raceUnits i s).slot).mode = .owned →
          r.unitRead (raceUnits i s).slot u = t.unitRead (raceUnits i s).slot u)
      ∧ r.status = { t.status with result := r.status.result }
      ∧ (Instr.hasResult i = true → t.status.err = .ok → ∃ b, IsDraw t r b ∧ r.status.result = b.getLsbD 0)
      ∧ ((Instr.hasResult i = false ∨ t.status.err ≠ .ok) → r.status = t.status)
      ∧ (t.status.err = .ok → raceUnits i s =
          match i with
          | .initpat d _ _ | .xor3 d _ _ | .xor2 d _ => s.wholeSlot d
          | .setbit d val =>
            if (s.unitRead d (s.cur.opa.toNat / 8)).getLsbD (7 - s.cur.opa.toNat % 8) = val
            then { slot := d, lo := 0, count := 0 } else { slot := d, lo := s.cur.opa.toNat / 8, count := 1 }
          | .init d => { slot := d, lo := 0, count := (s.cur.opa.toNat + 7) / 8 }
          | .attach d _ | .detach d | .getbit d | .hassurv d _ => { slot := d, lo := 0, count := 0 })
      ∧ (t.status.err ≠ .ok → t.status.err ≠ .bus → (raceUnits i s).count = 0))

/-- R250: reset while idle puts every piece of the block's state into its reset value and leaves external memory. -/
def Obligations.ResetRestoresResetState : Prop :=
  ∀ (s : State) (rest : List Turn), s.turns = .reset :: rest → s.status.busy = false →
    ∃ t, step s = .next t ∧ t.slots.length = s.cfg.nv
      ∧ (∀ k : SlotNum, (t.slot k).mode = .empty ∧ (t.slot k).bitLength = 0 ∧ (t.slot k).extFlag = 0
          ∧ (t.slot k).base = 0 ∧ t.unitLength k = 0)
      ∧ t.status.word = 0 ∧ t.opa = 0 ∧ t.opb = 0 ∧ t.ext = s.ext ∧ t.cfg = s.cfg

/-- R251: reset while BUSY abandons the command: the reset state; the external bytes it would write (the receiver units
of R217) hold draws, and so do the bytes the host raced on (the model's reading, log entry 17, DEDUCED); every other
external byte is unchanged. The draws are of a fresh epoch (log entry 3, DESIGN CHOICE), so none is a value a racing
read has looked ahead to (R15). A latched word that decodes to nothing would write none. The statement is over every
platform: that a BUSY command over addresses with read side effects, whose effects there R68 leaves outside the spec, is
reset like any other, its receiver units and raced bytes drawn and every other byte kept, is the model's choice (log
entry 17, DESIGN CHOICE, unsafe). -/
def Obligations.ResetAbandonsCommand : Prop :=
  (∀ (s : State) (i : Instr) (rest : List Turn), Inv s → s.turns = .reset :: rest → s.status.busy = true →
    decode s.cur.word = .ok i →
    ∃ t, step s = .next t ∧ t.slots = List.replicate s.cfg.nv Slot.emptied ∧ t.status.word = 0 ∧ t.opa = 0
      ∧ t.opb = 0 ∧ t.cfg = s.cfg ∧ t.epoch = s.epoch + 1
      ∧ (∀ u a, (receiverOf i s).lo ≤ u → u < (receiverOf i s).lo + (receiverOf i s).count →
          s.unitAddress (receiverOf i s).slot u = some a → IsDraw s t (Memory.read t.ext a))
      ∧ (∀ a ∈ s.cur.raced, IsDraw s t (Memory.read t.ext a))
      ∧ (∀ a, a ∉ s.cur.raced → (∀ u, (receiverOf i s).lo ≤ u →
            u < (receiverOf i s).lo + (receiverOf i s).count → s.unitAddress (receiverOf i s).slot u ≠ some a) →
          Memory.read t.ext a = Memory.read s.ext a))
  ∧ (∀ (s : State) (e : DecodeError) (rest : List Turn), s.turns = .reset :: rest → s.status.busy = true →
    decode s.cur.word = .error e →
    ∃ t, step s = .next t ∧ t.slots = List.replicate s.cfg.nv Slot.emptied ∧ t.status.word = 0 ∧ t.opa = 0
      ∧ t.opb = 0 ∧ t.cfg = s.cfg ∧ t.ext = s.ext)

/-! ## Assembler -/

/-- R99: what each assembly line writes to OPA, OPB and CMD, and that an operand that does not fit its field emits
nothing. -/
def Obligations.AssemblerEmitsTableWordsOrNothing : Prop :=
  (∀ d n : Nat, d < 16 → n < 2 ^ 32 →
    assemble (.init d n)
      = some [{ opa := some (BitVec.ofNat 32 n), opb := none, word := BitVec.ofNat 32 (0x10000000 + d * 2 ^ 24) }]
    ∧ (∀ b, b < 2 → assemble (.setbit d n b)
        = some [{ opa := some (BitVec.ofNat 32 n), opb := none, word := BitVec.ofNat 32 (0x50000000 + d * 2 ^ 24 + b) }])
    ∧ assemble (.getbit d n)
        = some [{ opa := some (BitVec.ofNat 32 n), opb := none, word := BitVec.ofNat 32 (0x60000000 + d * 2 ^ 24) }]
    ∧ (∀ pat flag, pat < 256 → flag < 256 → assemble (.initpat d pat flag)
        = some [{ opa := none, opb := none, word := BitVec.ofNat 32 (0x20000000 + d * 2 ^ 24 + pat * 2 ^ 8 + flag) }])
    ∧ (∀ addr flag, addr < 2 ^ 32 → flag < 256 → assemble (.attach d addr n flag)
        = some [{ opa := some (BitVec.ofNat 32 n), opb := some (BitVec.ofNat 32 addr),
                  word := BitVec.ofNat 32 (0x30000000 + d * 2 ^ 24 + flag) }])
    ∧ assemble (.detach d) = some [{ opa := none, opb := none, word := BitVec.ofNat 32 (0x40000000 + d * 2 ^ 24) }]
    ∧ (∀ a b, a < 16 → b < 16 → assemble (.xor3 d a b)
        = some [{ opa := none, opb := none, word := BitVec.ofNat 32 (0x70000000 + d * 2 ^ 24 + a * 2 ^ 20 + b * 2 ^ 16) }])
    ∧ (∀ a, a < 16 → assemble (.xor2 d a)
        = some [{ opa := none, opb := none, word := BitVec.ofNat 32 (0x80000000 + d * 2 ^ 24 + a * 2 ^ 20) }])
    ∧ (∀ a, a < 16 → assemble (.hassurv d a)
        = some [{ opa := none, opb := none, word := BitVec.ofNat 32 (0x90000000 + d * 2 ^ 24 + a * 2 ^ 20) }]))
  ∧ (∀ d x y z : Nat,
    (assemble (.init d x) = none ↔ 16 ≤ d ∨ 2 ^ 32 ≤ x)
    ∧ (assemble (.initpat d x y) = none ↔ 16 ≤ d ∨ 256 ≤ x ∨ 256 ≤ y)
    ∧ (assemble (.attach d x y z) = none ↔ 16 ≤ d ∨ 2 ^ 32 ≤ x ∨ 2 ^ 32 ≤ y ∨ 256 ≤ z)
    ∧ (assemble (.detach d) = none ↔ 16 ≤ d)
    ∧ (assemble (.setbit d x y) = none ↔ 16 ≤ d ∨ 2 ^ 32 ≤ x ∨ 2 ≤ y)
    ∧ (assemble (.getbit d x) = none ↔ 16 ≤ d ∨ 2 ^ 32 ≤ x)
    ∧ (assemble (.xor3 d x y) = none ↔ 16 ≤ d ∨ 16 ≤ x ∨ 16 ≤ y)
    ∧ (assemble (.xor2 d x) = none ↔ 16 ≤ d ∨ 16 ≤ x)
    ∧ (assemble (.hassurv d x) = none ↔ 16 ≤ d ∨ 16 ≤ x))

/-- R100: the pseudo-instructions expand as the table says; `zero vD` clears every unit of an attached slot, padding bits
included; and `wait` reads STATUS until DONE = 1, the engine moving between two reads (log entry 23, DESIGN CHOICE),
so that it ends after an executing command has completed (in one engine turn: log entry 6, DEDUCED). -/
def Obligations.PseudoLinesExpand : Prop :=
  (∀ d a i : Nat,
    assemble (.setbit1 d i) = assemble (.setbit d i 1) ∧ assemble (.clrbit d i) = assemble (.setbit d i 0)
    ∧ assemble (.zero d) = assemble (.xor3 d d d)
    ∧ (d < 16 → a < 16 → ∃ c1 c2, assemble (.zero d) = some [c1] ∧ assemble (.xor2 d a) = some [c2]
        ∧ assemble (.copy d a) = some [c1, c2])
    ∧ assemble .wait = some [] ∧ ∀ c, programTurns c [.wait] = some [.wait])
  ∧ (∀ (s : State) (d : SlotNum), Issued (.xor3 d d d) s → Inv s → (s.slot d).mode ≠ .empty →
      Answered [s.wholeSlot d] [s.wholeSlot d] s →
      ∃ cmd t, assemble (.zero d.val) = some [cmd] ∧ decode cmd.word = .ok (.xor3 d d d)
        ∧ exec (.xor3 d d d) s = .next t ∧ Completed t .ok false
        ∧ ∀ u, u < s.unitLength d → t.unitRead d u = 0)
  ∧ (∀ (s : State) (rest : List Turn), s.turns = .wait :: rest →
      (s.status.done = true → step s = .next { s with turns := rest, answer := .word (s.register 0x008) })
      ∧ (s.status.done = false →
          step s = .next { s with turns := .engine :: .wait :: rest, answer := .word (s.register 0x008) })
      ∧ (s.status.busy = true → s.status.done = false → (∀ r ∈ s.platform, r.kind ≠ .readSideEffects) →
          ∃ t u r, step s = .next t ∧ step t = .next u ∧ step u = .next r ∧ r.turns = rest
            ∧ r.answer = .word (u.register 0x008) ∧ (u.register 0x008).getLsbD 1 = true))
end

