-- ==== Sys2Proof/Laws/Encoding.lean ====
section
/-! SUPPORT. The fields of a packed command word, said once. -/
namespace Sys2Proof

section
variable (op d a b : BitVec 4) (h l : Byte)

@[simp] theorem packWord_op : (packWord op d a b h l).extractLsb' 28 4 = op := by
  apply BitVec.eq_of_getLsbD_eq
  intro i hi
  simp only [BitVec.getLsbD_extractLsb', packWord, BitVec.getLsbD_cast, BitVec.getLsbD_append]
  interval_cases i <;> simp

@[simp] theorem packWord_d : (packWord op d a b h l).extractLsb' 24 4 = d := by
  apply BitVec.eq_of_getLsbD_eq
  intro i hi
  simp only [BitVec.getLsbD_extractLsb', packWord, BitVec.getLsbD_cast, BitVec.getLsbD_append]
  interval_cases i <;> simp

@[simp] theorem packWord_a : (packWord op d a b h l).extractLsb' 20 4 = a := by
  apply BitVec.eq_of_getLsbD_eq
  intro i hi
  simp only [BitVec.getLsbD_extractLsb', packWord, BitVec.getLsbD_cast, BitVec.getLsbD_append]
  interval_cases i <;> simp

@[simp] theorem packWord_b : (packWord op d a b h l).extractLsb' 16 4 = b := by
  apply BitVec.eq_of_getLsbD_eq
  intro i hi
  simp only [BitVec.getLsbD_extractLsb', packWord, BitVec.getLsbD_cast, BitVec.getLsbD_append]
  interval_cases i <;> simp

@[simp] theorem packWord_h : (packWord op d a b h l).extractLsb' 8 8 = h := by
  apply BitVec.eq_of_getLsbD_eq
  intro i hi
  simp only [BitVec.getLsbD_extractLsb', packWord, BitVec.getLsbD_cast, BitVec.getLsbD_append]
  interval_cases i <;> simp

@[simp] theorem packWord_l : (packWord op d a b h l).extractLsb' 0 8 = l := by
  apply BitVec.eq_of_getLsbD_eq
  intro i hi
  simp only [BitVec.getLsbD_extractLsb', packWord, BitVec.getLsbD_cast, BitVec.getLsbD_append]
  interval_cases i <;> simp

@[simp] theorem packWord_value : (packWord op d a b h l).getLsbD 0 = l.getLsbD 0 := by
  simp only [packWord, BitVec.getLsbD_cast, BitVec.getLsbD_append]
  simp

@[simp] theorem packWord_getElem_zero : (packWord op d a b h l)[0] = l[0] := by
  rw [← BitVec.getLsbD_eq_getElem, ← BitVec.getLsbD_eq_getElem]
  exact packWord_value op d a b h l

end

/-- A word is its fields. -/
theorem packWord_fields (w : Word) :
    packWord (w.extractLsb' 28 4) (w.extractLsb' 24 4) (w.extractLsb' 20 4) (w.extractLsb' 16 4) (w.extractLsb' 8 8)
      (w.extractLsb' 0 8) = w := by
  apply BitVec.eq_of_getLsbD_eq
  intro i hi
  simp only [BitVec.getLsbD_extractLsb', packWord, BitVec.getLsbD_cast, BitVec.getLsbD_append]
  interval_cases i <;> simp

/-- Masking a word masks each field. -/
theorem packWord_and (op d a b op' d' a' b' : BitVec 4) (h l h' l' : Byte) :
    packWord op d a b h l &&& packWord op' d' a' b' h' l'
      = packWord (op &&& op') (d &&& d') (a &&& a') (b &&& b') (h &&& h') (l &&& l') := by
  apply BitVec.eq_of_getLsbD_eq
  intro i hi
  simp only [packWord, BitVec.getLsbD_and, BitVec.getLsbD_cast, BitVec.getLsbD_append]
  split_ifs <;> rfl

/-- Two words are equal exactly when all their fields are. -/
theorem packWord_inj {op d a b op' d' a' b' : BitVec 4} {h l h' l' : Byte} :
    packWord op d a b h l = packWord op' d' a' b' h' l'
      ↔ op = op' ∧ d = d' ∧ a = a' ∧ b = b' ∧ h = h' ∧ l = l' := by
  constructor
  · intro e
    refine ⟨?_, ?_, ?_, ?_, ?_, ?_⟩
    · rw [← packWord_op op d a b h l, e, packWord_op]
    · rw [← packWord_d op d a b h l, e, packWord_d]
    · rw [← packWord_a op d a b h l, e, packWord_a]
    · rw [← packWord_b op d a b h l, e, packWord_b]
    · rw [← packWord_h op d a b h l, e, packWord_h]
    · rw [← packWord_l op d a b h l, e, packWord_l]
  · rintro ⟨rfl, rfl, rfl, rfl, rfl, rfl⟩
    rfl

end Sys2Proof
end

