-- ==== Sys2Proof/Laws/Memory.lean ====
section
/-! SUPPORT. The laws of memory: read after write, the canonical form is kept, and equal reads mean equal memories. -/
namespace Sys2Proof.Machine

@[simp] theorem Memory.read_nil (a : Nat) : Memory.read [] a = unlistedByte := rfl

theorem Memory.read_insert (m : Memory) (a b : Nat) (v : Byte) :
    Memory.read (Memory.insert m a v) b = if b = a then v else Memory.read m b := by
  induction m with
  | nil => simp [Memory.insert, Memory.read, eq_comm]
  | cons c m ih =>
    simp only [Memory.insert]
    split
    · by_cases h : b = a
      · simp [Memory.read, h]
      · simp [Memory.read, h, Ne.symm h]
    · split
      · rename_i h
        subst h
        by_cases h : b = c.1
        · simp [Memory.read, h]
        · simp [Memory.read, h, Ne.symm h]
      · rename_i h1 h2
        simp only [Memory.read, ih]
        split
        · rename_i h3
          rw [if_neg (by omega)]
        · rfl

theorem Memory.read_erase (m : Memory) (a b : Nat) :
    Memory.read (m.filter (fun c => c.1 != a)) b = if b = a then unlistedByte else Memory.read m b := by
  induction m with
  | nil => simp
  | cons c m ih =>
    by_cases h : c.1 = a
    · subst h
      simp only [List.filter_cons, bne_self_eq_false, Bool.false_eq_true, if_false, ih, Memory.read]
      by_cases hb : b = c.1
      · simp [hb]
      · simp [hb, Ne.symm hb]
    · simp only [List.filter_cons, bne_iff_ne, ne_eq, h, not_false_eq_true, if_true, Memory.read, ih]
      by_cases hb : c.1 = b
      · subst hb; simp [h]
      · simp [hb]

/-- A read after a write: the value at the written address, the old byte everywhere else. -/
@[simp] theorem Memory.read_write (m : Memory) (a b : Nat) (v : Byte) :
    Memory.read (Memory.write m a v) b = if b = a then v else Memory.read m b := by
  unfold Memory.write
  split
  · rename_i h; subst h; exact Memory.read_erase m a b
  · exact Memory.read_insert m a b v

theorem Memory.mem_insert {m : Memory} {a : Nat} {v : Byte} {c : Host.Cell} (h : c ∈ Memory.insert m a v) :
    c = (a, v) ∨ c ∈ m := by
  induction m with
  | nil => simpa [Memory.insert] using h
  | cons d m ih =>
    simp only [Memory.insert] at h
    split at h
    · simpa using h
    · split at h
      · rcases List.mem_cons.1 h with h | h
        · exact .inl h
        · exact .inr (List.mem_cons_of_mem _ h)
      · rcases List.mem_cons.1 h with h | h
        · exact .inr (h ▸ List.mem_cons_self)
        · rcases ih h with h | h
          · exact .inl h
          · exact .inr (List.mem_cons_of_mem _ h)

theorem Memory.mem_write {m : Memory} {a : Nat} {v : Byte} {c : Host.Cell} (h : c ∈ Memory.write m a v) :
    c = (a, v) ∨ c ∈ m := by
  unfold Memory.write at h
  split at h
  · exact .inr (List.mem_filter.1 h).1
  · exact Memory.mem_insert h

theorem Memory.wf_cons {c : Host.Cell} {m : Memory} :
    Memory.wf (c :: m) = true ↔ c.2 ≠ unlistedByte ∧ (∀ c' ∈ m, c.1 < c'.1) ∧ Memory.wf m = true := by
  simp [Memory.wf, and_assoc]

theorem Memory.wf_filter {m : Memory} {p : Host.Cell → Bool} (h : Memory.wf m = true) :
    Memory.wf (m.filter p) = true := by
  induction m with
  | nil => exact h
  | cons c m ih =>
    obtain ⟨h1, h2, h3⟩ := Memory.wf_cons.1 h
    simp only [List.filter_cons]
    split
    · exact Memory.wf_cons.2 ⟨h1, fun c' hc => h2 c' (List.mem_filter.1 hc).1, ih h3⟩
    · exact ih h3

theorem Memory.wf_insert {m : Memory} {a : Nat} {v : Byte} (h : Memory.wf m = true) (hv : v ≠ unlistedByte) :
    Memory.wf (Memory.insert m a v) = true := by
  induction m with
  | nil => exact Memory.wf_cons.2 ⟨hv, by simp, rfl⟩
  | cons c m ih =>
    obtain ⟨h1, h2, h3⟩ := Memory.wf_cons.1 h
    simp only [Memory.insert]
    split
    · rename_i hlt
      refine Memory.wf_cons.2 ⟨hv, fun c' hc => ?_, h⟩
      rcases List.mem_cons.1 hc with rfl | hc
      · exact hlt
      · exact Nat.lt_trans hlt (h2 c' hc)
    · split
      · rename_i heq
        subst heq
        exact Memory.wf_cons.2 ⟨hv, h2, h3⟩
      · rename_i hlt hne
        refine Memory.wf_cons.2 ⟨h1, fun c' hc => ?_, ih h3⟩
        rcases Memory.mem_insert hc with rfl | hc
        · show c.1 < a
          omega
        · exact h2 c' hc

/-- A write keeps the canonical form. -/
@[simp] theorem Memory.wf_write {m : Memory} {a : Nat} {v : Byte} (h : Memory.wf m = true) :
    Memory.wf (Memory.write m a v) = true := by
  unfold Memory.write
  split
  · exact Memory.wf_filter h
  · exact Memory.wf_insert h ‹_›

theorem Memory.below_iff {m : Memory} {n : Nat} : Memory.below m n = true ↔ ∀ c ∈ m, c.1 < n := by
  simp [Memory.below]

/-- A write below a bound keeps every listed address below it. -/
theorem Memory.below_write {m : Memory} {a n : Nat} {v : Byte} (h : Memory.below m n = true) (ha : a < n) :
    Memory.below (Memory.write m a v) n = true := by
  refine Memory.below_iff.2 fun c hc => ?_
  rcases Memory.mem_write hc with rfl | hc
  · exact ha
  · exact Memory.below_iff.1 h c hc

theorem Memory.read_of_lt {m : Memory} {a : Nat} (h : ∀ c ∈ m, a < c.1) : Memory.read m a = unlistedByte := by
  induction m with
  | nil => rfl
  | cons c m ih =>
    have := h c List.mem_cons_self
    simp only [Memory.read]
    rw [if_neg (by omega)]
    exact ih fun c' hc => h c' (List.mem_cons_of_mem _ hc)

/-- An address no entry lists reads as the unlisted byte; with `below`, so does every address beyond the bound. -/
theorem Memory.read_of_not_mem {m : Memory} {a : Nat} (h : ∀ c ∈ m, c.1 ≠ a) : Memory.read m a = unlistedByte := by
  induction m with
  | nil => rfl
  | cons c m ih =>
    simp only [Memory.read]
    rw [if_neg (h c List.mem_cons_self)]
    exact ih fun c' hc => h c' (List.mem_cons_of_mem _ hc)

/-- Two memories in canonical form that read the same are equal. -/
theorem Memory.ext_of_wf {m m' : Memory} (h : Memory.wf m = true) (h' : Memory.wf m' = true)
    (he : ∀ a, Memory.read m a = Memory.read m' a) : m = m' := by
  induction m generalizing m' with
  | nil =>
    cases m' with
    | nil => rfl
    | cons c m' =>
      obtain ⟨h1, -, -⟩ := Memory.wf_cons.1 h'
      have := he c.1
      simp [Memory.read] at this
      exact absurd this.symm h1
  | cons c m ih =>
    obtain ⟨h1, h2, h3⟩ := Memory.wf_cons.1 h
    cases m' with
    | nil =>
      have := he c.1
      simp [Memory.read] at this
      exact absurd this h1
    | cons c' m' =>
      obtain ⟨h1', h2', h3'⟩ := Memory.wf_cons.1 h'
      have hkey : c.1 = c'.1 := by
        rcases Nat.lt_trichotomy c.1 c'.1 with hlt | heq | hgt
        · have hr := he c.1
          rw [Memory.read_of_lt (m := c' :: m')] at hr
          · simp [Memory.read] at hr
            exact absurd hr h1
          · intro x hx
            rcases List.mem_cons.1 hx with rfl | hx
            · exact hlt
            · exact Nat.lt_trans hlt (h2' x hx)
        · exact heq
        · have hr := he c'.1
          rw [Memory.read_of_lt (m := c :: m)] at hr
          · simp [Memory.read] at hr
            exact absurd hr.symm h1'
          · intro x hx
            rcases List.mem_cons.1 hx with rfl | hx
            · exact hgt
            · exact Nat.lt_trans hgt (h2 x hx)
      have hval : c.2 = c'.2 := by
        have hr := he c.1
        simpa [Memory.read, hkey] using hr
      have hc : c = c' := Prod.ext hkey hval
      subst hc
      refine congrArg (c :: ·) (ih h3 h3' fun a => ?_)
      have hr := he a
      by_cases ha : c.1 = a
      · subst ha
        rw [Memory.read_of_lt h2, Memory.read_of_lt h2']
      · simpa [Memory.read, ha] using hr

end Sys2Proof.Machine
end

