-- ==== Sys2Proof/Laws/State.lean ====
section
/-! SUPPORT. One lemma per field per update of State, and what the slot accessors read after each. -/
namespace Sys2Proof.Machine

variable (s : State)

@[simp] theorem setSlot_cfg (d : SlotNum) (sl : Slot) : (s.setSlot d sl).cfg = s.cfg := rfl
@[simp] theorem setSlot_slots (d : SlotNum) (sl : Slot) : (s.setSlot d sl).slots = s.slots.set d.val sl := rfl
@[simp] theorem setSlot_status (d : SlotNum) (sl : Slot) : (s.setSlot d sl).status = s.status := rfl
@[simp] theorem setSlot_opa (d : SlotNum) (sl : Slot) : (s.setSlot d sl).opa = s.opa := rfl
@[simp] theorem setSlot_opb (d : SlotNum) (sl : Slot) : (s.setSlot d sl).opb = s.opb := rfl
@[simp] theorem setSlot_cur (d : SlotNum) (sl : Slot) : (s.setSlot d sl).cur = s.cur := rfl
@[simp] theorem setSlot_ext (d : SlotNum) (sl : Slot) : (s.setSlot d sl).ext = s.ext := rfl
@[simp] theorem setSlot_draws (d : SlotNum) (sl : Slot) : (s.setSlot d sl).draws = s.draws := rfl
@[simp] theorem setSlot_epoch (d : SlotNum) (sl : Slot) : (s.setSlot d sl).epoch = s.epoch := rfl
@[simp] theorem setSlot_hostDraws (d : SlotNum) (sl : Slot) : (s.setSlot d sl).hostDraws = s.hostDraws := rfl
@[simp] theorem setSlot_platform (d : SlotNum) (sl : Slot) : (s.setSlot d sl).platform = s.platform := rfl
@[simp] theorem setSlot_turns (d : SlotNum) (sl : Slot) : (s.setSlot d sl).turns = s.turns := rfl
@[simp] theorem setSlot_answer (d : SlotNum) (sl : Slot) : (s.setSlot d sl).answer = s.answer := rfl

@[simp] theorem tick_cfg (n : Nat) : (s.tick n).cfg = s.cfg := rfl
@[simp] theorem tick_slots (n : Nat) : (s.tick n).slots = s.slots := rfl
@[simp] theorem tick_status (n : Nat) : (s.tick n).status = s.status := rfl
@[simp] theorem tick_opa (n : Nat) : (s.tick n).opa = s.opa := rfl
@[simp] theorem tick_opb (n : Nat) : (s.tick n).opb = s.opb := rfl
@[simp] theorem tick_cur (n : Nat) : (s.tick n).cur = s.cur := rfl
@[simp] theorem tick_ext (n : Nat) : (s.tick n).ext = s.ext := rfl
@[simp] theorem tick_draws (n : Nat) : (s.tick n).draws = s.draws + n := rfl
@[simp] theorem tick_epoch (n : Nat) : (s.tick n).epoch = s.epoch := rfl
@[simp] theorem tick_hostDraws (n : Nat) : (s.tick n).hostDraws = s.hostDraws := rfl
@[simp] theorem tick_platform (n : Nat) : (s.tick n).platform = s.platform := rfl
@[simp] theorem tick_turns (n : Nat) : (s.tick n).turns = s.turns := rfl
@[simp] theorem tick_answer (n : Nat) : (s.tick n).answer = s.answer := rfl

@[simp] theorem hostTick_cfg (n : Nat) : (s.hostTick n).cfg = s.cfg := rfl
@[simp] theorem hostTick_slots (n : Nat) : (s.hostTick n).slots = s.slots := rfl
@[simp] theorem hostTick_status (n : Nat) : (s.hostTick n).status = s.status := rfl
@[simp] theorem hostTick_opa (n : Nat) : (s.hostTick n).opa = s.opa := rfl
@[simp] theorem hostTick_opb (n : Nat) : (s.hostTick n).opb = s.opb := rfl
@[simp] theorem hostTick_cur (n : Nat) : (s.hostTick n).cur = s.cur := rfl
@[simp] theorem hostTick_ext (n : Nat) : (s.hostTick n).ext = s.ext := rfl
@[simp] theorem hostTick_draws (n : Nat) : (s.hostTick n).draws = s.draws := rfl
@[simp] theorem hostTick_epoch (n : Nat) : (s.hostTick n).epoch = s.epoch := rfl
@[simp] theorem hostTick_hostDraws (n : Nat) : (s.hostTick n).hostDraws = s.hostDraws + n := rfl
@[simp] theorem hostTick_platform (n : Nat) : (s.hostTick n).platform = s.platform := rfl
@[simp] theorem hostTick_turns (n : Nat) : (s.hostTick n).turns = s.turns := rfl
@[simp] theorem hostTick_answer (n : Nat) : (s.hostTick n).answer = s.answer := rfl

@[simp] theorem drawFrom_cfg (n : Nat) : (s.drawFrom n).cfg = s.cfg := rfl
@[simp] theorem drawFrom_slots (n : Nat) : (s.drawFrom n).slots = s.slots := rfl
@[simp] theorem drawFrom_status (n : Nat) : (s.drawFrom n).status = s.status := rfl
@[simp] theorem drawFrom_opa (n : Nat) : (s.drawFrom n).opa = s.opa := rfl
@[simp] theorem drawFrom_opb (n : Nat) : (s.drawFrom n).opb = s.opb := rfl
@[simp] theorem drawFrom_cur (n : Nat) : (s.drawFrom n).cur = s.cur := rfl
@[simp] theorem drawFrom_ext (n : Nat) : (s.drawFrom n).ext = s.ext := rfl
@[simp] theorem drawFrom_epoch (n : Nat) : (s.drawFrom n).epoch = s.epoch := rfl
@[simp] theorem drawFrom_draws (n : Nat) : (s.drawFrom n).draws = n := rfl
@[simp] theorem drawFrom_hostDraws (n : Nat) : (s.drawFrom n).hostDraws = s.hostDraws := rfl
@[simp] theorem drawFrom_platform (n : Nat) : (s.drawFrom n).platform = s.platform := rfl
@[simp] theorem drawFrom_turns (n : Nat) : (s.drawFrom n).turns = s.turns := rfl
@[simp] theorem drawFrom_answer (n : Nat) : (s.drawFrom n).answer = s.answer := rfl

@[simp] theorem redraw_cfg : s.redraw.cfg = s.cfg := rfl
@[simp] theorem redraw_slots : s.redraw.slots = s.slots := rfl
@[simp] theorem redraw_status : s.redraw.status = s.status := rfl
@[simp] theorem redraw_opa : s.redraw.opa = s.opa := rfl
@[simp] theorem redraw_opb : s.redraw.opb = s.opb := rfl
@[simp] theorem redraw_cur : s.redraw.cur = s.cur := rfl
@[simp] theorem redraw_ext : s.redraw.ext = s.ext := rfl
@[simp] theorem redraw_epoch : s.redraw.epoch = s.epoch + 1 := rfl
@[simp] theorem redraw_draws : s.redraw.draws = s.draws := rfl
@[simp] theorem redraw_hostDraws : s.redraw.hostDraws = s.hostDraws := rfl
@[simp] theorem redraw_platform : s.redraw.platform = s.platform := rfl
@[simp] theorem redraw_turns : s.redraw.turns = s.turns := rfl
@[simp] theorem redraw_answer : s.redraw.answer = s.answer := rfl

@[simp] theorem complete_cfg (e : ErrCode) (r : Bool) : (complete e r s).cfg = s.cfg := rfl
@[simp] theorem complete_slots (e : ErrCode) (r : Bool) : (complete e r s).slots = s.slots := rfl
@[simp] theorem complete_status (e : ErrCode) (r : Bool) : (complete e r s).status = s.status.completed e r := rfl
@[simp] theorem complete_opa (e : ErrCode) (r : Bool) : (complete e r s).opa = s.opa := rfl
@[simp] theorem complete_opb (e : ErrCode) (r : Bool) : (complete e r s).opb = s.opb := rfl
@[simp] theorem complete_cur (e : ErrCode) (r : Bool) : (complete e r s).cur = s.cur := rfl
@[simp] theorem complete_ext (e : ErrCode) (r : Bool) : (complete e r s).ext = s.ext := rfl
@[simp] theorem complete_draws (e : ErrCode) (r : Bool) : (complete e r s).draws = s.draws := rfl
@[simp] theorem complete_epoch (e : ErrCode) (r : Bool) : (complete e r s).epoch = s.epoch := rfl
@[simp] theorem complete_hostDraws (e : ErrCode) (r : Bool) : (complete e r s).hostDraws = s.hostDraws := rfl
@[simp] theorem complete_platform (e : ErrCode) (r : Bool) : (complete e r s).platform = s.platform := rfl
@[simp] theorem complete_turns (e : ErrCode) (r : Bool) : (complete e r s).turns = s.turns := rfl
@[simp] theorem complete_answer (e : ErrCode) (r : Bool) : (complete e r s).answer = s.answer := rfl

@[simp] theorem accept_cfg (w : Word) : (s.accept w).cfg = s.cfg := rfl
@[simp] theorem accept_slots (w : Word) : (s.accept w).slots = s.slots := rfl
@[simp] theorem accept_status (w : Word) : (s.accept w).status = s.status.accepted := rfl
@[simp] theorem accept_opa (w : Word) : (s.accept w).opa = s.opa := rfl
@[simp] theorem accept_opb (w : Word) : (s.accept w).opb = s.opb := rfl
@[simp] theorem accept_cur (w : Word) : (s.accept w).cur = { word := w, opa := s.opa, opb := s.opb, raced := [] } := rfl
@[simp] theorem accept_ext (w : Word) : (s.accept w).ext = s.ext := rfl
@[simp] theorem accept_draws (w : Word) : (s.accept w).draws = s.draws := rfl
@[simp] theorem accept_epoch (w : Word) : (s.accept w).epoch = s.epoch + 1 := rfl
@[simp] theorem accept_hostDraws (w : Word) : (s.accept w).hostDraws = s.hostDraws := rfl
@[simp] theorem accept_platform (w : Word) : (s.accept w).platform = s.platform := rfl
@[simp] theorem accept_turns (w : Word) : (s.accept w).turns = s.turns := rfl
@[simp] theorem accept_answer (w : Word) : (s.accept w).answer = s.answer := rfl

@[simp] theorem setExtFlag_cfg (d : SlotNum) (f : Byte) : (s.setExtFlag d f).cfg = s.cfg := rfl
@[simp] theorem setExtFlag_slots (d : SlotNum) (f : Byte) : (s.setExtFlag d f).slots = s.slots.set d.val { s.slot d with extFlag := f } := rfl
@[simp] theorem setExtFlag_status (d : SlotNum) (f : Byte) : (s.setExtFlag d f).status = s.status := rfl
@[simp] theorem setExtFlag_opa (d : SlotNum) (f : Byte) : (s.setExtFlag d f).opa = s.opa := rfl
@[simp] theorem setExtFlag_opb (d : SlotNum) (f : Byte) : (s.setExtFlag d f).opb = s.opb := rfl
@[simp] theorem setExtFlag_cur (d : SlotNum) (f : Byte) : (s.setExtFlag d f).cur = s.cur := rfl
@[simp] theorem setExtFlag_ext (d : SlotNum) (f : Byte) : (s.setExtFlag d f).ext = s.ext := rfl
@[simp] theorem setExtFlag_draws (d : SlotNum) (f : Byte) : (s.setExtFlag d f).draws = s.draws := rfl
@[simp] theorem setExtFlag_epoch (d : SlotNum) (f : Byte) : (s.setExtFlag d f).epoch = s.epoch := rfl
@[simp] theorem setExtFlag_hostDraws (d : SlotNum) (f : Byte) : (s.setExtFlag d f).hostDraws = s.hostDraws := rfl
@[simp] theorem setExtFlag_platform (d : SlotNum) (f : Byte) : (s.setExtFlag d f).platform = s.platform := rfl
@[simp] theorem setExtFlag_turns (d : SlotNum) (f : Byte) : (s.setExtFlag d f).turns = s.turns := rfl
@[simp] theorem setExtFlag_answer (d : SlotNum) (f : Byte) : (s.setExtFlag d f).answer = s.answer := rfl

/-! ## Status -/

variable (f : Status) (e : ErrCode) (r : Bool)

@[simp] theorem completed_busy : (f.completed e r).busy = false := rfl
@[simp] theorem completed_done : (f.completed e r).done = true := rfl
@[simp] theorem completed_result : (f.completed e r).result = (r && e == .ok) := rfl
@[simp] theorem completed_err : (f.completed e r).err = e := rfl
@[simp] theorem completed_halted : (f.completed e r).halted = f.halted := rfl
@[simp] theorem completed_ovf : (f.completed e r).ovf = f.ovf := rfl
@[simp] theorem accepted_busy : f.accepted.busy = true := rfl
@[simp] theorem accepted_done : f.accepted.done = false := rfl
@[simp] theorem accepted_result : f.accepted.result = false := rfl
@[simp] theorem accepted_err : f.accepted.err = .ok := rfl
@[simp] theorem accepted_halted : f.accepted.halted = f.halted := rfl
@[simp] theorem accepted_ovf : f.accepted.ovf = f.ovf := rfl
@[simp] theorem halting_halted : f.halting.halted = true := rfl
@[simp] theorem halting_ovf : f.halting.ovf = f.ovf := rfl

/-! ## Slots -/

/-- The slot accessor reads `slots` alone. -/
theorem slot_congr {t : State} (h : t.slots = s.slots) (k : SlotNum) : t.slot k = s.slot k := by
  unfold State.slot; rw [h]

@[simp] theorem tick_slot (n : Nat) (k : SlotNum) : (s.tick n).slot k = s.slot k := rfl
@[simp] theorem drawFrom_slot (n : Nat) (k : SlotNum) : (s.drawFrom n).slot k = s.slot k := rfl
@[simp] theorem redraw_slot (k : SlotNum) : s.redraw.slot k = s.slot k := rfl
@[simp] theorem complete_slot (k : SlotNum) : (complete e r s).slot k = s.slot k := rfl
@[simp] theorem accept_slot (w : Word) (k : SlotNum) : (s.accept w).slot k = s.slot k := rfl
@[simp] theorem tick_unitRead (n : Nat) (k : SlotNum) (u : Nat) : (s.tick n).unitRead k u = s.unitRead k u := rfl
@[simp] theorem drawFrom_unitRead (n : Nat) (k : SlotNum) (u : Nat) : (s.drawFrom n).unitRead k u = s.unitRead k u := rfl
@[simp] theorem drawFrom_unitLength (n : Nat) (k : SlotNum) : (s.drawFrom n).unitLength k = s.unitLength k := rfl
@[simp] theorem drawFrom_unitAddress (n : Nat) (k : SlotNum) (u : Nat) :
    (s.drawFrom n).unitAddress k u = s.unitAddress k u := rfl
@[simp] theorem redraw_unitRead (k : SlotNum) (u : Nat) : s.redraw.unitRead k u = s.unitRead k u := rfl
@[simp] theorem redraw_unitLength (k : SlotNum) : s.redraw.unitLength k = s.unitLength k := rfl
@[simp] theorem redraw_unitAddress (k : SlotNum) (u : Nat) : s.redraw.unitAddress k u = s.unitAddress k u := rfl
@[simp] theorem complete_unitRead (k : SlotNum) (u : Nat) : (complete e r s).unitRead k u = s.unitRead k u := rfl
@[simp] theorem complete_unitLength (k : SlotNum) : (complete e r s).unitLength k = s.unitLength k := rfl
@[simp] theorem tick_unitLength (n : Nat) (k : SlotNum) : (s.tick n).unitLength k = s.unitLength k := rfl

/-- A written slot reads back; every other slot reads as before. -/
theorem slot_setSlot {s : State} {d : SlotNum} (h : d.val < s.slots.length) (sl : Slot) (k : SlotNum) :
    (s.setSlot d sl).slot k = if k = d then sl else s.slot k := by
  unfold State.slot State.setSlot
  by_cases hk : k = d
  · subst hk; simp [h]
  · have : d.val ≠ k.val := fun e => hk (Fin.ext e.symm)
    simp [hk, this]

theorem slot_setSlot_of_ne {s : State} {d k : SlotNum} (hk : k ≠ d) (sl : Slot) :
    (s.setSlot d sl).slot k = s.slot k := by
  unfold State.slot State.setSlot
  have : d.val ≠ k.val := fun e => hk (Fin.ext e.symm)
  simp [this]

/-- Beyond the slots of the block a write is lost, and reads give the EMPTY slot. -/
theorem setSlot_of_le {s : State} {d : SlotNum} (h : s.slots.length ≤ d.val) (sl : Slot) : s.setSlot d sl = s := by
  unfold State.setSlot
  rw [List.set_eq_of_length_le h]

theorem slot_of_le {s : State} {d : SlotNum} (h : s.slots.length ≤ d.val) : s.slot d = Slot.emptied := by
  unfold State.slot
  simp [h]

/-- A slot that is not EMPTY is one of the block's. -/
theorem lt_of_attached {s : State} {d : SlotNum} (h : (s.slot d).mode ≠ .empty) : d.val < s.slots.length := by
  by_contra hn
  rw [slot_of_le (Nat.le_of_not_lt hn)] at h
  exact h rfl

theorem slot_mem {s : State} {d : SlotNum} (h : d.val < s.slots.length) : s.slot d ∈ s.slots := by
  unfold State.slot
  simp [h]

/-- A write of the extension flag of an attached slot; without effect on every other field and slot. -/
theorem slot_setExtFlag {s : State} {d : SlotNum} (h : d.val < s.slots.length) (g : Byte) (k : SlotNum) :
    (s.setExtFlag d g).slot k = if k = d then { s.slot d with extFlag := g } else s.slot k :=
  slot_setSlot h _ k

theorem slot_setExtFlag_fields (s : State) (d : SlotNum) (g : Byte) (k : SlotNum) :
    ((s.setExtFlag d g).slot k).mode = (s.slot k).mode ∧ ((s.setExtFlag d g).slot k).bitLength = (s.slot k).bitLength
      ∧ ((s.setExtFlag d g).slot k).base = (s.slot k).base ∧ ((s.setExtFlag d g).slot k).own = (s.slot k).own := by
  by_cases h : d.val < s.slots.length
  · rw [slot_setExtFlag h]
    split
    · rename_i hk; subst hk; exact ⟨rfl, rfl, rfl, rfl⟩
    · exact ⟨rfl, rfl, rfl, rfl⟩
  · unfold State.setExtFlag
    rw [setSlot_of_le (Nat.le_of_not_lt h)]
    exact ⟨rfl, rfl, rfl, rfl⟩

@[simp] theorem setExtFlag_mode (d : SlotNum) (g : Byte) (k : SlotNum) :
    ((s.setExtFlag d g).slot k).mode = (s.slot k).mode := (slot_setExtFlag_fields s d g k).1
@[simp] theorem setExtFlag_bitLength (d : SlotNum) (g : Byte) (k : SlotNum) :
    ((s.setExtFlag d g).slot k).bitLength = (s.slot k).bitLength := (slot_setExtFlag_fields s d g k).2.1
@[simp] theorem setExtFlag_base (d : SlotNum) (g : Byte) (k : SlotNum) :
    ((s.setExtFlag d g).slot k).base = (s.slot k).base := (slot_setExtFlag_fields s d g k).2.2.1
@[simp] theorem setExtFlag_own (d : SlotNum) (g : Byte) (k : SlotNum) :
    ((s.setExtFlag d g).slot k).own = (s.slot k).own := (slot_setExtFlag_fields s d g k).2.2.2
@[simp] theorem setExtFlag_unitLength (d : SlotNum) (g : Byte) (k : SlotNum) :
    (s.setExtFlag d g).unitLength k = s.unitLength k := by simp [State.unitLength, Slot.unitLength]
@[simp] theorem setExtFlag_unitRead (d : SlotNum) (g : Byte) (k : SlotNum) (u : Nat) :
    (s.setExtFlag d g).unitRead k u = s.unitRead k u := by simp [State.unitRead]

theorem setSlot_setSlot (s : State) (d : SlotNum) (sl sl' : Slot) : (s.setSlot d sl).setSlot d sl' = s.setSlot d sl' := by
  simp [State.setSlot]

theorem setSlot_comm (s : State) {d k : SlotNum} (h : k ≠ d) (sl sl' : Slot) :
    (s.setSlot k sl).setSlot d sl' = (s.setSlot d sl').setSlot k sl := by
  have : k.val ≠ d.val := fun e => h (Fin.ext e)
  simp [State.setSlot, List.set_comm sl sl' this]

theorem setSlot_self {s : State} {d : SlotNum} : s.setSlot d (s.slot d) = s := by
  by_cases h : d.val < s.slots.length
  · unfold State.setSlot State.slot
    simp [h]
  · exact setSlot_of_le (Nat.le_of_not_lt h) _

end Sys2Proof.Machine
end

