-- ==== Sys2Proof/Laws/Units.lean ====
section
/-! SUPPORT. What writing units of a slot, and drawing them, can do: the frame and the values, said once. -/
namespace Sys2Proof.Machine

/-! ## Fields that no unit write touches -/

@[simp] theorem unitWrite_cfg (s : State) (d : SlotNum) (u : Nat) (v : Byte) : (s.unitWrite d u v).cfg = s.cfg := by
  unfold State.unitWrite; split <;> rfl

@[simp] theorem unitWrite_status (s : State) (d : SlotNum) (u : Nat) (v : Byte) : (s.unitWrite d u v).status = s.status := by
  unfold State.unitWrite; split <;> rfl

@[simp] theorem unitWrite_opa (s : State) (d : SlotNum) (u : Nat) (v : Byte) : (s.unitWrite d u v).opa = s.opa := by
  unfold State.unitWrite; split <;> rfl

@[simp] theorem unitWrite_opb (s : State) (d : SlotNum) (u : Nat) (v : Byte) : (s.unitWrite d u v).opb = s.opb := by
  unfold State.unitWrite; split <;> rfl

@[simp] theorem unitWrite_cur (s : State) (d : SlotNum) (u : Nat) (v : Byte) : (s.unitWrite d u v).cur = s.cur := by
  unfold State.unitWrite; split <;> rfl

@[simp] theorem unitWrite_draws (s : State) (d : SlotNum) (u : Nat) (v : Byte) : (s.unitWrite d u v).draws = s.draws := by
  unfold State.unitWrite; split <;> rfl

@[simp] theorem unitWrite_epoch (s : State) (d : SlotNum) (u : Nat) (v : Byte) : (s.unitWrite d u v).epoch = s.epoch := by
  unfold State.unitWrite; split <;> rfl

@[simp] theorem unitWrite_hostDraws (s : State) (d : SlotNum) (u : Nat) (v : Byte) : (s.unitWrite d u v).hostDraws = s.hostDraws := by
  unfold State.unitWrite; split <;> rfl

@[simp] theorem unitWrite_platform (s : State) (d : SlotNum) (u : Nat) (v : Byte) : (s.unitWrite d u v).platform = s.platform := by
  unfold State.unitWrite; split <;> rfl

@[simp] theorem unitWrite_turns (s : State) (d : SlotNum) (u : Nat) (v : Byte) : (s.unitWrite d u v).turns = s.turns := by
  unfold State.unitWrite; split <;> rfl

@[simp] theorem unitWrite_answer (s : State) (d : SlotNum) (u : Nat) (v : Byte) : (s.unitWrite d u v).answer = s.answer := by
  unfold State.unitWrite; split <;> rfl

@[simp] theorem writeUnits_cfg (s : State) (d : SlotNum) (lo : Nat) (vs : List Byte) :
    (s.writeUnits d lo vs).cfg = s.cfg := by
  induction vs generalizing s lo with
  | nil => rfl
  | cons v vs ih => simp [State.writeUnits, ih]

@[simp] theorem writeUnits_status (s : State) (d : SlotNum) (lo : Nat) (vs : List Byte) :
    (s.writeUnits d lo vs).status = s.status := by
  induction vs generalizing s lo with
  | nil => rfl
  | cons v vs ih => simp [State.writeUnits, ih]

@[simp] theorem writeUnits_opa (s : State) (d : SlotNum) (lo : Nat) (vs : List Byte) :
    (s.writeUnits d lo vs).opa = s.opa := by
  induction vs generalizing s lo with
  | nil => rfl
  | cons v vs ih => simp [State.writeUnits, ih]

@[simp] theorem writeUnits_opb (s : State) (d : SlotNum) (lo : Nat) (vs : List Byte) :
    (s.writeUnits d lo vs).opb = s.opb := by
  induction vs generalizing s lo with
  | nil => rfl
  | cons v vs ih => simp [State.writeUnits, ih]

@[simp] theorem writeUnits_cur (s : State) (d : SlotNum) (lo : Nat) (vs : List Byte) :
    (s.writeUnits d lo vs).cur = s.cur := by
  induction vs generalizing s lo with
  | nil => rfl
  | cons v vs ih => simp [State.writeUnits, ih]

@[simp] theorem writeUnits_draws (s : State) (d : SlotNum) (lo : Nat) (vs : List Byte) :
    (s.writeUnits d lo vs).draws = s.draws := by
  induction vs generalizing s lo with
  | nil => rfl
  | cons v vs ih => simp [State.writeUnits, ih]

@[simp] theorem writeUnits_epoch (s : State) (d : SlotNum) (lo : Nat) (vs : List Byte) :
    (s.writeUnits d lo vs).epoch = s.epoch := by
  induction vs generalizing s lo with
  | nil => rfl
  | cons v vs ih => simp [State.writeUnits, ih]

@[simp] theorem writeUnits_hostDraws (s : State) (d : SlotNum) (lo : Nat) (vs : List Byte) :
    (s.writeUnits d lo vs).hostDraws = s.hostDraws := by
  induction vs generalizing s lo with
  | nil => rfl
  | cons v vs ih => simp [State.writeUnits, ih]

@[simp] theorem writeUnits_platform (s : State) (d : SlotNum) (lo : Nat) (vs : List Byte) :
    (s.writeUnits d lo vs).platform = s.platform := by
  induction vs generalizing s lo with
  | nil => rfl
  | cons v vs ih => simp [State.writeUnits, ih]

@[simp] theorem writeUnits_turns (s : State) (d : SlotNum) (lo : Nat) (vs : List Byte) :
    (s.writeUnits d lo vs).turns = s.turns := by
  induction vs generalizing s lo with
  | nil => rfl
  | cons v vs ih => simp [State.writeUnits, ih]

@[simp] theorem writeUnits_answer (s : State) (d : SlotNum) (lo : Nat) (vs : List Byte) :
    (s.writeUnits d lo vs).answer = s.answer := by
  induction vs generalizing s lo with
  | nil => rfl
  | cons v vs ih => simp [State.writeUnits, ih]

@[simp] theorem scramble_cfg (s : State) (sp : Span) : (s.scramble sp).cfg = s.cfg := by simp [State.scramble]

@[simp] theorem scramble_status (s : State) (sp : Span) : (s.scramble sp).status = s.status := by simp [State.scramble]

@[simp] theorem scramble_opa (s : State) (sp : Span) : (s.scramble sp).opa = s.opa := by simp [State.scramble]

@[simp] theorem scramble_opb (s : State) (sp : Span) : (s.scramble sp).opb = s.opb := by simp [State.scramble]

@[simp] theorem scramble_cur (s : State) (sp : Span) : (s.scramble sp).cur = s.cur := by simp [State.scramble]

@[simp] theorem scramble_epoch (s : State) (sp : Span) : (s.scramble sp).epoch = s.epoch := by simp [State.scramble]

@[simp] theorem scramble_hostDraws (s : State) (sp : Span) : (s.scramble sp).hostDraws = s.hostDraws := by simp [State.scramble]

@[simp] theorem scramble_platform (s : State) (sp : Span) : (s.scramble sp).platform = s.platform := by simp [State.scramble]

@[simp] theorem scramble_turns (s : State) (sp : Span) : (s.scramble sp).turns = s.turns := by simp [State.scramble]

@[simp] theorem scramble_answer (s : State) (sp : Span) : (s.scramble sp).answer = s.answer := by simp [State.scramble]

@[simp] theorem scrambleExt_cfg (s : State) (as : List Nat) : (s.scrambleExt as).cfg = s.cfg := by
  induction as generalizing s with
  | nil => rfl
  | cons a as ih => simp [State.scrambleExt, ih]

@[simp] theorem scrambleExt_status (s : State) (as : List Nat) : (s.scrambleExt as).status = s.status := by
  induction as generalizing s with
  | nil => rfl
  | cons a as ih => simp [State.scrambleExt, ih]

@[simp] theorem scrambleExt_opa (s : State) (as : List Nat) : (s.scrambleExt as).opa = s.opa := by
  induction as generalizing s with
  | nil => rfl
  | cons a as ih => simp [State.scrambleExt, ih]

@[simp] theorem scrambleExt_opb (s : State) (as : List Nat) : (s.scrambleExt as).opb = s.opb := by
  induction as generalizing s with
  | nil => rfl
  | cons a as ih => simp [State.scrambleExt, ih]

@[simp] theorem scrambleExt_cur (s : State) (as : List Nat) : (s.scrambleExt as).cur = s.cur := by
  induction as generalizing s with
  | nil => rfl
  | cons a as ih => simp [State.scrambleExt, ih]

@[simp] theorem scrambleExt_epoch (s : State) (as : List Nat) : (s.scrambleExt as).epoch = s.epoch := by
  induction as generalizing s with
  | nil => rfl
  | cons a as ih => simp [State.scrambleExt, ih]

@[simp] theorem scrambleExt_hostDraws (s : State) (as : List Nat) : (s.scrambleExt as).hostDraws = s.hostDraws := by
  induction as generalizing s with
  | nil => rfl
  | cons a as ih => simp [State.scrambleExt, ih]

@[simp] theorem scrambleExt_platform (s : State) (as : List Nat) : (s.scrambleExt as).platform = s.platform := by
  induction as generalizing s with
  | nil => rfl
  | cons a as ih => simp [State.scrambleExt, ih]

@[simp] theorem scrambleExt_turns (s : State) (as : List Nat) : (s.scrambleExt as).turns = s.turns := by
  induction as generalizing s with
  | nil => rfl
  | cons a as ih => simp [State.scrambleExt, ih]

@[simp] theorem scrambleExt_answer (s : State) (as : List Nat) : (s.scrambleExt as).answer = s.answer := by
  induction as generalizing s with
  | nil => rfl
  | cons a as ih => simp [State.scrambleExt, ih]

@[simp] theorem scrambleExt_slots (s : State) (as : List Nat) : (s.scrambleExt as).slots = s.slots := by
  induction as generalizing s with
  | nil => rfl
  | cons a as ih => simp [State.scrambleExt, ih]

@[simp] theorem scramble_draws (s : State) (sp : Span) : (s.scramble sp).draws = s.draws + sp.count := by
  simp [State.scramble]

theorem scrambleExt_draws (s : State) (as : List Nat) : (s.scrambleExt as).draws = s.draws + as.length := by
  induction as generalizing s with
  | nil => rfl
  | cons a as ih => simp [State.scrambleExt, ih]; omega

/-! ## One unit -/

/-- What a unit write does to the slots: the owned bytes of its own slot, nothing else. -/
theorem unitWrite_slot (s : State) (d : SlotNum) (u : Nat) (v : Byte) (k : SlotNum) :
    (s.unitWrite d u v).slot k =
      if k = d ∧ (s.slot d).mode = .owned then { s.slot d with own := Memory.write (s.slot d).own u v } else s.slot k := by
  unfold State.unitWrite
  cases hm : (s.slot d).mode with
  | empty => simp
  | owned =>
    have hlt := lt_of_attached (s := s) (d := d) (by simp [hm])
    simp [slot_setSlot hlt]
  | borrowed => simp [State.slot]

@[simp] theorem unitWrite_mode (s : State) (d : SlotNum) (u : Nat) (v : Byte) (k : SlotNum) :
    ((s.unitWrite d u v).slot k).mode = (s.slot k).mode := by
  rw [unitWrite_slot]; split
  · rename_i h; rw [h.1]
  · rfl

@[simp] theorem unitWrite_bitLength (s : State) (d : SlotNum) (u : Nat) (v : Byte) (k : SlotNum) :
    ((s.unitWrite d u v).slot k).bitLength = (s.slot k).bitLength := by
  rw [unitWrite_slot]; split
  · rename_i h; rw [h.1]
  · rfl

@[simp] theorem unitWrite_extFlag (s : State) (d : SlotNum) (u : Nat) (v : Byte) (k : SlotNum) :
    ((s.unitWrite d u v).slot k).extFlag = (s.slot k).extFlag := by
  rw [unitWrite_slot]; split
  · rename_i h; rw [h.1]
  · rfl

@[simp] theorem unitWrite_base (s : State) (d : SlotNum) (u : Nat) (v : Byte) (k : SlotNum) :
    ((s.unitWrite d u v).slot k).base = (s.slot k).base := by
  rw [unitWrite_slot]; split
  · rename_i h; rw [h.1]
  · rfl

@[simp] theorem unitWrite_slot_ne (s : State) {d k : SlotNum} (u : Nat) (v : Byte) (h : k ≠ d) :
    (s.unitWrite d u v).slot k = s.slot k := by
  rw [unitWrite_slot, if_neg (fun e => h e.1)]

@[simp] theorem unitWrite_length (s : State) (d : SlotNum) (u : Nat) (v : Byte) :
    (s.unitWrite d u v).slots.length = s.slots.length := by
  unfold State.unitWrite; split <;> simp [State.setSlot]

@[simp] theorem unitWrite_unitLength (s : State) (d : SlotNum) (u : Nat) (v : Byte) (k : SlotNum) :
    (s.unitWrite d u v).unitLength k = s.unitLength k := by
  simp [State.unitLength, Slot.unitLength]

@[simp] theorem unitWrite_unitAddress (s : State) (d : SlotNum) (u : Nat) (v : Byte) (k : SlotNum) (w : Nat) :
    (s.unitWrite d u v).unitAddress k w = s.unitAddress k w := by
  simp [State.unitAddress]

/-- A unit write changes the external byte at the unit's address, if the unit has one. -/
theorem unitWrite_ext (s : State) (d : SlotNum) (u : Nat) (v : Byte) (a : Nat) :
    Memory.read (s.unitWrite d u v).ext a = if s.unitAddress d u = some a then v else Memory.read s.ext a := by
  unfold State.unitWrite State.unitAddress
  cases hm : (s.slot d).mode <;> simp [State.setSlot, eq_comm]

/-- Reading back units of an attached slot after a write of one of them. -/
theorem unitRead_unitWrite {s : State} {d : SlotNum} (h : (s.slot d).mode ≠ .empty) (u : Nat) (v : Byte) (w : Nat) :
    (s.unitWrite d u v).unitRead d w = if w = u then v else s.unitRead d w := by
  unfold State.unitRead
  simp only [unitWrite_mode, unitWrite_base, unitWrite_ext]
  cases hm : (s.slot d).mode with
  | empty => exact absurd hm h
  | owned => simp [unitWrite_slot, hm]
  | borrowed => simp [State.unitAddress, hm, eq_comm]

/-- A read of a unit sees nothing but its slot's mode, base and owned bytes, and external memory. -/
theorem unitRead_congr {s t : State} {k : SlotNum} {w : Nat} (hm : (t.slot k).mode = (s.slot k).mode)
    (hb : (t.slot k).base = (s.slot k).base) (ho : Memory.read (t.slot k).own w = Memory.read (s.slot k).own w)
    (he : ∀ a, s.unitAddress k w = some a → Memory.read t.ext a = Memory.read s.ext a) :
    t.unitRead k w = s.unitRead k w := by
  unfold State.unitRead
  rw [hm, hb, ho]
  cases hk : (s.slot k).mode with
  | empty => rfl
  | owned => rfl
  | borrowed => exact he _ (by simp [State.unitAddress, hk])

/-! ## Many units -/

@[simp] theorem writeUnits_mode (s : State) (d : SlotNum) (lo : Nat) (vs : List Byte) (k : SlotNum) :
    ((s.writeUnits d lo vs).slot k).mode = (s.slot k).mode := by
  induction vs generalizing s lo with
  | nil => rfl
  | cons v vs ih => simp [State.writeUnits, ih]

@[simp] theorem writeUnits_bitLength (s : State) (d : SlotNum) (lo : Nat) (vs : List Byte) (k : SlotNum) :
    ((s.writeUnits d lo vs).slot k).bitLength = (s.slot k).bitLength := by
  induction vs generalizing s lo with
  | nil => rfl
  | cons v vs ih => simp [State.writeUnits, ih]

@[simp] theorem writeUnits_extFlag (s : State) (d : SlotNum) (lo : Nat) (vs : List Byte) (k : SlotNum) :
    ((s.writeUnits d lo vs).slot k).extFlag = (s.slot k).extFlag := by
  induction vs generalizing s lo with
  | nil => rfl
  | cons v vs ih => simp [State.writeUnits, ih]

@[simp] theorem writeUnits_base (s : State) (d : SlotNum) (lo : Nat) (vs : List Byte) (k : SlotNum) :
    ((s.writeUnits d lo vs).slot k).base = (s.slot k).base := by
  induction vs generalizing s lo with
  | nil => rfl
  | cons v vs ih => simp [State.writeUnits, ih]

@[simp] theorem writeUnits_slot_ne (s : State) {d k : SlotNum} (lo : Nat) (vs : List Byte) (h : k ≠ d) :
    (s.writeUnits d lo vs).slot k = s.slot k := by
  induction vs generalizing s lo with
  | nil => rfl
  | cons v vs ih => simp [State.writeUnits, ih, h]

@[simp] theorem writeUnits_length (s : State) (d : SlotNum) (lo : Nat) (vs : List Byte) :
    (s.writeUnits d lo vs).slots.length = s.slots.length := by
  induction vs generalizing s lo with
  | nil => rfl
  | cons v vs ih => simp [State.writeUnits, ih]

@[simp] theorem writeUnits_unitLength (s : State) (d : SlotNum) (lo : Nat) (vs : List Byte) (k : SlotNum) :
    (s.writeUnits d lo vs).unitLength k = s.unitLength k := by
  simp [State.unitLength, Slot.unitLength]

@[simp] theorem writeUnits_unitAddress (s : State) (d : SlotNum) (lo : Nat) (vs : List Byte) (k : SlotNum) (w : Nat) :
    (s.writeUnits d lo vs).unitAddress k w = s.unitAddress k w := by
  simp [State.unitAddress]

/-- An external byte that is none of the written units' reads as before. -/
theorem writeUnits_ext {s : State} {d : SlotNum} {lo : Nat} {vs : List Byte} {a : Nat}
    (h : ∀ u, lo ≤ u → u < lo + vs.length → s.unitAddress d u ≠ some a) :
    Memory.read (s.writeUnits d lo vs).ext a = Memory.read s.ext a := by
  induction vs generalizing s lo with
  | nil => rfl
  | cons v vs ih =>
    rw [State.writeUnits, ih, unitWrite_ext, if_neg (h lo (Nat.le_refl _) (by simp))]
    intro u h1 h2
    rw [unitWrite_unitAddress]
    exact h u (by omega) (by simp only [List.length_cons]; omega)

/-- A written unit of an attached slot reads back the value written to it. -/
theorem unitRead_writeUnits {s : State} {d : SlotNum} (h : (s.slot d).mode ≠ .empty) (lo : Nat) (vs : List Byte) (w : Nat) :
    (s.writeUnits d lo vs).unitRead d w =
      if lo ≤ w then (vs[w - lo]?).getD (s.unitRead d w) else s.unitRead d w := by
  induction vs generalizing s lo with
  | nil => simp [State.writeUnits]
  | cons v vs ih =>
    rw [State.writeUnits, ih (by simpa using h), unitRead_unitWrite h]
    by_cases h1 : lo + 1 ≤ w
    · have h2 : w - lo = (w - (lo + 1)) + 1 := by omega
      have h3 : w ≠ lo := by omega
      have h4 : lo ≤ w := by omega
      simp only [if_pos h1, if_neg h3, if_pos h4]
      rw [h2, List.getElem?_cons_succ]
    · rw [if_neg h1]
      by_cases h2 : w = lo
      · subst h2; simp
      · rw [if_neg h2, if_neg (by omega)]

/-- Units outside the written range read as before. -/
theorem unitRead_writeUnits_outside {s : State} {d : SlotNum} {lo : Nat} {vs : List Byte} {w : Nat}
    (hw : w < lo ∨ lo + vs.length ≤ w) : (s.writeUnits d lo vs).unitRead d w = s.unitRead d w := by
  by_cases h : (s.slot d).mode = .empty
  · simp [State.unitRead, h]
  · rw [unitRead_writeUnits h]
    split
    · rw [List.getElem?_eq_none (by omega)]; rfl
    · rfl

/-- Units inside the written range. -/
theorem unitRead_writeUnits_inside {s : State} {d : SlotNum} (h : (s.slot d).mode ≠ .empty) {lo : Nat} {vs : List Byte}
    {j : Nat} (hj : j < vs.length) : (s.writeUnits d lo vs).unitRead d (lo + j) = vs[j] := by
  rw [unitRead_writeUnits h, if_pos (by omega)]
  simp [hj]

/-! ## Draws -/

@[simp] theorem drawn_length (s : State) (n : Nat) : (s.drawn n).length = n := by simp [State.drawn]

theorem drawn_getElem (s : State) (n k : Nat) (h : k < (s.drawn n).length) :
    (s.drawn n)[k] = Config.freeByte s.epoch (s.draws + k) := by simp [State.drawn]

@[simp] theorem scramble_mode (s : State) (sp : Span) (k : SlotNum) :
    ((s.scramble sp).slot k).mode = (s.slot k).mode := by simp [State.scramble]
@[simp] theorem scramble_bitLength (s : State) (sp : Span) (k : SlotNum) :
    ((s.scramble sp).slot k).bitLength = (s.slot k).bitLength := by simp [State.scramble]
@[simp] theorem scramble_extFlag (s : State) (sp : Span) (k : SlotNum) :
    ((s.scramble sp).slot k).extFlag = (s.slot k).extFlag := by simp [State.scramble]
@[simp] theorem scramble_base (s : State) (sp : Span) (k : SlotNum) :
    ((s.scramble sp).slot k).base = (s.slot k).base := by simp [State.scramble]
@[simp] theorem scramble_length (s : State) (sp : Span) : (s.scramble sp).slots.length = s.slots.length := by
  simp [State.scramble]
@[simp] theorem scramble_slot_ne (s : State) (sp : Span) {k : SlotNum} (h : k ≠ sp.slot) :
    (s.scramble sp).slot k = s.slot k := by simp [State.scramble, h]
@[simp] theorem scramble_unitLength (s : State) (sp : Span) (k : SlotNum) :
    (s.scramble sp).unitLength k = s.unitLength k := by simp [State.scramble]
@[simp] theorem scramble_unitAddress (s : State) (sp : Span) (k : SlotNum) (w : Nat) :
    (s.scramble sp).unitAddress k w = s.unitAddress k w := by simp [State.unitAddress]

theorem scramble_ext {s : State} {sp : Span} {a : Nat}
    (h : ∀ u, sp.lo ≤ u → u < sp.lo + sp.count → s.unitAddress sp.slot u ≠ some a) :
    Memory.read (s.scramble sp).ext a = Memory.read s.ext a := by
  simp only [State.scramble, tick_ext]
  exact writeUnits_ext (by simpa using h)

/-- Every unit of the span of an attached slot holds a draw; every other unit of the slot reads as before. -/
theorem unitRead_scramble {s : State} {sp : Span} (h : (s.slot sp.slot).mode ≠ .empty) (w : Nat) :
    (s.scramble sp).unitRead sp.slot w =
      if sp.lo ≤ w ∧ w < sp.lo + sp.count then Config.freeByte s.epoch (s.draws + (w - sp.lo)) else s.unitRead sp.slot w := by
  simp only [State.scramble, tick_unitRead]
  split
  · rename_i hw
    have hj : w - sp.lo < (s.drawn sp.count).length := by simp; omega
    have := unitRead_writeUnits_inside h (lo := sp.lo) hj
    rwa [drawn_getElem, Nat.add_sub_cancel' hw.1] at this
  · exact unitRead_writeUnits_outside (by simp; omega)

@[simp] theorem scramble_none (s : State) (d : SlotNum) (lo : Nat) : s.scramble { slot := d, lo := lo, count := 0 } = s := rfl

/-- A drawn unit is a draw between the two states. -/
theorem isDraw_scramble {s : State} {sp : Span} (h : (s.slot sp.slot).mode ≠ .empty) {u : Nat} (h1 : sp.lo ≤ u)
    (h2 : u < sp.lo + sp.count) : IsDraw s (s.scramble sp) ((s.scramble sp).unitRead sp.slot u) := by
  rw [unitRead_scramble h, if_pos ⟨h1, h2⟩]
  exact ⟨s.draws + (u - sp.lo), by omega, by simp; omega, by simp⟩

/-- Every drawn external byte holds a draw, every other external byte reads as before. -/
theorem scrambleExt_ext (s : State) (as : List Nat) (a : Nat) :
    (a ∉ as → Memory.read (s.scrambleExt as).ext a = Memory.read s.ext a)
      ∧ (a ∈ as → ∃ n, s.draws ≤ n ∧ n < s.draws + as.length ∧
          Memory.read (s.scrambleExt as).ext a = Config.freeByte s.epoch n) := by
  induction as generalizing s with
  | nil => simp [State.scrambleExt]
  | cons b as ih =>
    obtain ⟨h1, h2⟩ := ih { s with ext := Memory.write s.ext b (Config.freeByte s.epoch s.draws), draws := s.draws + 1 }
    constructor
    · intro h
      rw [List.mem_cons, not_or] at h
      rw [State.scrambleExt, h1 h.2]
      simp [h.1]
    · intro h
      by_cases hm : a ∈ as
      · obtain ⟨n, hn1, hn2, hn3⟩ := h2 hm
        refine ⟨n, ?_, ?_, hn3⟩
        · dsimp only at hn1; omega
        · dsimp only at hn2; simp only [List.length_cons]; omega
      · obtain rfl : a = b := by simpa [hm] using h
        refine ⟨s.draws, Nat.le_refl _, by simp, ?_⟩
        rw [State.scrambleExt, h1 hm]
        simp

end Sys2Proof.Machine
end

