-- ==== Sys2Proof/Laws/Exec.lean ====
section
/-! SUPPORT. What a command can do, said once: the inversions of the shared operations and of `exec`. -/
namespace Sys2Proof.Machine

/-- The checks before every command: HALTED, ILLEGAL, or the command itself. -/
theorem issue_next {i : Instr} {s t : State} {body : Result} (h : issue i s body = .next t) :
    (s.status.halted = true ∧ t = complete .halted false s)
      ∨ (s.status.halted = false ∧ i.wf s.cfg.nv = false ∧ t = complete .illegal false s)
      ∨ (Issued i s ∧ body = .next t) := by
  unfold issue raise at h
  split at h
  · exact .inl ⟨‹_›, by simpa using h.symm⟩
  · split at h
    · exact .inr (.inr ⟨⟨by simpa using ‹¬ s.status.halted = true›, ‹_›⟩, h⟩)
    · exact .inr (.inl ⟨by simpa using ‹¬ s.status.halted = true›, by simpa using ‹¬ i.wf s.cfg.nv = true›, by simpa using h.symm⟩)

/-- An issued command is its body. -/
theorem issue_of_issued {i : Instr} {s : State} {body : Result} (h : Issued i s) : issue i s body = body := by
  unfold issue; rw [if_neg (by simp [h.1]), if_pos h.2]

/-- The accesses of a command: BUS with the receiver drawn, or the command itself. -/
theorem withAccess_next {reads writes : List Span} {rc : Span} {s t : State} {body : Result}
    (h : withAccess reads writes rc s body = .next t) :
    ((reads.any s.readRefused = true ∨ writes.any s.writeRefused = true) ∧ t = complete .bus false (s.scramble rc))
      ∨ (Answered reads writes s ∧ body = .next t) := by
  unfold withAccess raise at h
  split at h
  · exact absurd h (by simp)
  · split at h
    · rename_i h2
      exact .inl ⟨Bool.or_eq_true_iff.1 h2, by simpa using h.symm⟩
    · rename_i h1 h2
      simp only [Bool.or_eq_true, not_or, Bool.not_eq_true] at h2
      exact .inr ⟨⟨by simpa using h1, h2.1, h2.2⟩, h⟩

/-- Accesses that are all answered go on. -/
theorem withAccess_of_answered {reads writes : List Span} {rc : Span} {s : State} {body : Result}
    (h : Answered reads writes s) : withAccess reads writes rc s body = body := by
  unfold withAccess
  rw [if_neg (by simp [h.1]), if_neg (by simp [h.2.1, h.2.2])]

/-- The one other end of an access: memory with read side effects. -/
theorem withAccess_refused {reads writes : List Span} {rc : Span} {s : State} {body : Result}
    (h : s.onDevice (reads ++ writes) = true) : withAccess reads writes rc s body = .refused .readSideEffects := by
  unfold withAccess; rw [if_pos h]

theorem vectorError_ok {s : State} {d : SlotNum} {others : List SlotNum} :
    s.vectorError d others = .ok ↔ Compatible s d others := by
  unfold State.vectorError Compatible State.unattached Slot.isEmpty
  split
  · rename_i h
    simp only [Bool.or_eq_true, beq_iff_eq, List.any_eq_true] at h
    constructor
    · intro e; cases e
    · rintro ⟨h1, h2⟩
      rcases h with h | ⟨a, ha, h⟩
      · exact absurd h h1
      · exact absurd h (h2 a ha).1
  · rename_i h
    simp only [Bool.or_eq_true, beq_iff_eq, List.any_eq_true, not_or, not_exists, not_and] at h
    split
    · rename_i h'
      simp only [List.any_eq_true, bne_iff_ne] at h'
      obtain ⟨a, ha, hne⟩ := h'
      constructor
      · intro e; cases e
      · rintro ⟨h1, h2⟩; exact absurd (h2 a ha).2 hne
    · rename_i h'
      simp only [List.any_eq_true, bne_iff_ne, not_exists, not_and, not_not] at h'
      exact ⟨fun _ => ⟨h.1, fun a ha => ⟨h.2 a ha, h' a ha⟩⟩, fun _ => rfl⟩

theorem vectorError_not_bus {s : State} {d : SlotNum} {others : List SlotNum} {e : ErrCode}
    (h : s.vectorError d others = e) (hne : e ≠ .ok) : e = .unattached ∨ e = .lenMismatch := by
  unfold State.vectorError at h
  split at h
  · exact .inl h.symm
  · split at h
    · exact .inr h.symm
    · exact absurd h.symm hne

/-- A valid index addresses a unit of the slot. -/
theorem unitOf_lt {i n : Nat} (h : i < n) : unitOf i < ceil8 n := by
  unfold unitOf ceil8; omega

/-- What a command that answers a next state has done, one case per shape. -/
inductive ExecEffect (i : Instr) (s : State) : State → Prop
  /-- HALTED or ILLEGAL, before the command. -/
  | turnedAway (e : ErrCode) (he : e = .halted ∨ e = .illegal) : ExecEffect i s (complete e false s)
  /-- An error of the command's own checks: OOB, LENMISMATCH, UNATTACHED, RANGE. -/
  | checked (hi : Issued i s) (e : ErrCode)
      (he : e = .oob ∨ e = .lenMismatch ∨ e = .unattached ∨ e = .range) : ExecEffect i s (complete e false s)
  /-- INIT beyond MAXUNITS. -/
  | alloc (d : SlotNum) (hd : i = .init d) (hi : Issued i s) (h : s.cfg.maxUnits < ceil8 s.cur.opa.toNat) :
      ExecEffect i s (complete .alloc false { s with status := s.status.halting })
  /-- The slot is emptied: DETACH, or INIT and ATTACH of bit length 0. -/
  | emptied (d : SlotNum) (hd : i = .init d ∨ (∃ f, i = .attach d f) ∨ i = .detach d) (hi : Issued i s) :
      ExecEffect i s (complete .ok false (s.setSlot d Slot.emptied))
  /-- INIT. -/
  | allocated (d : SlotNum) (hd : i = .init d) (hi : Issued i s) (h0 : s.cur.opa ≠ 0)
      (h : ceil8 s.cur.opa.toNat ≤ s.cfg.maxUnits) :
      ExecEffect i s (complete .ok false (s.setSlot d (Slot.allocated s.cur.opa)))
  /-- ATTACH. -/
  | attached (d : SlotNum) (flag : Byte) (hd : i = .attach d flag) (hi : Issued i s) (h0 : s.cur.opa ≠ 0)
      (h : outsideRange s.cfg s.cur.opb s.cur.opa = false) :
      ExecEffect i s (complete .ok false (s.setSlot d (Slot.attachedAt s.cur.opb s.cur.opa flag)))
  /-- INITPAT. -/
  | filled (d : SlotNum) (pat flag : Byte) (hd : i = .initpat d pat flag) (hi : Issued i s)
      (hm : (s.slot d).mode ≠ .empty) (ha : Answered [] [s.wholeSlot d] s) :
      ExecEffect i s (complete .ok false
        ((s.writeUnits d 0 (List.replicate (s.unitLength d) pat)).setExtFlag d flag))
  /-- A bus error: the receiver's units are drawn. -/
  | bus (d : SlotNum) (hi : Issued i s) (hd : d ∈ i.slots) (sp : Span) (hsp : sp = receiverOf i s) (hs : sp.slot = d)
      (hm : (s.slot d).mode ≠ .empty) (hc : sp.lo + sp.count ≤ s.unitLength d) :
      ExecEffect i s (complete .bus false (s.scramble sp))
  /-- SETBIT of a new value. -/
  | bitSet (d : SlotNum) (val : Bool) (hd : i = .setbit d val) (hi : Issued i s) (hv : s.indexValid d = true)
      (ha : Answered [s.bitSpan d] [s.bitSpan d] s) :
      ExecEffect i s (complete .ok false (s.unitWrite d (unitOf s.indexOperand) (s.bitWritten d val)))
  /-- A command that only completes: SETBIT of the held value, GETBIT, HASSURV. -/
  | observed (hi : Issued i s) (res : Bool) : ExecEffect i s (complete .ok res s)
  /-- XOR3 or XOR2 into `d` of the units of `a` and `b`. -/
  | combined (d a b : SlotNum) (hd : i.slots.head? = some d) (hd' : a ∈ i.slots ∧ b ∈ i.slots) (hi : Issued i s)
      (hx : i = .xor3 d a b ∨ (i = .xor2 d b ∧ a = d)) (hc : Compatible s d [a, b]) :
      ExecEffect i s (complete .ok false (s.writeUnits d 0 (xorUnits (s.units a) (s.units b))))
  /-- XOR3 or XOR2 on partial overlap. -/
  | overlapped (d a b : SlotNum) (hd : i.slots.head? = some d) (hi : Issued i s)
      (hx : i = .xor3 d a b ∨ (i = .xor2 d b ∧ a = d)) (hc : Compatible s d [a, b]) :
      ExecEffect i s (complete .ok false (s.scramble (s.wholeSlot d)))
  /-- HASSURV where a readable unit decides the check and another is refused. -/
  | early (d a : SlotNum) (hd : i = .hassurv d a) (hi : Issued i s) (e : ErrCode) (he : e = .bus ∨ e = .ok) :
      ExecEffect i s (complete e false (s.tick 1))

theorem turnedAway_or {i : Instr} {s t : State} {body : Result} (h : issue i s body = .next t)
    (hb : Issued i s → body = .next t → ExecEffect i s t) : ExecEffect i s t := by
  rcases issue_next h with ⟨-, rfl⟩ | ⟨-, -, rfl⟩ | ⟨h1, h2⟩
  · exact .turnedAway _ (.inl rfl)
  · exact .turnedAway _ (.inr rfl)
  · exact hb h1 h2

theorem next_inj {s t : State} (h : (Host.Outcome.next s : Result) = .next t) : t = s := by
  simpa using h.symm

theorem receiverOf_issued {i : Instr} {s : State} (h : Issued i s) :
    (s.status.halted || !i.wf s.cfg.nv) = false := by simp [h.1, h.2]

theorem execInit_effect {d : SlotNum} {s t : State} (h : execInit d s = .next t) : ExecEffect (.init d) s t := by
  refine turnedAway_or h fun hi hb => ?_
  by_cases h0 : s.lengthOperand = 0
  · rw [if_pos h0] at hb
    obtain rfl := next_inj hb; exact .emptied d (by simp) hi
  · rw [if_neg h0] at hb
    split at hb
    · obtain rfl := next_inj hb; exact .alloc d rfl hi ‹_›
    · rename_i hle
      obtain rfl := next_inj hb; exact .allocated d rfl hi h0 (Nat.le_of_not_lt hle)

theorem execInitpat_effect {d : SlotNum} {pat flag : Byte} {s t : State} (h : execInitpat d pat flag s = .next t) :
    ExecEffect (.initpat d pat flag) s t := by
  refine turnedAway_or h fun hi hb => ?_
  split at hb
  · obtain rfl := next_inj hb; exact .checked hi _ (by simp)
  · rename_i hm
    simp only [State.unattached, Slot.isEmpty, beq_iff_eq] at hm
    rcases withAccess_next hb with ⟨-, rfl⟩ | ⟨ha, hb⟩
    · refine .bus d hi (by simp [Instr.slots]) _ ?_ rfl hm (by simp [State.wholeSlot])
      simp [receiverOf, receiverOf_issued hi]
    · obtain rfl := next_inj hb; exact .filled d pat flag rfl hi hm ha

theorem execAttach_effect {d : SlotNum} {flag : Byte} {s t : State} (h : execAttach d flag s = .next t) :
    ExecEffect (.attach d flag) s t := by
  refine turnedAway_or h fun hi hb => ?_
  by_cases h0 : s.lengthOperand = 0
  · rw [if_pos h0] at hb
    obtain rfl := next_inj hb; exact .emptied d (by simp) hi
  · rw [if_neg h0] at hb
    split at hb
    · obtain rfl := next_inj hb; exact .checked hi _ (by simp)
    · obtain rfl := next_inj hb
      exact .attached d flag rfl hi h0 (by simpa [State.lengthOperand, State.addressOperand] using ‹¬ outsideRange _ _ _ = true›)

theorem execDetach_effect {d : SlotNum} {s t : State} (h : execDetach d s = .next t) : ExecEffect (.detach d) s t := by
  refine turnedAway_or h fun hi hb => ?_
  obtain rfl := next_inj hb; exact .emptied d (by simp) hi

/-- Only a BORROWED slot's accesses can be refused. -/
theorem borrowed_of_readRefused {s : State} {sp : Span} (h : s.readRefused sp = true) :
    (s.slot sp.slot).mode = .borrowed := by
  simp only [State.readRefused, State.spanIn, State.spanBeyond, Bool.or_eq_true, Bool.and_eq_true, beq_iff_eq] at h
  rcases h with h | h
  · exact h.1
  · exact h.1.1

theorem borrowed_of_writeRefused {s : State} {sp : Span} (h : s.writeRefused sp = true) :
    (s.slot sp.slot).mode = .borrowed := by
  simp only [State.writeRefused, State.spanIn, State.spanBeyond, Bool.or_eq_true, Bool.and_eq_true, beq_iff_eq] at h
  rcases h with h | h
  · exact h.1
  · exact h.1.1

theorem bitSpan_fits {s : State} {d : SlotNum} (h : s.indexValid d = true) :
    (s.bitSpan d).lo + 1 ≤ s.unitLength d := by
  simp only [State.indexValid, decide_eq_true_eq] at h
  exact unitOf_lt h

theorem execSetbit_effect {d : SlotNum} {val : Bool} {s t : State} (h : execSetbit d val s = .next t) :
    ExecEffect (.setbit d val) s t := by
  refine turnedAway_or h fun hi hb => ?_
  have hrc : s.indexValid d = true → s.bitSpan d = receiverOf (.setbit d val) s := fun hv => by
    simp [receiverOf, receiverOf_issued hi, hv, State.bitSpan]
  split at hb
  · rename_i hv
    split at hb
    · rcases withAccess_next hb with ⟨hr, rfl⟩ | ⟨ha, hb⟩
      · have : (s.slot d).mode = .borrowed := by
          simpa [State.bitSpan] using borrowed_of_readRefused (s := s) (sp := s.bitSpan d) (by simpa using hr)
        exact .bus d hi (by simp [Instr.slots]) _ (hrc hv) rfl (by simp [this]) (bitSpan_fits hv)
      · obtain rfl := next_inj hb; exact .observed hi false
    · rcases withAccess_next hb with ⟨hr, rfl⟩ | ⟨ha, hb⟩
      · have : (s.slot d).mode = .borrowed := by
          rcases hr with hr | hr
          · simpa [State.bitSpan] using borrowed_of_readRefused (s := s) (sp := s.bitSpan d) (by simpa using hr)
          · simpa [State.bitSpan] using borrowed_of_writeRefused (s := s) (sp := s.bitSpan d) (by simpa using hr)
        exact .bus d hi (by simp [Instr.slots]) _ (hrc hv) rfl (by simp [this]) (bitSpan_fits hv)
      · obtain rfl := next_inj hb; exact .bitSet d val rfl hi hv ha
  · obtain rfl := next_inj hb; exact .checked hi _ (by simp)

theorem execGetbit_effect {d : SlotNum} {s t : State} (h : execGetbit d s = .next t) : ExecEffect (.getbit d) s t := by
  refine turnedAway_or h fun hi hb => ?_
  split at hb
  · rcases withAccess_next hb with ⟨hr, rfl⟩ | ⟨ha, hb⟩
    · have : (s.slot d).mode = .borrowed := by
        simpa [State.bitSpan] using borrowed_of_readRefused (s := s) (sp := s.bitSpan d) (by simpa using hr)
      exact .bus d hi (by simp [Instr.slots]) _ (by simp [receiverOf, receiverOf_issued hi]) rfl (by simp [this]) (by simp)
    · obtain rfl := next_inj hb; exact .observed hi _
  · obtain rfl := next_inj hb; exact .checked hi _ (by simp)

theorem combine_effect {i : Instr} {d a b : SlotNum} {s t : State} (hi : Issued i s) (h : combine d a b s = .next t)
    (hd : i.slots.head? = some d) (hd' : a ∈ i.slots ∧ b ∈ i.slots)
    (hx : i = .xor3 d a b ∨ (i = .xor2 d b ∧ a = d)) : ExecEffect i s t := by
  unfold combine at h
  split at h
  · rename_i he
    have hc := vectorError_ok.1 he
    rcases withAccess_next h with ⟨-, rfl⟩ | ⟨ha, h⟩
    · refine .bus d hi (List.mem_of_mem_head? (by simpa using hd)) _ ?_ rfl hc.1 (by simp [State.wholeSlot])
      rcases hx with rfl | ⟨rfl, rfl⟩ <;> simp [receiverOf, receiverOf_issued hi, he, State.wholeSlot]
    · split at h
      · obtain rfl := next_inj h; exact .overlapped d a b hd hi hx hc
      · obtain rfl := next_inj h; exact .combined d a b hd hd' hi hx hc
  · rename_i hne
    obtain rfl := next_inj h
    rcases vectorError_not_bus rfl hne with h | h
    · exact .checked hi _ (by simp [h])
    · exact .checked hi _ (by simp [h])

theorem execHassurv_effect {d a : SlotNum} {s t : State} (h : execHassurv d a s = .next t) :
    ExecEffect (.hassurv d a) s t := by
  refine turnedAway_or h fun hi hb => ?_
  unfold surviveBy at hb
  split at hb
  · rename_i he
    split at hb
    · exact absurd hb (by simp)
    · split at hb
      · split at hb
        · split at hb
          · obtain rfl := next_inj hb; exact .early d a rfl hi _ (.inr rfl)
          · obtain rfl := next_inj hb; exact .early d a rfl hi _ (.inl rfl)
        · obtain rfl := next_inj hb
          exact .bus d hi (by simp [Instr.slots]) { slot := d, lo := 0, count := 0 }
            (by simp [receiverOf, receiverOf_issued hi]) rfl (vectorError_ok.1 he).1 (by simp)
      · obtain rfl := next_inj hb; exact .observed hi _
  · rename_i hne
    obtain rfl := next_inj hb
    rcases vectorError_not_bus rfl hne with h | h
    · exact .checked hi _ (by simp [h])
    · exact .checked hi _ (by simp [h])

/-- Everything a command that answers a next state can have done. -/
theorem exec_effect {i : Instr} {s t : State} (h : exec i s = .next t) : ExecEffect i s t := by
  cases i with
  | init d => exact execInit_effect h
  | initpat d pat flag => exact execInitpat_effect h
  | attach d flag => exact execAttach_effect h
  | detach d => exact execDetach_effect h
  | setbit d val => exact execSetbit_effect h
  | getbit d => exact execGetbit_effect h
  | xor3 d a b =>
    exact turnedAway_or h fun hi hb => combine_effect hi hb rfl (by simp [Instr.slots]) (.inl rfl)
  | xor2 d o =>
    exact turnedAway_or h fun hi hb => combine_effect hi hb rfl (by simp [Instr.slots]) (.inr ⟨rfl, rfl⟩)
  | hassurv d a => exact execHassurv_effect h

end Sys2Proof.Machine
end

