-- ==== Sys2Proof/Laws/Invariant.lean ====
section
/-! SUPPORT. Each shared operation keeps the invariant, under the condition its callers meet. -/
namespace Sys2Proof.Machine

/-! ## Slots in their invariant -/

theorem slotInv_emptied (c : Config) : SlotInv c Slot.emptied := by
  constructor <;> simp [Slot.emptied, Memory.wf, Memory.below]

theorem slotInv_allocated {c : Config} {n : Word} (h0 : n ≠ 0) (h : ceil8 n.toNat ≤ c.maxUnits) :
    SlotInv c (Slot.allocated n) where
  empty_iff := ⟨fun e => (by cases e), fun e => absurd e h0⟩
  empty_flag := fun e => by cases e
  base_zero := fun _ => rfl
  owned_fits := fun _ => h
  borrowed_fits := fun e => by cases e
  own_wf := rfl
  own_below := rfl
  own_none := fun _ => rfl

theorem outsideRange_iff {c : Config} {addr n : Word} :
    outsideRange c addr n = true ↔ extSize c ≤ addr.toNat ∨ extSize c < addr.toNat + ceil8 n.toNat := by
  simp [outsideRange]

theorem slotInv_attachedAt {c : Config} {addr n : Word} {flag : Byte} (h0 : n ≠ 0)
    (h : outsideRange c addr n = false) : SlotInv c (Slot.attachedAt addr n flag) where
  empty_iff := ⟨fun e => (by cases e), fun e => absurd e h0⟩
  empty_flag := fun e => by cases e
  base_zero := fun e => absurd rfl e
  owned_fits := fun e => by cases e
  borrowed_fits := fun _ => by
    have h' : ¬ (extSize c ≤ addr.toNat ∨ extSize c < addr.toNat + ceil8 n.toNat) := by
      rw [← outsideRange_iff, h]; simp
    show addr.toNat + ceil8 n.toNat ≤ extSize c
    omega
  own_wf := rfl
  own_below := rfl
  own_none := fun _ => rfl

theorem Inv.slot_inv {s : State} (h : Inv s) (d : SlotNum) : SlotInv s.cfg (s.slot d) := by
  by_cases hd : d.val < s.slots.length
  · exact h.slots_inv _ (slot_mem hd)
  · rw [slot_of_le (Nat.le_of_not_lt hd)]; exact slotInv_emptied _

/-- A slot number of an issued command is one of the block's slots. -/
theorem Inv.named_lt {s : State} (h : Inv s) {i : Instr} (hw : i.wf s.cfg.nv = true) {d : SlotNum} (hd : d ∈ i.slots) :
    d.val < s.slots.length := by
  rw [h.slot_count]
  simpa using List.all_eq_true.1 hw d hd

/-- An attached slot has at least one unit. -/
theorem Inv.unitLength_pos {s : State} (h : Inv s) {d : SlotNum} (hm : (s.slot d).mode ≠ .empty) :
    0 < s.unitLength d := by
  have h1 : (s.slot d).bitLength ≠ 0 := fun e => hm ((h.slot_inv d).empty_iff.2 e)
  have h2 : (s.slot d).bitLength.toNat ≠ 0 := fun e => h1 (BitVec.eq_of_toNat_eq (by simpa using e))
  simp only [State.unitLength, Slot.unitLength, ceil8]
  omega

/-! ## Operations -/

theorem Inv.setSlot {s : State} (h : Inv s) (d : SlotNum) {sl : Slot} (hs : SlotInv s.cfg sl) :
    Inv (s.setSlot d sl) where
  cfg_wf := h.cfg_wf
  slot_count := by simpa using h.slot_count
  slots_inv := by
    intro x hx
    rcases List.mem_or_eq_of_mem_set hx with hx | rfl
    · exact h.slots_inv x hx
    · exact hs
  busy_not_done := h.busy_not_done
  busy_clear := h.busy_clear
  result_ok := h.result_ok
  ext_wf := h.ext_wf
  ext_below := h.ext_below
  raced_below := h.raced_below

theorem Inv.tick {s : State} (h : Inv s) (n : Nat) : Inv (s.tick n) :=
  ⟨h.cfg_wf, h.slot_count, h.slots_inv, h.busy_not_done, h.busy_clear, h.result_ok, h.ext_wf, h.ext_below, h.raced_below⟩

theorem Inv.drawFrom {s : State} (h : Inv s) (n : Nat) : Inv (s.drawFrom n) :=
  ⟨h.cfg_wf, h.slot_count, h.slots_inv, h.busy_not_done, h.busy_clear, h.result_ok, h.ext_wf, h.ext_below, h.raced_below⟩

theorem Inv.redraw {s : State} (h : Inv s) : Inv s.redraw :=
  ⟨h.cfg_wf, h.slot_count, h.slots_inv, h.busy_not_done, h.busy_clear, h.result_ok, h.ext_wf, h.ext_below, h.raced_below⟩

theorem Inv.complete {s : State} (h : Inv s) (e : ErrCode) (r : Bool) : Inv (complete e r s) :=
  ⟨h.cfg_wf, h.slot_count, h.slots_inv, by simp, by simp, by simp, h.ext_wf, h.ext_below, h.raced_below⟩

theorem Inv.accept {s : State} (h : Inv s) (w : Word) : Inv (s.accept w) :=
  ⟨h.cfg_wf, h.slot_count, h.slots_inv, by simp, by simp, by simp, h.ext_wf, h.ext_below, by simp⟩

theorem Inv.setExtFlag {s : State} (h : Inv s) {d : SlotNum} (hm : (s.slot d).mode ≠ .empty) (f : Byte) :
    Inv (s.setExtFlag d f) := by
  have hi := h.slot_inv d
  exact h.setSlot d ⟨hi.empty_iff, fun e => absurd e hm, hi.base_zero, hi.owned_fits, hi.borrowed_fits, hi.own_wf,
    hi.own_below, hi.own_none⟩

theorem Inv.extWrite {s : State} (h : Inv s) {a : Nat} (ha : a < extSize s.cfg) (v : Byte) :
    Inv { s with ext := Memory.write s.ext a v } :=
  ⟨h.cfg_wf, h.slot_count, h.slots_inv, h.busy_not_done, h.busy_clear, h.result_ok, Memory.wf_write h.ext_wf,
    Memory.below_write h.ext_below ha, h.raced_below⟩

/-- Writing a unit of an attached slot within its unit length. -/
theorem Inv.unitWrite {s : State} (h : Inv s) {d : SlotNum} {u : Nat} (hu : u < s.unitLength d) (v : Byte) :
    Inv (s.unitWrite d u v) := by
  have hi := h.slot_inv d
  unfold State.unitWrite
  split
  · exact h
  · rename_i hm
    refine h.setSlot d ⟨hi.empty_iff, hi.empty_flag, hi.base_zero, hi.owned_fits, hi.borrowed_fits,
      Memory.wf_write hi.own_wf, Memory.below_write hi.own_below hu, fun e => absurd hm e⟩
  · rename_i hm
    have := hi.borrowed_fits hm
    exact h.extWrite (by simp only [State.unitLength] at hu; omega) v

theorem Inv.writeUnits {s : State} (h : Inv s) {d : SlotNum} {lo : Nat} {vs : List Byte}
    (hu : lo + vs.length ≤ s.unitLength d) : Inv (s.writeUnits d lo vs) := by
  induction vs generalizing s lo with
  | nil => exact h
  | cons v vs ih =>
    simp only [List.length_cons] at hu
    refine ih (h.unitWrite (by omega) v) ?_
    simp; omega

theorem Inv.scramble {s : State} (h : Inv s) {sp : Span} (hu : sp.lo + sp.count ≤ s.unitLength sp.slot) :
    Inv (s.scramble sp) :=
  (h.writeUnits (by simpa using hu)).tick _

theorem Inv.scrambleExt {s : State} (h : Inv s) {as : List Nat} (ha : ∀ a ∈ as, a < extSize s.cfg) :
    Inv (s.scrambleExt as) := by
  induction as generalizing s with
  | nil => exact h
  | cons a as ih =>
    have h1 := (h.extWrite (ha a List.mem_cons_self) (Config.freeByte s.epoch s.draws)).tick 1
    exact ih h1 fun b hb => ha b (List.mem_cons_of_mem _ hb)

theorem Inv.halting {s : State} (h : Inv s) : Inv { s with status := s.status.halting } :=
  ⟨h.cfg_wf, h.slot_count, h.slots_inv, h.busy_not_done, h.busy_clear, h.result_ok, h.ext_wf, h.ext_below, h.raced_below⟩

@[simp] theorem units_length (s : State) (d : SlotNum) : (s.units d).length = s.unitLength d := by simp [State.units]

theorem xorUnits_length {as bs : List Byte} (h : as.length = bs.length) : (xorUnits as bs).length = as.length := by
  simp [xorUnits, h]

/-- The units a command would write lie within its receiver's buffer. -/
theorem receiverOf_fits (i : Instr) (s : State) :
    (receiverOf i s).count = 0
      ∨ (receiverOf i s).lo + (receiverOf i s).count ≤ s.unitLength (receiverOf i s).slot := by
  unfold receiverOf
  split
  · exact .inl rfl
  · cases i with
    | setbit d val =>
      by_cases hv : s.indexValid d = true
      · right
        simp only [hv, if_true]
        exact bitSpan_fits hv
      · left
        simp only [if_neg hv]
    | xor3 d a b => dsimp only; split <;> simp [State.wholeSlot]
    | xor2 d o => dsimp only; split <;> simp [State.wholeSlot]
    | _ => simp [State.wholeSlot]

/-- The units a race frees are the receiver's or none, but for INIT. -/
theorem raceUnits_eq (i : Instr) (s : State) :
    raceUnits i s = receiverOf i s ∨ (raceUnits i s).count = 0 ∨ ∃ d, i = .init d := by
  cases i with
  | init d => exact .inr (.inr ⟨d, rfl⟩)
  | setbit d val => unfold raceUnits; dsimp only; split; exacts [.inr (.inl rfl), .inl rfl]
  | _ => exact .inl rfl

/-- The units a race frees of an INIT are those it zero-fills: it succeeds, and the slot it leaves has them. -/
theorem raceUnits_init {d : SlotNum} {s : State} (h : (raceUnits (.init d) s).count ≠ 0) :
    exec (.init d) s = .next (complete .ok false (s.setSlot d (Slot.allocated s.cur.opa)))
      ∧ (raceUnits (.init d) s).count = ceil8 s.cur.opa.toNat ∧ Issued (.init d) s := by
  have hn : (raceUnits (.init d) s).count =
      if s.status.halted || !(Instr.init d).wf s.cfg.nv || decide (s.cfg.maxUnits < ceil8 s.lengthOperand.toNat)
      then 0 else ceil8 s.lengthOperand.toNat := rfl
  by_cases hc : (s.status.halted || !(Instr.init d).wf s.cfg.nv
      || decide (s.cfg.maxUnits < ceil8 s.lengthOperand.toNat)) = true
  · exact absurd (hn.trans (if_pos hc)) h
  · rw [if_neg hc] at hn
    simp only [Bool.or_eq_true, Bool.not_eq_true', decide_eq_true_eq, not_or, Bool.not_eq_true, Bool.not_eq_false,
      Nat.not_lt] at hc
    have hi : Issued (.init d) s := ⟨hc.1.1, hc.1.2⟩
    have h0 : ¬ s.lengthOperand = 0 := fun e => h (by rw [hn, e]; rfl)
    refine ⟨?_, hn, hi⟩
    show execInit d s = _
    unfold execInit
    rw [issue_of_issued hi, if_neg h0, if_neg (Nat.not_lt.2 hc.2)]
    rfl

/-- SETBIT of the value the bit holds writes no unit (41_bit_access.md R143). -/
theorem raceUnits_held {d : SlotNum} {val : Bool} {s : State}
    (h : s.bitWritten d val = s.unitRead d (unitOf s.indexOperand)) : (raceUnits (.setbit d val) s).count = 0 := by
  unfold raceUnits; dsimp only; rw [if_pos h]

/-- A command keeps the unit length of the slot whose units it would write. -/
theorem ExecEffect.receiver_unitLength {i : Instr} {s t : State} (he : ExecEffect i s t) :
    (receiverOf i s).count = 0 ∨ t.unitLength (receiverOf i s).slot = s.unitLength (receiverOf i s).slot := by
  cases he with
  | turnedAway | checked | alloc | observed | early => exact .inr rfl
  | emptied d hd hi =>
    left
    rcases hd with rfl | ⟨f, rfl⟩ | rfl <;> simp [receiverOf, receiverOf_issued hi]
  | allocated d hd hi => left; subst hd; simp [receiverOf, receiverOf_issued hi]
  | attached d f hd hi => left; subst hd; simp [receiverOf, receiverOf_issued hi]
  | filled | bus | bitSet | combined | overlapped => right; simp

/-- The units a race frees lie in the buffer the command leaves. -/
theorem Inv.raceUnits_fits {i : Instr} {s t : State} (h : Inv s) (he : exec i s = .next t) :
    (raceUnits i s).count = 0
      ∨ (raceUnits i s).lo + (raceUnits i s).count ≤ t.unitLength (raceUnits i s).slot := by
  by_cases h0 : (raceUnits i s).count = 0
  · exact .inl h0
  right
  rcases raceUnits_eq i s with h1 | h1 | ⟨d, rfl⟩
  · rw [h1] at h0 ⊢
    rw [((exec_effect he).receiver_unitLength).resolve_left h0]
    exact (receiverOf_fits i s).resolve_left h0
  · exact absurd h1 h0
  · obtain ⟨h2, h3, hi⟩ := raceUnits_init h0
    rw [h2] at he
    obtain rfl := next_inj he
    have hd := h.named_lt hi.2 (d := d) (by simp [Instr.slots])
    rw [h3]
    show 0 + _ ≤ (State.slot _ d).unitLength
    rw [complete_slot, slot_setSlot hd, if_pos rfl, Nat.zero_add]
    exact Nat.le_refl _

/-- The draws of a race begin after those of the command. -/
theorem exec_draws_le {i : Instr} {s t : State} (he : exec i s = .next t) :
    s.draws ≤ t.draws ∧ t.draws ≤ raceDraws i s := by
  unfold raceDraws
  cases exec_effect he with
  | turnedAway | checked | alloc | emptied | allocated | attached | observed => simp; omega
  | filled | bitSet | combined => simp; omega
  | bus d hi hd sp hsp => subst hsp; simp
  | overlapped d a b hd hi hx hc =>
    have hr : (receiverOf i s).count = s.unitLength d := by
      rcases hx with rfl | ⟨rfl, rfl⟩ <;> simp [receiverOf, receiverOf_issued hi, vectorError_ok.2 hc]
    rw [hr]; simp [State.wholeSlot]
  | early => simp

/-- The block's reset state, with any external memory in form. -/
theorem Inv.afterReset {s t : State} (h : Inv s) (hc : t.cfg = s.cfg)
    (hs : t.slots = List.replicate s.cfg.nv Slot.emptied) (hf : t.status = Status.zero) (hr : t.cur = Latch.zero)
    (he : Memory.wf t.ext = true) (hb : Memory.below t.ext (extSize s.cfg) = true) : Inv t where
  cfg_wf := by rw [hc]; exact h.cfg_wf
  slot_count := by rw [hc, hs]; simp
  slots_inv := by
    intro sl hsl
    rw [hs] at hsl
    rw [List.eq_of_mem_replicate hsl, hc]
    exact slotInv_emptied _
  busy_not_done := by rw [hf]; simp [Status.zero]
  busy_clear := by rw [hf]; simp [Status.zero]
  result_ok := by rw [hf]; simp [Status.zero]
  ext_wf := he
  ext_below := by rw [hc]; exact hb
  raced_below := by rw [hr]; simp [Latch.zero]

end Sys2Proof.Machine
end

