-- ==== Sys2Proof/Laws/Frame.lean ====
section
/-! SUPPORT. Spec lemmas of the shared operations: completion, the platform's answers, the bit of a byte, buffers and
their overlap, and what depends only on the shape of a state. -/
namespace Sys2Proof.Machine

/-! ## Completion -/

theorem sameBlock_complete (s : State) (e : ErrCode) (r : Bool) : SameBlock s (complete e r s) := by
  constructor <;> simp

theorem sameStorage_complete (s : State) (e : ErrCode) (r : Bool) : SameStorage s (complete e r s) := ⟨rfl, rfl, rfl⟩

theorem completed_complete (s : State) (e : ErrCode) (r : Bool) : Completed (complete e r s) e (r && e == .ok) :=
  ⟨rfl, rfl, rfl, rfl⟩

/-- What no command touches, what every completion does, and how HALTED may change. -/
theorem exec_block {i : Instr} {s t : State} (h : exec i s = .next t) :
    t.cfg = s.cfg ∧ t.opa = s.opa ∧ t.opb = s.opb ∧ t.cur = s.cur ∧ t.platform = s.platform ∧ t.turns = s.turns
      ∧ t.answer = s.answer ∧ t.slots.length = s.slots.length ∧ t.status.ovf = s.status.ovf
      ∧ t.status.busy = false ∧ t.status.done = true
      ∧ (t.status.halted = s.status.halted ∨ t.status.err = .alloc)
      ∧ (t.status.err ≠ .ok → t.status.result = false)
      ∧ (s.status.halted = true → t.status.halted = true) := by
  cases exec_effect h <;> simp

/-! ## The platform's answers -/

theorem onDevice_false {s : State} (h : ∀ r ∈ s.platform, r.kind ≠ .readSideEffects) (sps : List Span) :
    s.onDevice sps = false := by
  simp [State.onDevice, State.spanIn]
  intro sp _ _ r hr hk
  exact absurd hk (h r hr)

/-- A refused access ends the command with BUS and the receiver drawn. -/
theorem withAccess_bus {s : State} {rs ws : List Span} {rc : Span} {body : Result}
    (h : ∀ r ∈ s.platform, r.kind ≠ .readSideEffects)
    (hr : rs.any s.readRefused = true ∨ ws.any s.writeRefused = true) :
    withAccess rs ws rc s body = raise .bus (s.scramble rc) := by
  unfold withAccess
  rw [if_neg (by simp [onDevice_false h]), if_pos (by simpa using hr)]

/-- Fewer accesses are answered too. -/
theorem Answered.subset {s : State} {rs ws rs' ws' : List Span} (h : Answered rs ws s) (h1 : ∀ x ∈ rs', x ∈ rs)
    (h2 : ∀ x ∈ ws', x ∈ ws) : Answered rs' ws' s := by
  unfold Answered State.onDevice at *
  simp only [List.any_eq_false, List.mem_append] at *
  exact ⟨fun x hx => h.1 x (hx.imp (h1 x) (h2 x)), fun x hx => h.2.1 x (h1 x hx), fun x hx => h.2.2 x (h2 x hx)⟩

/-! ## One bit of a byte -/

/-- The byte SETBIT computes: the addressed bit is the value, every other bit is the unit's. -/
theorem getLsbD_byteSetBit (b : Byte) {q : Nat} (hq : q < 8) (v : Bool) (p : Nat) :
    (byteSetBit b q v).getLsbD p = if p = q then v else b.getLsbD p := by
  by_cases hp : p < 8
  · cases v <;> interval_cases q <;> interval_cases p <;> simp [byteSetBit, bitAt]
  · have h : p ≠ q := by omega
    simp [h, BitVec.getLsbD_of_ge _ p (Nat.le_of_not_lt hp)]

theorem bitpos_lt (i : Nat) : bitpos i < 8 := by unfold bitpos; omega

theorem getLsbD_bitWritten (s : State) (d : SlotNum) (v : Bool) (p : Nat) :
    (s.bitWritten d v).getLsbD p =
      if p = bitpos s.indexOperand then v else (s.unitRead d (unitOf s.indexOperand)).getLsbD p :=
  getLsbD_byteSetBit _ (bitpos_lt _) _ _

/-- SETBIT has nothing to write exactly when the bit holds the value. -/
theorem bitWritten_eq_iff (s : State) (d : SlotNum) (v : Bool) :
    s.bitWritten d v = s.unitRead d (unitOf s.indexOperand)
      ↔ (s.unitRead d (unitOf s.indexOperand)).getLsbD (bitpos s.indexOperand) = v := by
  constructor
  · intro h
    have := getLsbD_bitWritten s d v (bitpos s.indexOperand)
    rwa [h, if_pos rfl] at this
  · intro h
    apply BitVec.eq_of_getLsbD_eq
    intro p _
    rw [getLsbD_bitWritten]
    split
    · rename_i h2; rw [h2]; exact h.symm
    · rfl

theorem indexValid_iff {s : State} {d : SlotNum} :
    s.indexValid d = true ↔ s.cur.opa.toNat < (s.slot d).bitLength.toNat :=
  ⟨fun h => of_decide_eq_true h, fun h => decide_eq_true h⟩

/-! ## Buffers -/

theorem inBuffer_iff {s : State} {d : SlotNum} {a : Nat} :
    InBuffer s d a ↔ (s.slot d).mode = .borrowed ∧ (s.slot d).base.toNat ≤ a
      ∧ a < (s.slot d).base.toNat + s.unitLength d := by
  unfold InBuffer State.unitAddress
  constructor
  · rintro ⟨u, hu, h⟩
    split at h
    · simp at h; subst h; exact ⟨‹_›, by omega, by omega⟩
    · simp at h
  · rintro ⟨h1, h2, h3⟩
    exact ⟨a - (s.slot d).base.toNat, by omega, by rw [if_pos h1]; congr; omega⟩

/-- The overlap test of a combination says what partial overlap is, for buffers of equal length. -/
theorem partialOverlap_iff {s : State} {d a : SlotNum} (he : s.unitLength a = s.unitLength d) :
    s.partialOverlap d a = true ↔ PartlyOverlaps s d a := by
  unfold PartlyOverlaps ShareBytes
  simp only [inBuffer_iff]
  simp only [State.partialOverlap, Bool.and_eq_true, beq_iff_eq, bne_iff_ne, decide_eq_true_eq,
    State.unitLength] at he ⊢
  constructor
  · rintro ⟨⟨⟨⟨h1, h2⟩, h3⟩, h4⟩, h5⟩
    exact ⟨⟨max (s.slot d).base.toNat (s.slot a).base.toNat, ⟨h1, by omega, by omega⟩, h2, by omega, by omega⟩, h3⟩
  · rintro ⟨⟨x, ⟨h1, h2, h3⟩, h4, h5, h6⟩, h7⟩
    exact ⟨⟨⟨⟨h1, h4⟩, h7⟩, by omega⟩, by omega⟩

theorem xorUnits_getElem {s : State} {a b : SlotNum} {u : Nat} (h : u < (xorUnits (s.units a) (s.units b)).length) :
    (xorUnits (s.units a) (s.units b))[u] = s.unitRead a u ^^^ s.unitRead b u := by
  simp [xorUnits, State.units]

/-! ## What depends only on parameters, flags and slot descriptors -/

/-- The two states differ at most in buffers, free values and results. -/
structure SameShape (s t : State) : Prop where
  cfg : t.cfg = s.cfg
  halted : t.status.halted = s.status.halted
  cur : t.cur = s.cur
  platform : t.platform = s.platform
  fields : ∀ k, SameFields k s t

namespace SameShape

variable {s t : State}

theorem issued (h : SameShape s t) {i : Instr} (hi : Issued i s) : Issued i t :=
  ⟨by rw [h.halted]; exact hi.1, by rw [h.cfg]; exact hi.2⟩

theorem unitLength (h : SameShape s t) (k : SlotNum) : t.unitLength k = s.unitLength k := by
  simp [State.unitLength, Slot.unitLength, (h.fields k).2.1]

theorem spanIn (h : SameShape s t) (k : RegionKind) (sp : Span) : t.spanIn k sp = s.spanIn k sp := by
  simp [State.spanIn, (h.fields sp.slot).1, (h.fields sp.slot).2.2.2, h.platform]

theorem spanBeyond (h : SameShape s t) (sp : Span) : t.spanBeyond sp = s.spanBeyond sp := by
  simp [State.spanBeyond, (h.fields sp.slot).1, (h.fields sp.slot).2.2.2, h.cfg]

theorem answered (h : SameShape s t) {rs ws : List Span} (ha : Answered rs ws s) : Answered rs ws t := by
  have e1 : t.spanIn .readSideEffects = s.spanIn .readSideEffects := funext (h.spanIn _)
  have e2 : t.readRefused = s.readRefused := funext fun sp => by simp [State.readRefused, h.spanIn, h.spanBeyond]
  have e3 : t.writeRefused = s.writeRefused := funext fun sp => by simp [State.writeRefused, h.spanIn, h.spanBeyond]
  unfold Answered State.onDevice at *
  rw [e1, e2, e3]
  exact ha

theorem bitSpan (h : SameShape s t) (d : SlotNum) : t.bitSpan d = s.bitSpan d := by
  simp [State.bitSpan, State.indexOperand, h.cur]

theorem wholeSlot (h : SameShape s t) (d : SlotNum) : t.wholeSlot d = s.wholeSlot d := by
  simp [State.wholeSlot, h.unitLength]

theorem shareBytes (h : SameShape s t) {x y : SlotNum} : ShareBytes t x y ↔ ShareBytes s x y := by
  simp [ShareBytes, inBuffer_iff, (h.fields x).1, (h.fields y).1, (h.fields x).2.2.2, (h.fields y).2.2.2, h.unitLength]

end SameShape

/-- A command whose frame names one slot keeps the shape. -/
theorem sameShape_of_frame {s t : State} {d : SlotNum} (h1 : SameBlock s t) (h2 : OtherSlotsSame d s t)
    (h3 : SameFields d s t) : SameShape s t := by
  refine ⟨h1.cfg, h1.halted, h1.cur, h1.platform, fun k => ?_⟩
  by_cases hk : k = d
  · subst hk; exact h3
  · rw [SameFields, h2 k hk]; exact ⟨rfl, rfl, rfl, rfl⟩

/-- Units of a slot whose buffer shares no byte with the changed one read as before. -/
theorem unitRead_of_disjoint {s t : State} {d k : SlotNum} (h2 : OtherSlotsSame d s t)
    (h5 : SameExtBut d (fun u => u < s.unitLength d) s t) (hk : k ≠ d) (hs : ¬ ShareBytes s d k) {u : Nat}
    (hu : u < s.unitLength k) : t.unitRead k u = s.unitRead k u := by
  apply unitRead_congr
  · rw [h2 k hk]
  · rw [h2 k hk]
  · rw [h2 k hk]
  · intro a hau
    apply h5
    intro w hw hw'
    exact hs ⟨a, ⟨w, hw, hw'⟩, u, hu, hau⟩

end Sys2Proof.Machine
end

