-- ==== Sys2Proof/Laws/HostSide.lean ====
section
/-! SUPPORT. No command depends on the waiting turns, the host's answer and the draws of its reads, or changes them:
`runCommand` commutes with replacing them. A racing read (20_memory.md R74(a)) looks ahead with `runCommand`. -/
namespace Sys2Proof.Machine

/-- `s` with other waiting turns, answer and count of the host's draws: what only the host sees. -/
def State.hostSide (s : State) (ts : List Turn) (an : Answer) (n : Nat) : State :=
  { s with turns := ts, answer := an, hostDraws := n }

variable (s : State) (ts : List Turn) (an : Answer) (n : Nat)

/-! ## Operations -/

theorem hostSide_unitWrite (d : SlotNum) (u : Nat) (v : Byte) :
    (s.hostSide ts an n).unitWrite d u v = (s.unitWrite d u v).hostSide ts an n := by
  unfold State.unitWrite
  change (match (s.slot d).mode with | .empty => _ | .owned => _ | .borrowed => _) = _
  cases (s.slot d).mode <;> rfl

theorem hostSide_writeUnits (d : SlotNum) (lo : Nat) (vs : List Byte) :
    (s.hostSide ts an n).writeUnits d lo vs = (s.writeUnits d lo vs).hostSide ts an n := by
  induction vs generalizing s lo with
  | nil => rfl
  | cons v vs ih => rw [State.writeUnits, hostSide_unitWrite, ih]; rfl

theorem hostSide_scramble (sp : Span) :
    (s.hostSide ts an n).scramble sp = (s.scramble sp).hostSide ts an n := by
  unfold State.scramble
  rw [show (s.hostSide ts an n).drawn sp.count = s.drawn sp.count from rfl, hostSide_writeUnits]
  rfl

theorem hostSide_scrambleExt (as : List Nat) :
    (s.hostSide ts an n).scrambleExt as = (s.scrambleExt as).hostSide ts an n := by
  induction as generalizing s with
  | nil => rfl
  | cons a as ih => rw [State.scrambleExt, State.scrambleExt, ← ih]; rfl

theorem onNext_ite {f : State → State} {p : Prop} [Decidable p] (x y : Result) :
    onNext f (if p then x else y) = if p then onNext f x else onNext f y := by
  split <;> rfl

theorem hostSide_withAccess (rs ws : List Span) (rc : Span) (b b' : Result)
    (hb : b' = onNext (·.hostSide ts an n) b) :
    withAccess rs ws rc (s.hostSide ts an n) b' = onNext (·.hostSide ts an n) (withAccess rs ws rc s b) := by
  unfold withAccess
  rw [onNext_ite, onNext_ite, hostSide_scramble, hb]
  rfl

theorem hostSide_issue (i : Instr) (b b' : Result) (hb : b' = onNext (·.hostSide ts an n) b) :
    issue i (s.hostSide ts an n) b' = onNext (·.hostSide ts an n) (issue i s b) := by
  unfold issue
  rw [onNext_ite, onNext_ite, hb]
  rfl

/-! ## Commands -/

theorem hostSide_combine (d a b : SlotNum) :
    combine d a b (s.hostSide ts an n) = onNext (·.hostSide ts an n) (combine d a b s) := by
  unfold combine
  rw [show (s.hostSide ts an n).vectorError d [a, b] = s.vectorError d [a, b] from rfl]
  cases s.vectorError d [a, b] with
  | ok =>
    refine hostSide_withAccess s ts an n _ _ _ _ _ ?_
    rw [onNext_ite, hostSide_writeUnits, show (s.hostSide ts an n).wholeSlot d = s.wholeSlot d from rfl,
      hostSide_scramble]
    rfl
  | _ => rfl

theorem hostSide_surviveBy (surv : List Byte → List Byte → Bool) (early : Bool) (d a : SlotNum) :
    surviveBy surv early d a (s.hostSide ts an n) = onNext (·.hostSide ts an n) (surviveBy surv early d a s) := by
  unfold surviveBy
  rw [show (s.hostSide ts an n).vectorError d [a] = s.vectorError d [a] from rfl]
  cases s.vectorError d [a] with
  | ok => simp only [onNext_ite]; rfl
  | _ => rfl

theorem exec_hostSide (i : Instr) :
    exec i (s.hostSide ts an n) = onNext (·.hostSide ts an n) (exec i s) := by
  cases i with
  | init d => refine hostSide_issue s ts an n _ _ _ ?_; simp only [onNext_ite]; rfl
  | initpat d pat flag =>
    refine hostSide_issue s ts an n _ _ _ ?_
    rw [onNext_ite, ← hostSide_withAccess s ts an n _ _ _ _
      (finish false (((s.hostSide ts an n).writeUnits d 0 (List.replicate (s.unitLength d) pat)).setExtFlag d flag))]
    · rfl
    · rw [hostSide_writeUnits]; rfl
  | attach d flag => refine hostSide_issue s ts an n _ _ _ ?_; simp only [onNext_ite]; rfl
  | detach d => exact hostSide_issue s ts an n _ _ _ rfl
  | setbit d val =>
    refine hostSide_issue s ts an n _ _ _ ?_
    rw [onNext_ite, onNext_ite, ← hostSide_withAccess s ts an n _ _ _ _ _ rfl,
      ← hostSide_withAccess s ts an n _ _ _ _
        (finish false ((s.hostSide ts an n).unitWrite d (unitOf s.indexOperand) (s.bitWritten d val)))]
    · rfl
    · rw [hostSide_unitWrite]; rfl
  | getbit d =>
    refine hostSide_issue s ts an n _ _ _ ?_
    rw [onNext_ite, ← hostSide_withAccess s ts an n _ _ _ _ _ rfl]
    rfl
  | xor3 d a b => exact hostSide_issue s ts an n _ _ _ (hostSide_combine s ts an n d a b)
  | xor2 d o => exact hostSide_issue s ts an n _ _ _ (hostSide_combine s ts an n d d o)
  | hassurv d a => exact hostSide_issue s ts an n _ _ _ (hostSide_surviveBy s ts an n _ _ d a)

theorem settleRace_hostSide (i : Instr) (t : State) :
    settleRace i (s.hostSide ts an n) (t.hostSide ts an n) = (settleRace i s t).hostSide ts an n := by
  unfold settleRace
  rw [show (s.hostSide ts an n).cur = s.cur from rfl,
    show raceUnits i (s.hostSide ts an n) = raceUnits i s by cases i <;> rfl,
    show raceDraws i (s.hostSide ts an n) = raceDraws i s from rfl,
    show (t.hostSide ts an n).drawFrom (raceDraws i s) = (t.drawFrom (raceDraws i s)).hostSide ts an n from rfl,
    hostSide_scramble, hostSide_scrambleExt]
  unfold freeResult
  by_cases h : s.cur.raced = []
  · simp only [if_pos h]
  · simp only [if_neg h]
    by_cases h2 : (Instr.hasResult i && (((t.drawFrom (raceDraws i s)).scramble (raceUnits i s)).scrambleExt s.cur.raced).status.err == .ok) = true
    · rw [if_pos h2, if_pos (by exact h2)]; rfl
    · rw [if_neg h2, if_neg (by exact h2)]

theorem runCommand_hostSide :
    runCommand (s.hostSide ts an n) = onNext (·.hostSide ts an n) (runCommand s) := by
  unfold runCommand
  rw [show (s.hostSide ts an n).cur = s.cur from rfl]
  cases decode s.cur.word with
  | error _ => simp only [onNext_ite]; rfl
  | ok i =>
    simp only [exec_hostSide]
    cases exec i s with
    | next t => simp only [onNext, settleRace_hostSide]
    | fault f => rfl
    | refused r => rfl

end Sys2Proof.Machine
end

