-- ==== Sys2Proof/Laws/PerInstr.lean ====
section
/-! SUPPORT. Per-instruction statements. SelectsRow: the word of a command selects its own row of the opcode map
(30_encoding.md R93). -/
namespace Sys2Proof.Laws.SelectsRow

/-- The opcode of a command. -/
def opcodeOf : Instr → Opcode
  | .init _ => .init
  | .initpat _ _ _ => .initpat
  | .attach _ _ => .attach
  | .detach _ => .detach
  | .setbit _ _ => .setbit
  | .getbit _ => .getbit
  | .xor3 _ _ _ => .xor3
  | .xor2 _ _ => .xor2
  | .hassurv _ _ => .hassurv

/-- The row found for the command's word is the row of its opcode, and the word meets the row's mask. -/
def Statement (i : Instr) : Prop :=
  ∃ r : OpcodeRow, rowOf (encode i) = some r ∧ r.op = opcodeOf i ∧ r.selects (encode i) = true

/-- A packed word whose must-be-zero fields are zero under the row's mask. -/
theorem selects_of_fields {op d a b ma mb : BitVec 4} {h l mh ml : Byte} {x : Opcode} {m k : Word}
    (hk : k = packWord 0xF 0 ma mb mh ml) (hm : m = packWord op 0 0 0 0 0) (h1 : a &&& ma = 0) (h2 : b &&& mb = 0)
    (h3 : h &&& mh = 0) (h4 : l &&& ml = 0) : (OpcodeRow.mk x m k).selects (packWord op d a b h l) = true := by
  have h0 : op &&& 15#4 = op := by
    have := BitVec.and_allOnes (x := op)
    simpa [show BitVec.allOnes 4 = 15#4 from by decide] using this
  simp [OpcodeRow.selects, hk, hm, packWord_and, h0, h1, h2, h3, h4]

theorem row_of_op {op d a b : BitVec 4} {h l : Byte} {r : OpcodeRow}
    (hr : opcodeTable.find? (fun r => fieldOP r.matchWord == op) = some r) : rowOf (packWord op d a b h l) = some r := by
  unfold rowOf
  rw [show fieldOP (packWord op d a b h l) = op from packWord_op ..]
  exact hr

theorem init (d : SlotNum) : Statement (.init d) :=
  ⟨⟨.init, 0x10000000, 0xF0FFFFFF⟩, row_of_op (by decide), rfl,
    selects_of_fields (ma := 0xF) (mb := 0xF) (mh := 0xFF) (ml := 0xFF) (by decide) (by decide) (by simp) (by simp)
      (by simp) (by simp)⟩

theorem initpat (d : SlotNum) (pat flag : Byte) : Statement (.initpat d pat flag) :=
  ⟨⟨.initpat, 0x20000000, 0xF0FF0000⟩, row_of_op (by decide), rfl,
    selects_of_fields (ma := 0xF) (mb := 0xF) (mh := 0) (ml := 0) (by decide) (by decide) (by simp) (by simp)
      (by simp) (by simp)⟩

theorem attach (d : SlotNum) (flag : Byte) : Statement (.attach d flag) :=
  ⟨⟨.attach, 0x30000000, 0xF0FFFF00⟩, row_of_op (by decide), rfl,
    selects_of_fields (ma := 0xF) (mb := 0xF) (mh := 0xFF) (ml := 0) (by decide) (by decide) (by simp) (by simp)
      (by simp) (by simp)⟩

theorem detach (d : SlotNum) : Statement (.detach d) :=
  ⟨⟨.detach, 0x40000000, 0xF0FFFFFF⟩, row_of_op (by decide), rfl,
    selects_of_fields (ma := 0xF) (mb := 0xF) (mh := 0xFF) (ml := 0xFF) (by decide) (by decide) (by simp) (by simp)
      (by simp) (by simp)⟩

theorem setbit (d : SlotNum) (val : Bool) : Statement (.setbit d val) :=
  ⟨⟨.setbit, 0x50000000, 0xF0FFFFFE⟩, row_of_op (by decide), rfl,
    selects_of_fields (ma := 0xF) (mb := 0xF) (mh := 0xFF) (ml := 0xFE) (by decide) (by decide) (by simp) (by simp)
      (by simp) (by cases val <;> decide)⟩

theorem getbit (d : SlotNum) : Statement (.getbit d) :=
  ⟨⟨.getbit, 0x60000000, 0xF0FFFFFF⟩, row_of_op (by decide), rfl,
    selects_of_fields (ma := 0xF) (mb := 0xF) (mh := 0xFF) (ml := 0xFF) (by decide) (by decide) (by simp) (by simp)
      (by simp) (by simp)⟩

theorem xor3 (d a b : SlotNum) : Statement (.xor3 d a b) :=
  ⟨⟨.xor3, 0x70000000, 0xF000FFFF⟩, row_of_op (by decide), rfl,
    selects_of_fields (ma := 0) (mb := 0) (mh := 0xFF) (ml := 0xFF) (by decide) (by decide) (by simp) (by simp)
      (by simp) (by simp)⟩

theorem xor2 (d o : SlotNum) : Statement (.xor2 d o) :=
  ⟨⟨.xor2, 0x80000000, 0xF00FFFFF⟩, row_of_op (by decide), rfl,
    selects_of_fields (ma := 0) (mb := 0xF) (mh := 0xFF) (ml := 0xFF) (by decide) (by decide) (by simp) (by simp)
      (by simp) (by simp)⟩

theorem hassurv (d a : SlotNum) : Statement (.hassurv d a) :=
  ⟨⟨.hassurv, 0x90000000, 0xF00FFFFF⟩, row_of_op (by decide), rfl,
    selects_of_fields (ma := 0) (mb := 0xF) (mh := 0xFF) (ml := 0xFF) (by decide) (by decide) (by simp) (by simp)
      (by simp) (by simp)⟩

end Sys2Proof.Laws.SelectsRow
end

