-- ==== Sys2Proof/Tests/Slice0.lean ====
section
/-! SUPPORT. Small tests, each one step; their expected values come from spec/95_test_vectors.md (named in each
comment) or are worked from the rule named. Then one witness for every statement that has hypotheses. -/
namespace Sys2Proof.Machine.Tests

/-! ## Helpers -/

/-- Bytes at consecutive addresses, in canonical form. -/
def bytesAt (a : Nat) : List Byte → Memory
  | [] => []
  | b :: bs => Memory.write (bytesAt (a + 1) bs) a b

def owned (n : Nat) (bs : List Byte) (flag : Byte := 0) : Slot :=
  { mode := .owned, bitLength := BitVec.ofNat 32 n, extFlag := flag, base := 0, own := bytesAt 0 bs }

def borrowed (n base : Nat) (flag : Byte := 0) : Slot :=
  { mode := .borrowed, bitLength := BitVec.ofNat 32 n, extFlag := flag, base := BitVec.ofNat 32 base, own := [] }

/-- The reset machine with other slots and external bytes. -/
def machine (slots : List Slot) (ext : Memory := []) : State := { State.reset with slots := slots, ext := ext }

/-- `s` with the operands written and the word accepted, the engine to move. -/
def issued (s : State) (opa opb : Nat) (w : Nat) : State :=
  State.withFetchWord { s with opa := BitVec.ofNat 32 opa, opb := BitVec.ofNat 32 opb } 32 w

/-- The step answers a next state that passes the check. -/
def nextIs (r : Result) (p : State → Bool) : Bool :=
  match r with
  | .next t => p t
  | .fault _ => false
  | .refused _ => false

/-- The STATUS word after the command is issued by the protocol of R101. -/
def statusAfter (s : State) (opa opb w : Nat) : Option Word :=
  match step (issued s opa opb w) with
  | .next t => some t.status.word
  | .fault _ => none
  | .refused _ => none

/-- The units of a slot after the command. -/
def unitsAfter (s : State) (opa opb w : Nat) (d : SlotNum) : Option (List Byte) :=
  match step (issued s opa opb w) with
  | .next t => some (t.units d)
  | .fault _ => none
  | .refused _ => none

/-- A register after one host turn. -/
def regAfter (s : State) (t : Turn) (off : Nat) : Option Word :=
  match step { s with turns := [t] } with
  | .next t => some (t.register off)
  | .fault _ => none
  | .refused _ => none

/-- Two OWNED slots, a BORROWED one and an EMPTY one. -/
def small : State :=
  machine [owned 16 [0xAA, 0x55] 9, owned 16 [0xFF, 0x00], borrowed 16 0x1000 7, .emptied] (bytesAt 0x1000 [0x12, 0x34])

/-- Three BORROWED slots: at 0x1000, at 0x1001 (partly overlapping) and at 0x2000. -/
def lent : State :=
  machine [borrowed 16 0x1000, borrowed 16 0x1001, borrowed 16 0x2000, owned 8 [0x80]] (bytesAt 0x1000 [0x12, 0x34, 0x56])

/-- The operands in the latch. -/
def ready (s : State) (opa opb : Nat) : State :=
  { s with cur := { word := 0, opa := BitVec.ofNat 32 opa, opb := BitVec.ofNat 32 opb, raced := [] } }

/-- A platform that refuses accesses to one byte. -/
def refusing (a : Nat) (k : RegionKind) (s : State) : State :=
  { s with platform := [{ base := a, size := 1, kind := k }] }

/-- BUSY with a word in the latch, and some turns to come. -/
def running (s : State) (w : Word) (turns : List Turn) : State :=
  { s with cur := { word := w, opa := 3, opb := 0x2000, raced := [] }, status := Status.zero.accepted, turns := turns }

/-- BUSY as `running`, after the host has written some bytes of a named buffer. -/
def racing (s : State) (w : Word) (raced : List Nat) (turns : List Turn) : State :=
  { running s w turns with cur := { (running s w turns).cur with raced := raced } }

def halted (s : State) : State := { s with status := s.status.halting }

/-! ## WellFormed: every slot field a row uses is checked against NV (R94) -/

theorem test_wf_init_vd : (Instr.init 4).wf 4 = false := by decide
theorem test_wf_initpat_vd : (Instr.initpat 4 0 0).wf 4 = false := by decide
theorem test_wf_attach_vd : (Instr.attach 4 0).wf 4 = false := by decide
theorem test_wf_detach_vd : (Instr.detach 4).wf 4 = false := by decide
theorem test_wf_setbit_vd : (Instr.setbit 4 true).wf 4 = false := by decide
theorem test_wf_getbit_vd : (Instr.getbit 4).wf 4 = false := by decide
theorem test_wf_xor3_vd : (Instr.xor3 4 0 1).wf 4 = false := by decide
theorem test_wf_xor3_va : (Instr.xor3 0 4 1).wf 4 = false := by decide
theorem test_wf_xor3_vb : (Instr.xor3 0 1 4).wf 4 = false := by decide
theorem test_wf_xor2_vd : (Instr.xor2 4 0).wf 4 = false := by decide
theorem test_wf_xor2_va : (Instr.xor2 0 4).wf 4 = false := by decide
theorem test_wf_hassurv_vd : (Instr.hassurv 4 0).wf 4 = false := by decide
theorem test_wf_hassurv_va : (Instr.hassurv 0 4).wf 4 = false := by decide
theorem test_wf_accepts_last_slot : (Instr.xor3 3 3 3).wf 4 = true ∧ (Instr.init 15).wf 16 = true := by decide

/-! ## Decode: words written out field by field, OP VD VA VB IMMH IMML (R91, R93) -/

theorem test_decode_init : decode 0b0001_0001_0000_0000_00000000_00000000 = .ok (.init 1) := by decide
theorem test_decode_initpat :
    decode 0b0010_0010_0000_0000_10100101_00110011 = .ok (.initpat 2 0xA5 0x33) := by decide
theorem test_decode_attach : decode 0b0011_0001_0000_0000_00000000_00000101 = .ok (.attach 1 5) := by decide
theorem test_decode_detach : decode 0b0100_1111_0000_0000_00000000_00000000 = .ok (.detach 15) := by decide
theorem test_decode_setbit_set : decode 0b0101_0001_0000_0000_00000000_00000001 = .ok (.setbit 1 true) := by decide
theorem test_decode_setbit_clear : decode 0b0101_0001_0000_0000_00000000_00000000 = .ok (.setbit 1 false) := by decide
theorem test_decode_getbit : decode 0b0110_0011_0000_0000_00000000_00000000 = .ok (.getbit 3) := by decide
theorem test_decode_xor3 : decode 0b0111_0011_0010_0001_00000000_00000000 = .ok (.xor3 3 2 1) := by decide
theorem test_decode_xor2 : decode 0b1000_0001_0010_0000_00000000_00000000 = .ok (.xor2 1 2) := by decide
theorem test_decode_hassurv : decode 0b1001_0000_0001_0000_00000000_00000000 = .ok (.hassurv 0 1) := by decide

/-- 95_test_vectors.md 2.7. -/
theorem test_decode_reserved : decode 0x00000000 = .error .reservedOpcode ∧ decode 0xA0000000 = .error .reservedOpcode
    ∧ decode 0xF0000000 = .error .reservedOpcode := by decide

/-- 95_test_vectors.md 2.3 to 2.7: one word for each row with a must-be-zero bit set. -/
theorem test_decode_must_be_zero :
    decode 0x10100000 = .error .mustBeZero ∧ decode 0x10000001 = .error .mustBeZero
    ∧ decode 0x20010000 = .error .mustBeZero ∧ decode 0x30000101 = .error .mustBeZero
    ∧ decode 0x40000001 = .error .mustBeZero ∧ decode 0x50000002 = .error .mustBeZero
    ∧ decode 0x60000001 = .error .mustBeZero ∧ decode 0x7000FF00 = .error .mustBeZero
    ∧ decode 0x80120000 = .error .mustBeZero ∧ decode 0x90010000 = .error .mustBeZero := by decide

/-- No word selects two rows of the opcode map. -/
theorem test_rows_disjoint :
    opcodeTable.Pairwise (fun r q => r.matchWord &&& (r.mask &&& q.mask) ≠ q.matchWord &&& (r.mask &&& q.mask)) := by
  decide

/-! ## One step per command (95_test_vectors.md, the section named) -/

/-- 1.1, n = 9. -/
theorem test_init_registers :
    nextIs (step (issued State.reset 9 0 0x10000000)) (fun t =>
      t.register 0x040 == 1 && t.register 0x044 == 9 && t.register 0x048 == 2 && t.status.word == 2) = true := by decide

/-- 2.1: 512 bits fit, 513 bits halt the block. -/
theorem test_init_capacity :
    statusAfter State.reset 512 0 0x10000000 = some 0x002 ∧ statusAfter State.reset 513 0 0x10000000 = some 0x30A := by
  decide

/-- 2.2: units, extFlag and SMODE. -/
theorem test_initpat_units :
    nextIs (step (issued (machine [owned 12 []]) 0 0 0x2000A533)) (fun t =>
      t.units 0 == [0xA5, 0xA5] && t.register 0x040 == 0x3301 && t.status.word == 2) = true := by decide

/-- 2.2: EMPTY, and a write the platform refuses: the extension flag stays. -/
theorem test_initpat_errors :
    statusAfter State.reset 0 0 0x20008001 = some 0x402
    ∧ nextIs (step (issued { machine [.emptied, .emptied, borrowed 16 0x1000, .emptied] with
        platform := [{ base := 0x1001, size := 1, kind := .refusesWrites }] } 0 0 0x22001104)) (fun t =>
      t.status.word == 0x702 && (t.slot 2).extFlag == 0) = true := by decide

/-- 1.2, step 1. -/
theorem test_attach_registers :
    nextIs (step (issued State.reset 16 0x1000 0x31000005)) (fun t =>
      t.register 0x050 == 0x502 && t.register 0x054 == 16 && t.register 0x058 == 2 && t.register 0x05C == 0x1000
        && t.status.word == 2) = true := by decide

/-- 2.3: the top of the address space, AW 32 and AW 16. -/
theorem test_attach_range :
    statusAfter State.reset 24 0xFFFFFFFD 0x30000000 = some 0x002
    ∧ statusAfter State.reset 24 0xFFFFFFFE 0x30000000 = some 0x602
    ∧ statusAfter { State.reset with cfg := { Config.standard with aw := 16 } } 9 0xFFFF 0x30000000 = some 0x602
    ∧ statusAfter State.reset 0 0xFFFFFFFF 0x30000007 = some 0x002 := by decide

/-- 2.3: DETACH of a borrowed slot leaves the host's byte. -/
theorem test_detach_borrowed :
    nextIs (step (issued (machine [borrowed 8 0x2000 7] (bytesAt 0x2000 [0x5A])) 0 0 0x40000000)) (fun t =>
      t.slot 0 == Slot.emptied && Memory.read t.ext 0x2000 == 0x5A && t.status.word == 2) = true := by decide

/-- 1.2, step 5: bit 4 of a borrowed `C0` becomes `C8`. -/
theorem test_setbit_borrowed :
    nextIs (step (issued (machine [.emptied, borrowed 16 0x1000] (bytesAt 0x1000 [0xC0, 0x01])) 4 0 0x51000001))
      (fun t => Memory.read t.ext 0x1000 == 0xC8 && Memory.read t.ext 0x1001 == 0x01) = true := by decide

/-- 2.4: clearing a bit keeps the padding bits; the first index past the end is out of bounds. -/
theorem test_setbit_owned :
    unitsAfter (machine [owned 12 [0xA5, 0xA5]]) 0 0 0x50000000 0 = some [0x25, 0xA5]
    ∧ statusAfter (machine [owned 10 [0x00, 0x40]]) 10 0 0x50000001 = some 0x102 := by decide

/-- 1.2, steps 2 to 4, and 2.4 on an EMPTY slot. -/
theorem test_getbit_results :
    statusAfter (machine [.emptied, borrowed 16 0x1000] (bytesAt 0x1000 [0xC0, 0x01])) 0 0 0x61000000 = some 0x006
    ∧ statusAfter (machine [.emptied, borrowed 16 0x1000] (bytesAt 0x1000 [0xC0, 0x01])) 2 0 0x61000000 = some 0x002
    ∧ statusAfter (machine [.emptied, borrowed 16 0x1000] (bytesAt 0x1000 [0xC0, 0x01])) 15 0 0x61000000 = some 0x006
    ∧ statusAfter State.reset 0 0 0x60000000 = some 0x102 := by decide

/-- 2.5, first row. -/
theorem test_xor3_units :
    unitsAfter (machine [owned 16 [0xF0, 0x0F], owned 16 [0xFF, 0x00], owned 16 [], .emptied]) 0 0 0x72010000 2
      = some [0x0F, 0x0F] := by decide

/-- 2.5: EMPTY slots before lengths; 57, 60 and 64 bits combine; slot 4 is illegal. -/
theorem test_xor3_checks :
    statusAfter (machine [.emptied, owned 8 [], owned 16 [], .emptied]) 0 0 0x70120000 = some 0x402
    ∧ statusAfter (machine [owned 60 [], owned 64 [], owned 57 [], .emptied]) 0 0 0x72010000 = some 0x002
    ∧ statusAfter (machine [owned 8 [], owned 8 [], owned 8 [], .emptied]) 0 0 0x74010000 = some 0x502 := by decide

/-- 2.5: in place, and with padding bits. -/
theorem test_xor2_units :
    unitsAfter (machine [owned 16 [0xAA, 0x55], owned 16 [0x0F, 0x0F]]) 0 0 0x80100000 0 = some [0xA5, 0x5A]
    ∧ unitsAfter (machine [owned 4 [0xFF], owned 8 [0x00]]) 0 0 0x81000000 1 = some [0xFF] := by decide

/-- 2.5, last two rows: partial overlap completes; same bases act as one slot. -/
theorem test_xor2_overlap :
    statusAfter (machine [borrowed 16 0x1000, borrowed 16 0x1001] (bytesAt 0x1000 [1, 2, 3])) 0 0 0x80100000 = some 2
    ∧ unitsAfter (machine [borrowed 16 0x1000, borrowed 16 0x1000] (bytesAt 0x1000 [0x12, 0x34])) 0 0 0x80100000 0
      = some [0x00, 0x00] := by decide

def withRule (r : SurvRule) (s : State) : State := { s with cfg := { s.cfg with survRule := r } }

/-- 2.6, rows `00 80 / 80 80` and `00 00 / 00 00`. -/
theorem test_hassurv_rules :
    statusAfter (withRule .allBoth (machine [owned 16 [0x00, 0x80], owned 16 [0x80, 0x80]])) 0 0 0x90100000 = some 0x002
    ∧ statusAfter (withRule .allImplies (machine [owned 16 [0x00, 0x80], owned 16 [0x80, 0x80]])) 0 0 0x90100000
      = some 0x006
    ∧ statusAfter (withRule .allEqual (machine [owned 16 [], owned 16 []])) 0 0 0x90100000 = some 0x006 := by decide

def marks : List Byte := List.replicate 8 0x80

/-- 1.7, the binding case, under every rule; and before the two bits are cleared. -/
theorem test_hassurv_binding_case :
    (∀ r ∈ [SurvRule.allBoth, .allEqual, .allImplies],
      statusAfter (withRule r (machine [owned 64 marks, owned 64 (0x00 :: List.replicate 7 0x80)])) 0 0 0x90100000
        = some 0x002)
    ∧ statusAfter (machine [owned 64 marks, owned 64 marks]) 0 0 0x90100000 = some 0x006 := by decide

/-! ## Registers, acceptance, reset (95_test_vectors.md 2.7, 2.8, 3.5) -/

theorem test_cfg_words :
    State.reset.register 0 = 0x80002004 ∧ State.reset.register 4 = 0x40
    ∧ State.register { State.reset with cfg :=
        { Config.standard with nv := 16, aw := 16, survRule := .allEqual, survMask := 0xC0 } } 0 = 0xC0011010
    ∧ State.reset.register 0x080 = 0 := by decide

/-- STATUS 0x012: bit 4 written 0 stays, written 1 is cleared, other bits are ignored. -/
theorem test_status_write :
    regAfter { State.reset with status := { Status.zero with done := true, ovf := true } } (.regWrite 0x008 4 0) 0x008
      = some 0x012
    ∧ regAfter { State.reset with status := { Status.zero with done := true, ovf := true } }
      (.regWrite 0x008 4 0xFFFFFFFF) 0x008 = some 0x002 := by decide

/-- 3.5, run (b): a CMD write while BUSY sets OVF; the latch keeps the first command. -/
theorem test_cmd_while_busy :
    nextIs (step { issued State.reset 64 0 0x10000000 with turns := [.regWrite 0x018 4 0x50000001] }) (fun t =>
      t.status.word == 0x011 && t.cur.word == 0x10000000) = true := by decide

/-- 2.7: HALTED comes before ILLEGAL; the command completes at the CMD write. -/
theorem test_cmd_while_halted :
    regAfter { State.reset with status := { Status.zero with halted := true, done := true } } (.regWrite 0x018 4 0) 0x008
      = some 0x80A := by decide

theorem test_reset_while_halted :
    regAfter { State.reset with status := { Status.zero with halted := true, done := true, err := .alloc } } .reset 0x008
      = some 0 := by decide

/-- A write to CFG is ignored; OPA reads back. -/
theorem test_window_writes :
    regAfter State.reset (.regWrite 0x000 4 0xFFFFFFFF) 0 = some 0x80002004
    ∧ regAfter State.reset (.regWrite 0x010 4 0x12345678) 0x010 = some 0x12345678
    ∧ regAfter State.reset (.regWrite 0x011 4 0x12345678) 0x010 = some 0 := by decide

/-- A host access outside external memory does not exist (R60). -/
theorem test_host_outside_memory :
    step { State.reset with turns := [.extRead (2 ^ 32)] } = .fault .outsideExternalMemory := by
  rfl

/-- The lines of P1 assemble to the words of 3.1. -/
theorem test_assembler :
    assemble (.init 0 64) = some [{ opa := some 64, opb := none, word := 0x10000000 }]
    ∧ assemble (.setbit1 0 2) = some [{ opa := some 2, opb := none, word := 0x50000001 }]
    ∧ assemble (.clrbit 0 3) = some [{ opa := some 3, opb := none, word := 0x50000000 }]
    ∧ assemble (.attach 0 0x2000 24 0) = some [{ opa := some 24, opb := some 0x2000, word := 0x30000000 }]
    ∧ assemble (.xor3 2 0 1) = some [{ opa := none, opb := none, word := 0x72010000 }]
    ∧ assemble (.init 16 64) = none := by decide

/-- The text of lines: `attach v2, 0x1000, 20, 7` (R116's example), `xor2 v0, v1`, `wait`; a slot above 15 and an
unknown mnemonic emit nothing. -/
theorem test_assembler_text :
    assembleText ['a', 't', 't', 'a', 'c', 'h', ' ', 'v', '2', ',', ' ', '0', 'x', '1', '0', '0', '0', ',', ' ', '2', '0',
      ',', ' ', '7'] = some [{ opa := some 20, opb := some 0x1000, word := 0x32000007 }]
    ∧ assembleText ['x', 'o', 'r', '2', ' ', 'v', '0', ',', ' ', 'v', '1'] = some [{ opa := none, opb := none, word := 0x80100000 }]
    ∧ assembleText ['w', 'a', 'i', 't'] = some []
    ∧ assembleText ['d', 'e', 't', 'a', 'c', 'h', ' ', 'v', '1', '6'] = none
    ∧ assembleText ['n', 'o', 'p'] = none := by decide

/-! ## wait, and what a race frees -/

/-- 3.5, line 3 and line 4 of run (b): `wait` reads 0x11 while the INIT is BUSY and lets the engine move; once DONE = 1
it reads 0x12 and ends. -/
theorem test_wait_reads_status :
    programTurns Config.standard [.wait] = some [.wait]
    ∧ nextIs (step { running small 0x10000000 [.wait] with status := { Status.zero.accepted with ovf := true } })
      (fun t => t.answer == .word 0x11 && t.turns == [.engine, .wait]) = true
    ∧ nextIs (step { small with status := { Status.zero with done := true, ovf := true }, turns := [.wait] })
      (fun t => t.answer == .word 0x12 && t.turns == []) = true := by decide

/-- A line is its operand writes, its CMD write and a `wait` (R101); two lines follow each other. -/
theorem test_program_turns :
    programTurns Config.standard [.init 0 64, .wait, .detach 1]
      = some [.regWrite 0x010 4 64, .regWrite 0x018 4 0x10000000, .wait, .wait, .regWrite 0x018 4 0x41000000, .wait] := by
  decide

/-- R74(b) beside R29 and R111: an INIT of 20 bits writes three units of VD; INIT of 0 bits and beyond MAXUNITS none. -/
theorem test_race_units_of_init :
    raceUnits (.init 2) (ready small 20 0) = { slot := 2, lo := 0, count := 3 }
    ∧ (raceUnits (.init 2) (ready small 0 0)).count = 0 ∧ (raceUnits (.init 2) (ready small 513 0)).count = 0 := by
  decide

/-- `xor2 v2, v15` is illegal with NV = 4 and still names v2: a host write in the buffer of v2 races. -/
theorem test_race_of_illegal_word :
    (running small 0x82F00000 []).racesAt 0x1001 = true ∧ (running small 0x82F00000 []).racesAt 0x1002 = false
    ∧ (running small 0x82F10000 []).racesAt 0x1001 = false := by decide

/-- R74(b) beside R143: SETBIT 0 of bit 3 of unit 0x12 changes it, SETBIT 1 writes no unit. -/
theorem test_race_units_of_setbit :
    raceUnits (.setbit 2 false) (ready small 3 0) = { slot := 2, lo := 0, count := 1 }
    ∧ (raceUnits (.setbit 2 true) (ready small 3 0)).count = 0 := by decide

/-- R15 beside R251 and R74(b): a reset while BUSY draws anew, a reset while idle draws nothing; and the outcome of a
race draws from behind the command's own draws (two units of v2, one choice). -/
theorem test_abandoned_command_draws_anew :
    (blockReset (running small 0x22001104 [])).epoch = small.epoch + 1
    ∧ (blockReset { running small 0x22001104 [] with status := Status.zero }).epoch = small.epoch
    ∧ raceDraws (.initpat 2 0x11 4) (ready small 0 0) = small.draws + 3 := by decide

/-! ## Witnesses: for each statement with hypotheses, a state and operands that meet them together -/

/-- `Inv` of a slot, checked. -/
def slotOk (c : Config) (sl : Slot) : Bool :=
  ((sl.mode == .empty) == (sl.bitLength == 0)) && (sl.mode != .empty || sl.extFlag == 0)
    && (sl.mode == .borrowed || sl.base == 0) && (sl.mode != .owned || decide (sl.unitLength ≤ c.maxUnits))
    && (sl.mode != .borrowed || decide (sl.base.toNat + sl.unitLength ≤ extSize c))
    && Memory.wf sl.own && Memory.below sl.own sl.unitLength && (sl.mode == .owned || sl.own == [])

/-- `Inv` of a state, checked. -/
def stateOk (s : State) : Bool :=
  s.cfg.wf && s.slots.length == s.cfg.nv && s.slots.all (slotOk s.cfg) && (!s.status.busy || !s.status.done)
    && (!s.status.busy || (s.status.err == .ok && !s.status.result)) && (!s.status.result || s.status.err == .ok)
    && Memory.wf s.ext && Memory.below s.ext (extSize s.cfg) && s.cur.raced.all (fun a => decide (a < extSize s.cfg))

theorem slotInv_of_ok {c : Config} {sl : Slot} (h : slotOk c sl = true) : SlotInv c sl := by
  simp only [slotOk, Bool.and_eq_true, Bool.or_eq_true, beq_iff_eq, bne_iff_ne, decide_eq_true_eq] at h
  obtain ⟨⟨⟨⟨⟨⟨⟨h1, h2⟩, h3⟩, h4⟩, h5⟩, h6⟩, h7⟩, h8⟩ := h
  exact ⟨by rw [← beq_iff_eq, h1, beq_iff_eq], fun e => h2.resolve_left (· e), fun e => h3.resolve_left e,
    fun e => h4.resolve_left (· e), fun e => h5.resolve_left (· e), h6, h7, fun e => h8.resolve_left e⟩

theorem inv_of_ok {s : State} (h : stateOk s = true) : Inv s := by
  simp only [stateOk, Bool.and_eq_true, Bool.or_eq_true, beq_iff_eq, Bool.not_eq_true', List.all_eq_true,
    decide_eq_true_eq] at h
  obtain ⟨⟨⟨⟨⟨⟨⟨⟨h1, h2⟩, h3⟩, h4⟩, h5⟩, h6⟩, h7⟩, h8⟩, h9⟩ := h
  exact ⟨h1, h2, fun sl hsl => slotInv_of_ok (h3 sl hsl), fun e => h4.resolve_left (by simp [e]),
    fun e => h5.resolve_left (by simp [e]), fun e => h6.resolve_left (by simp [e]), h7, h8, h9⟩

theorem witness_DecodeThenEncodeGivesBack : ∃ (w : Word) (i : Instr), decode w = .ok i := ⟨0x90100000, .hassurv 0 1, by decide⟩

theorem witness_StepRunsLatchedCommand :
    (∃ (s : State) (i : Instr) (rest : List Turn), EngineNext s rest ∧ s.status.busy = true ∧ decode s.cur.word = .ok i ∧ s.cur.raced = [])
    ∧ (∃ (s : State) (i : Instr) (rest : List Turn), EngineNext s rest ∧ s.status.busy = true ∧ decode s.cur.word = .ok i ∧ s.cur.raced ≠ [])
    ∧ ∃ (w : Nat) (i : Instr), decodeTableWord 32 w = some i :=
  ⟨⟨running small 0x60000000 [.engine], .getbit 0, [], .inl rfl, by decide, by decide, by decide⟩,
    ⟨{ running lent 0x60000000 [] with cur := { word := 0x60000000, opa := 3, opb := 0, raced := [0x1000] } }, .getbit 0,
      [], .inr ⟨rfl, rfl⟩, by decide, by decide, by decide⟩,
    ⟨0x10000000, .init 0, by decide⟩⟩

theorem witness_EngineTurnCompletesOrIdles :
    (∃ (s : State) (rest : List Turn), EngineNext s rest ∧ s.status.busy = true ∧ ∀ r ∈ s.platform, r.kind ≠ .readSideEffects)
    ∧ ∃ (s : State) (rest : List Turn), EngineNext s rest ∧ s.status.busy = false :=
  ⟨⟨refusing 0x1000 .refusesReads (running lent 0 []), [], .inr ⟨rfl, rfl⟩, by decide, by decide⟩,
    ⟨State.reset, [], .inr ⟨rfl, rfl⟩, by decide⟩⟩

theorem witness_EveryCommandCompletesOnce : ∃ (i : Instr) (s : State) (t : State), exec i s = .next t := ⟨.detach 0, small, _, rfl⟩

theorem witness_ErrorsArePrecise :
    ∃ (i : Instr) (s : State) (t : State), exec i s = .next t ∧ t.status.err ≠ .ok ∧ t.status.err ≠ .bus :=
  ⟨.getbit 0, ready small 16 0, _, rfl, by decide, by decide⟩

theorem witness_IllegalWordChangesNothing :
    (∃ (s : State) (rest : List Turn), EngineNext s rest ∧ s.status.busy = true ∧ s.status.halted = false ∧ s.cur.raced = []
      ∧ ∀ i, decode s.cur.word = .ok i → ∃ d ∈ i.slots, s.cfg.nv ≤ d.val)
    ∧ ∃ s : State, decode s.cur.word = .ok (.init 4) ∧ s.cur.raced = [] ∧ ∀ i, decode s.cur.word = .ok i → ∃ d ∈ i.slots, s.cfg.nv ≤ d.val :=
  ⟨⟨running small 0 [], [], .inr ⟨rfl, rfl⟩, by decide, by decide, by decide, fun i h => by
      rw [show decode (running small 0 []).cur.word = .error .reservedOpcode by decide] at h; cases h⟩,
    ⟨running small 0x14000000 [], by decide, rfl, fun i h => by
      rw [show decode (running small 0x14000000 []).cur.word = .ok (.init 4) by decide] at h
      cases h; exact ⟨4, by decide, by decide⟩⟩⟩

theorem witness_HaltedBlocksEveryCommand :
    (∃ s : State, s.status.halted = true)
    ∧ (∃ (s : State) (rest : List Turn), EngineNext s rest ∧ s.status.busy = true ∧ s.status.halted = true ∧ s.cur.raced = [])
    ∧ ∃ (s : State) (w : Word) (rest : List Turn), s.turns = .regWrite (s.cfg.regBase + 0x18) 4 w :: rest ∧ s.status.busy = false
      ∧ s.status.halted = true :=
  ⟨⟨halted small, by decide⟩, ⟨halted (running small 0 []), [], .inr ⟨rfl, rfl⟩, by decide, by decide, by decide⟩,
    ⟨{ halted small with turns := [.regWrite 0x18 4 0] }, 0, [], by decide, by decide, by decide⟩⟩

theorem witness_HaltedSetByInitClearedByReset :
    (∃ (s : State) (t : State), step s = .next t ∧ s.status.halted = true)
    ∧ ∃ (s : State) (t : State), step s = .next t ∧ s.status.halted = false ∧ t.status.halted = true :=
  ⟨⟨{ halted small with turns := [.reset] }, _, rfl, by decide⟩,
    ⟨issued State.reset 513 0 0x10000000, _, rfl, by decide, by decide⟩⟩

theorem witness_EmptySlotIsUnattached :
    (∃ (s : State), Issued (.initpat 3 1 2) s ∧ (s.slot 3).mode = .empty)
    ∧ (∃ (s : State), Issued (.xor3 0 1 3) s ∧ (s.slot 3).mode = .empty) ∧ (∃ (s : State), Issued (.xor2 0 3) s ∧ (s.slot 3).mode = .empty)
    ∧ ∃ (s : State), Issued (.hassurv 0 3) s ∧ (s.slot 3).mode = .empty :=
  ⟨⟨small, ⟨by decide, by decide⟩, by decide⟩, ⟨small, ⟨by decide, by decide⟩, by decide⟩,
    ⟨small, ⟨by decide, by decide⟩, by decide⟩, ⟨small, ⟨by decide, by decide⟩, by decide⟩⟩

theorem witness_UnequalLengthsMismatch :
    ∃ (s : State), Issued (.xor2 0 3) s ∧ (∀ d ∈ (Instr.xor2 0 3).slots, (s.slot d).mode ≠ .empty)
      ∧ ∃ d ∈ (Instr.xor2 0 3).slots, ∃ a ∈ (Instr.xor2 0 3).slots, s.unitLength d ≠ s.unitLength a :=
  ⟨lent, ⟨by decide, by decide⟩, by decide, 0, by decide, 3, by decide, by decide⟩

theorem witness_BadIndexIsOutOfBounds :
    (∃ (s : State), Issued (.setbit 0 true) s ∧ Inv s ∧ (s.slot 0).bitLength.toNat = s.cur.opa.toNat)
    ∧ ∃ (s : State), Issued (.getbit 3) s ∧ Inv s ∧ (s.slot 3).mode = .empty ∧ s.cur.opa = 0 :=
  ⟨⟨ready small 16 0, ⟨by decide, by decide⟩, inv_of_ok (by decide), by decide⟩,
    ⟨ready small 0 0, ⟨by decide, by decide⟩, inv_of_ok (by decide), by decide, by decide⟩⟩

theorem witness_RefusedAccessGivesBus :
    (∃ (s : State), Issued (.initpat 2 1 2) s ∧ (∀ r ∈ s.platform, r.kind ≠ .readSideEffects) ∧ (s.slot 2).mode ≠ .empty
      ∧ s.writeRefused (s.wholeSlot 2) = true)
    ∧ (∃ (s : State), Issued (.setbit 2 true) s ∧ (∀ r ∈ s.platform, r.kind ≠ .readSideEffects) ∧ s.indexValid 2 = true
      ∧ s.writeRefused (s.bitSpan 2) = true ∧ (s.unitRead 2 (s.cur.opa.toNat / 8)).getLsbD (7 - s.cur.opa.toNat % 8) ≠ true)
    ∧ (∃ (s : State), Issued (.getbit 2) s ∧ (∀ r ∈ s.platform, r.kind ≠ .readSideEffects) ∧ s.indexValid 2 = true
      ∧ s.readRefused (s.bitSpan 2) = true)
    ∧ (∃ (s : State), Issued (.xor3 0 1 2) s ∧ (∀ r ∈ s.platform, r.kind ≠ .readSideEffects) ∧ Compatible s 0 [1, 2]
      ∧ s.readRefused (s.wholeSlot 2) = true)
    ∧ (∃ (s : State), Issued (.xor2 2 0) s ∧ (∀ r ∈ s.platform, r.kind ≠ .readSideEffects) ∧ Compatible s 2 [0]
      ∧ s.writeRefused (s.wholeSlot 2) = true)
    ∧ ∃ (s : State), Issued (.hassurv 0 2) s ∧ (∀ r ∈ s.platform, r.kind ≠ .readSideEffects) ∧ Compatible s 0 [2]
      ∧ s.failsReadably 0 2 = false ∧ s.readRefused (s.wholeSlot 2) = true :=
  ⟨⟨refusing 0x1001 .refusesWrites small, ⟨by decide, by decide⟩, by decide, by decide, by decide⟩,
    ⟨refusing 0x1001 .refusesWrites (ready small 15 0), ⟨by decide, by decide⟩, by decide, by decide, by decide, by decide⟩,
    ⟨refusing 0x1001 .refusesReads (ready small 15 0), ⟨by decide, by decide⟩, by decide, by decide, by decide⟩,
    ⟨refusing 0x1001 .refusesReads small, ⟨by decide, by decide⟩, by decide, ⟨by decide, by decide⟩, by decide⟩,
    ⟨refusing 0x1000 .refusesWrites small, ⟨by decide, by decide⟩, by decide, ⟨by decide, by decide⟩, by decide⟩,
    ⟨{ refusing 0x1000 .refusesReads small with
        slots := [owned 16 [0x80, 0x80], owned 8 [], borrowed 16 0x1000, .emptied]
        ext := bytesAt 0x1000 [0x00, 0x80] },
      ⟨by decide, by decide⟩, by decide, ⟨by decide, by decide⟩, by decide, by decide⟩⟩

theorem witness_BusLeavesOnlyReceiverUnitsDrawn :
    ∃ (i : Instr) (s : State) (t : State), Inv s ∧ exec i s = .next t ∧ t.status.err = .bus :=
  ⟨.initpat 2 1 2, refusing 0x1001 .refusesWrites small, _, inv_of_ok (by decide), rfl, by decide⟩

/-- At both ends of the range: 1 bit, and 8 * MAXUNITS bits. -/
theorem witness_InitAllocatesZeroedSlot :
    (∃ (s : State), Issued (.init 3) s ∧ Inv s ∧ s.cur.opa ≠ 0 ∧ ceil8 s.cur.opa.toNat = s.cfg.maxUnits)
    ∧ ∃ (s : State), Issued (.init 2) s ∧ Inv s ∧ s.cur.opa = 1 ∧ ceil8 s.cur.opa.toNat ≤ s.cfg.maxUnits :=
  ⟨⟨ready small 512 0, ⟨by decide, by decide⟩, inv_of_ok (by decide), by decide, by decide⟩,
    ⟨ready small 1 0, ⟨by decide, by decide⟩, inv_of_ok (by decide), by decide, by decide⟩⟩

theorem witness_InitBeyondCapacityHalts :
    ∃ (s : State), Issued (.init 0) s ∧ s.cfg.maxUnits < ceil8 s.cur.opa.toNat ∧ s.cur.opa ≠ 0 :=
  ⟨ready small 513 0, ⟨by decide, by decide⟩, by decide, by decide⟩

theorem witness_ZeroLengthEmptiesSlot :
    (∃ (s : State), Issued (.init 0) s ∧ Inv s ∧ s.cur.opa = 0)
    ∧ ∃ (s : State), Issued (.attach 2 7) s ∧ Inv s ∧ s.cur.opa = 0 ∧ s.cur.opb = 0xFFFFFFFF :=
  ⟨⟨ready small 0 0, ⟨by decide, by decide⟩, inv_of_ok (by decide), by decide⟩,
    ⟨ready small 0 0xFFFFFFFF, ⟨by decide, by decide⟩, inv_of_ok (by decide), by decide, by decide⟩⟩

theorem witness_InitpatFillsEveryUnit :
    ∃ (s : State), Issued (.initpat 2 0xA5 3) s ∧ Inv s ∧ (s.slot 2).mode ≠ .empty ∧ Answered [] [s.wholeSlot 2] s :=
  ⟨refusing 0x1002 .refusesWrites small, ⟨by decide, by decide⟩, inv_of_ok (by decide), by decide,
    ⟨by decide, by decide, by decide⟩⟩

/-- A buffer that ends at the top of the address space. -/
theorem witness_AttachBorrowsBuffer :
    ∃ (s : State), Issued (.attach 0 5) s ∧ Inv s ∧ s.cur.opa ≠ 0 ∧ s.cur.opb.toNat + ceil8 s.cur.opa.toNat = 2 ^ s.cfg.aw :=
  ⟨ready small 24 0xFFFFFFFD, ⟨by decide, by decide⟩, inv_of_ok (by decide), by decide, by decide⟩

/-- One byte past the top, the first address past the top, and exactly at the top. -/
theorem witness_AttachOutsideSpaceIsRange :
    (∃ s, Issued (.attach 0 5) s ∧ s.cur.opa ≠ 0 ∧ s.cur.opb.toNat + ceil8 s.cur.opa.toNat = 2 ^ s.cfg.aw + 1)
    ∧ (∃ s, Issued (.attach 0 5) s ∧ s.cur.opa ≠ 0 ∧ s.cur.opb.toNat = 2 ^ s.cfg.aw)
    ∧ ∃ s, Issued (.attach 0 5) s ∧ s.cur.opa ≠ 0 ∧ s.cur.opb.toNat + ceil8 s.cur.opa.toNat = 2 ^ s.cfg.aw :=
  ⟨⟨ready small 24 0xFFFFFFFE, ⟨by decide, by decide⟩, by decide, by decide⟩,
    ⟨{ ready small 8 0x10000 with cfg := { Config.standard with aw := 16 } }, ⟨by decide, by decide⟩, by decide, by decide⟩,
    ⟨ready small 24 0xFFFFFFFD, ⟨by decide, by decide⟩, by decide, by decide⟩⟩

theorem witness_DetachEmptiesSlot : ∃ (s : State), Issued (.detach 2) s ∧ Inv s :=
  ⟨small, ⟨by decide, by decide⟩, inv_of_ok (by decide)⟩

/-- The last valid index, of a borrowed slot. -/
theorem witness_SetbitWritesOneBit :
    ∃ (s : State), Issued (.setbit 2 true) s ∧ Inv s ∧ s.cur.opa.toNat + 1 = (s.slot 2).bitLength.toNat
      ∧ Answered [s.bitSpan 2] [s.bitSpan 2] s :=
  ⟨ready small 15 0, ⟨by decide, by decide⟩, inv_of_ok (by decide), by decide, ⟨by decide, by decide, by decide⟩⟩

theorem witness_SetbitOfHeldValueWritesNothing :
    (∃ s, Issued (.setbit 2 false) s ∧ s.cur.opa.toNat < (s.slot 2).bitLength.toNat
      ∧ (s.unitRead 2 (s.cur.opa.toNat / 8)).getLsbD (7 - s.cur.opa.toNat % 8) = false ∧ Answered [s.bitSpan 2] [] s)
    ∧ ∃ s, Issued (.setbit 2 false) s ∧ s.cur.opa.toNat < (s.slot 2).bitLength.toNat
      ∧ (s.unitRead 2 (s.cur.opa.toNat / 8)).getLsbD (7 - s.cur.opa.toNat % 8) = false
      ∧ (∀ r ∈ s.platform, r.kind ≠ .readSideEffects) ∧ s.readRefused (s.bitSpan 2) = true :=
  ⟨⟨refusing 0x1001 .refusesWrites (ready small 15 0), ⟨by decide, by decide⟩, by decide, by decide,
      ⟨by decide, by decide, by decide⟩⟩,
    ⟨refusing 0x1001 .refusesReads (ready small 15 0), ⟨by decide, by decide⟩, by decide, by decide, by decide,
      by decide⟩⟩

theorem witness_GetbitReadsOneBit :
    ∃ (s : State), Issued (.getbit 0) s ∧ s.cur.opa.toNat < (s.slot 0).bitLength.toNat ∧ Answered [s.bitSpan 0] [] s :=
  ⟨ready small 15 0, ⟨by decide, by decide⟩, by decide, ⟨by decide, by decide, by decide⟩⟩

theorem witness_SetThenGetReturnsValue :
    ∃ (s : State), Issued (.setbit 0 true) s ∧ Inv s ∧ s.cur.opa.toNat < (s.slot 0).bitLength.toNat
      ∧ Answered [s.bitSpan 0] [s.bitSpan 0] s :=
  ⟨ready small 0 0, ⟨by decide, by decide⟩, inv_of_ok (by decide), by decide, ⟨by decide, by decide, by decide⟩⟩

theorem not_partly {s : State} {d a : SlotNum} (he : s.unitLength a = s.unitLength d) (h : s.partialOverlap d a = false) :
    ¬ PartlyOverlaps s d a := fun hp => by
  rw [(partialOverlap_iff he).2 hp] at h; cases h

/-- Three slots, one of them borrowed; and the receiver twice a source. -/
theorem witness_Xor3CombinesUnits :
    (∃ (s : State), Issued (.xor3 2 0 1) s ∧ Inv s ∧ Compatible s 2 [0, 1] ∧ Answered [s.wholeSlot 0, s.wholeSlot 1] [s.wholeSlot 2] s
      ∧ ¬ PartlyOverlaps s 2 0 ∧ ¬ PartlyOverlaps s 2 1)
    ∧ ∃ (s : State), Issued (.xor3 0 0 0) s ∧ Inv s ∧ Compatible s 0 [0, 0] ∧ Answered [s.wholeSlot 0, s.wholeSlot 0] [s.wholeSlot 0] s
      ∧ ¬ PartlyOverlaps s 0 0 :=
  ⟨⟨small, ⟨by decide, by decide⟩, inv_of_ok (by decide), ⟨by decide, by decide⟩, ⟨by decide, by decide, by decide⟩,
      not_partly (by decide) (by decide), not_partly (by decide) (by decide)⟩,
    ⟨lent, ⟨by decide, by decide⟩, inv_of_ok (by decide), ⟨by decide, by decide⟩, ⟨by decide, by decide, by decide⟩,
      not_partly (by decide) (by decide)⟩⟩

theorem witness_Xor2CombinesInPlace :
    ∃ (s : State), Issued (.xor2 0 2) s ∧ Inv s ∧ Compatible s 0 [2]
      ∧ Answered [s.wholeSlot 0, s.wholeSlot 2] [s.wholeSlot 0] s ∧ ¬ PartlyOverlaps s 0 2 :=
  ⟨lent, ⟨by decide, by decide⟩, inv_of_ok (by decide), ⟨by decide, by decide⟩, ⟨by decide, by decide, by decide⟩,
    not_partly (by decide) (by decide)⟩

theorem witness_PartialOverlapDrawsReceiver :
    (∃ (s : State), Issued (.xor3 0 2 1) s ∧ Inv s ∧ Compatible s 0 [2, 1] ∧ Answered ([2, 1].map s.wholeSlot) [s.wholeSlot 0] s
      ∧ ∃ a ∈ [(2 : SlotNum), 1], PartlyOverlaps s 0 a)
    ∧ ∃ (s : State), Issued (.xor2 0 1) s ∧ Inv s ∧ Compatible s 0 [0, 1] ∧ Answered ([0, 1].map s.wholeSlot) [s.wholeSlot 0] s
      ∧ ∃ a ∈ [(0 : SlotNum), 1], PartlyOverlaps s 0 a :=
  ⟨⟨lent, ⟨by decide, by decide⟩, inv_of_ok (by decide), ⟨by decide, by decide⟩, ⟨by decide, by decide, by decide⟩,
      1, by decide, (partialOverlap_iff (by decide)).1 (by decide)⟩,
    ⟨lent, ⟨by decide, by decide⟩, inv_of_ok (by decide), ⟨by decide, by decide⟩, ⟨by decide, by decide, by decide⟩,
      1, by decide, (partialOverlap_iff (by decide)).1 (by decide)⟩⟩

theorem not_share {s : State} {x y : SlotNum} (h : (s.slot x).mode ≠ .borrowed ∨ (s.slot y).mode ≠ .borrowed) :
    ¬ ShareBytes s x y := fun ⟨_, h1, h2⟩ =>
  h.elim (fun e => e (inBuffer_iff.1 h1).1) (fun e => e (inBuffer_iff.1 h2).1)

theorem witness_XorIsSelfInverse :
    ∃ (s : State), [(2 : SlotNum), 3, 0, 1].Nodup ∧ Inv s ∧ Issued (.xor3 2 0 1) s ∧ Issued (.xor3 3 2 1) s
      ∧ Compatible s 2 [3, 0, 1] ∧ [(2 : SlotNum), 3, 0, 1].Pairwise (fun x y => ¬ ShareBytes s x y)
      ∧ Answered ([(2 : SlotNum), 3, 0, 1].map s.wholeSlot) ([(2 : SlotNum), 3].map s.wholeSlot) s := by
  refine ⟨machine [owned 16 [0x3C, 0x3D], owned 16 [0xA5, 0xA5], borrowed 16 0x1000, owned 16 []], by decide,
    inv_of_ok (by decide), ⟨by decide, by decide⟩, ⟨by decide, by decide⟩, ⟨by decide, by decide⟩, ?_,
    ⟨by decide, by decide, by decide⟩⟩
  simp only [List.pairwise_cons, List.mem_cons, List.not_mem_nil, or_false, forall_eq_or_imp, forall_eq,
    List.Pairwise.nil, and_true, false_imp_iff, implies_true]
  exact ⟨⟨not_share (by decide), not_share (by decide), not_share (by decide)⟩,
    ⟨not_share (by decide), not_share (by decide)⟩, not_share (by decide)⟩

/-- Both units in turn, in falling order; the receiver is a source. -/
theorem witness_EveryDatapathGivesSnapshotResult :
    (∃ (s : State) (groups : List (List Nat)), Issued (.xor3 0 0 2) s ∧ Inv s ∧ Compatible s 0 [0, 2]
      ∧ Answered [s.wholeSlot 0, s.wholeSlot 2] [s.wholeSlot 0] s ∧ ¬ PartlyOverlaps s 0 0 ∧ ¬ PartlyOverlaps s 0 2
      ∧ groups.flatten.Perm (List.range (s.unitLength 0)))
    ∧ ∃ (s : State) (groups : List (List Nat)), Issued (.xor2 0 2) s ∧ Inv s ∧ Compatible s 0 [2]
      ∧ Answered [s.wholeSlot 0, s.wholeSlot 2] [s.wholeSlot 0] s ∧ ¬ PartlyOverlaps s 0 2
      ∧ groups.flatten.Perm (List.range (s.unitLength 0)) :=
  ⟨⟨lent, [[1], [0]], ⟨by decide, by decide⟩, inv_of_ok (by decide), ⟨by decide, by decide⟩,
      ⟨by decide, by decide, by decide⟩, not_partly (by decide) (by decide), not_partly (by decide) (by decide),
      by decide⟩,
    ⟨lent, [[1, 0]], ⟨by decide, by decide⟩, inv_of_ok (by decide), ⟨by decide, by decide⟩,
      ⟨by decide, by decide, by decide⟩, not_partly (by decide) (by decide), by decide⟩⟩

theorem witness_HassurvReducesUnitTests :
    ∃ (s : State), Issued (.hassurv 0 2) s ∧ Compatible s 0 [2] ∧ Answered [s.wholeSlot 0, s.wholeSlot 2] [] s :=
  ⟨small, ⟨by decide, by decide⟩, ⟨by decide, by decide⟩, ⟨by decide, by decide, by decide⟩⟩

def binding : State := machine [owned 64 marks 1, owned 64 (0x00 :: List.replicate 7 0x80) 1, .emptied, .emptied]

/-- Under every rule. -/
theorem witness_BindingCaseByRule :
    ∀ r : SurvRule, ∃ (s : State), s.cfg.survRule = r ∧ Issued (.hassurv 0 1) s ∧ Compatible s 0 [1] ∧ s.unitLength 0 = 8
      ∧ s.cfg.survMask = 0x80 ∧ Answered [s.wholeSlot 0, s.wholeSlot 1] [] s
      ∧ (∀ u, u < 8 → s.unitRead 0 u = 0x80) ∧ s.unitRead 1 0 = 0x00 ∧ ∀ u, 0 < u → u < 8 → s.unitRead 1 u = 0x80 :=
  fun r => ⟨withRule r binding, rfl, ⟨rfl, rfl⟩, ⟨by cases r <;> decide, by cases r <;> decide⟩,
    by cases r <;> decide, rfl, ⟨by cases r <;> decide, by cases r <;> decide, rfl⟩, fun u hu => by interval_cases u <;> rfl, rfl, fun u h0 hu => by interval_cases u <;> rfl⟩

theorem witness_HassurvIsSymmetric :
    ∃ (s : State), Issued (.hassurv 0 1) s ∧ Compatible s 0 [1] ∧ s.cfg.survRule ≠ .allImplies
      ∧ Answered [s.wholeSlot 0, s.wholeSlot 1] [] s :=
  ⟨binding, ⟨by decide, by decide⟩, ⟨by decide, by decide⟩, by decide, ⟨by decide, by decide, by decide⟩⟩

theorem witness_AnySurvivalPredicate :
    (∃ (s : State), Issued (.hassurv 0 1) s)
    ∧ ∃ (surv : List Byte → List Byte → Bool), ∃ (s : State),
      surv [0x80, 0x80, 0x80, 0x80, 0x80, 0x80, 0x80, 0x80] [0x00, 0x80, 0x80, 0x80, 0x80, 0x80, 0x80, 0x80] = false
      ∧ Compatible s 0 [1] ∧ Answered [s.wholeSlot 0, s.wholeSlot 1] [] s ∧ s.unitLength 0 = 8
      ∧ (∀ u, u < 8 → s.unitRead 0 u = 0x80) ∧ s.unitRead 1 0 = 0x00 ∧ ∀ u, 0 < u → u < 8 → s.unitRead 1 u = 0x80 :=
  ⟨⟨binding, by decide, by decide⟩, fun rs os => rs == os, binding, by decide, ⟨by decide, by decide⟩, ⟨by decide, by decide, by decide⟩, by decide,
    fun u hu => by interval_cases u <;> rfl, rfl, fun u h0 hu => by interval_cases u <;> rfl⟩

/-- Unit 0 fails its test; unit 1 of the borrowed slot is refused. -/
theorem witness_HassurvMayStopEarly :
    ∃ (s : State), Issued (.hassurv 0 2) s ∧ Compatible s 0 [2] ∧ s.onDevice [s.wholeSlot 0, s.wholeSlot 2] = false
      ∧ s.failsReadably 0 2 = true ∧ s.readRefused (s.wholeSlot 2) = true :=
  ⟨refusing 0x1001 .refusesReads small, ⟨by decide, by decide⟩, ⟨by decide, by decide⟩, by decide, by decide, by decide⟩

theorem witness_StepKeepsInv : ∃ (s : State) (t : State), Inv s ∧ step s = .next t :=
  ⟨running small 0x60000000 [], _, inv_of_ok (by decide), rfl⟩

theorem witness_UnnamedSlotsAreIsolated : ∃ (i : Instr) (k : SlotNum), k ∉ i.slots ∧ ∃ (t : State), exec i small = .next t :=
  ⟨.xor3 0 1 2, 3, by decide, _, rfl⟩

theorem witness_ExternalWritesStayInNamedBuffers :
    ∃ (i : Instr) (s : State) (t : State) (a : Nat), exec i s = .next t ∧ Memory.read t.ext a ≠ Memory.read s.ext a :=
  ⟨.initpat 2 0xA5 0, small, _, 0x1000, rfl, by decide⟩

theorem witness_ExternalReadsStayInNamedBuffers :
    ∃ (i : Instr) (s : State) (t : State) (e : Memory), (∀ d ∈ Instr.slots i, ∀ a, InBuffer s d a → Memory.read e a = Memory.read s.ext a)
      ∧ exec i s = .next t ∧ e ≠ s.ext := by
  refine ⟨.getbit 2, ready small 15 0, _, Memory.write small.ext 0x3000 1, ?_, rfl, by decide⟩
  intro d hd a ha
  obtain rfl : d = 2 := by simpa [Instr.slots] using hd
  have h := (inBuffer_iff.1 ha).2.2
  have h2 : a < 0x1002 := h
  rw [Memory.read_write, if_neg (by omega)]
  rfl

theorem witness_ExtFlagIsOpaque : ∃ (i : Instr) (s : State) (t : State), exec i s = .next t := ⟨.initpat 2 1 2, small, _, rfl⟩

theorem witness_SlotsChangeOnlyAtCompletion : ∃ (s : State) (t : State), step s = .next t ∧ t.slots ≠ s.slots :=
  ⟨issued State.reset 16 0 0x10000000, _, rfl, by decide⟩

theorem witness_CfgReportsParameters :
    (∃ s : State, s.cfg.wf = true ∧ s.cfg.nv = 16 ∧ s.cfg.aw = 1 ∧ s.cfg.maxUnits = 2 ^ 29)
    ∧ ∃ (s : State) (t : State), step s = .next t :=
  ⟨⟨{ State.reset with cfg := { Config.standard with nv := 16, aw := 1, maxUnits := 2 ^ 29 } }, by decide, rfl, rfl, rfl⟩,
    ⟨{ State.reset with turns := [.regWrite 0 4 7] }, _, rfl⟩⟩

/-- The last slot, and the first number that is none. -/
theorem witness_SlotRegistersShowFields :
    (∃ k : SlotNum, k.val < small.cfg.nv ∧ k.val + 1 = small.cfg.nv) ∧ ∃ k : SlotNum, small.cfg.nv = k.val :=
  ⟨⟨3, by decide, by decide⟩, ⟨4, by decide⟩⟩

/-- The last word of the window, a reserved offset, a misaligned read, an ignored write and a byte write. -/
theorem witness_WindowAccessRules :
    (∃ (s : State) (rest : List Turn), s.turns = .regRead (s.cfg.regBase + 0x13C) 4 :: rest ∧ 0x040 + 0x10 * s.cfg.nv ≤ 0x13C)
    ∧ (∃ (s : State) (rest : List Turn), s.turns = .regRead (s.cfg.regBase + 0x018) 4 :: rest)
    ∧ (∃ (s : State) (rest : List Turn), s.turns = .regRead (s.cfg.regBase + 0x001) 4 :: rest)
    ∧ (∃ (s : State) (v : Word) (rest : List Turn), s.turns = .regWrite (s.cfg.regBase + 0x00C) 4 v :: rest)
    ∧ ∃ (s : State) (v : Word) (rest : List Turn), s.turns = .regWrite (s.cfg.regBase + 0x018) 1 v :: rest :=
  ⟨⟨{ small with turns := [.regRead 0x13C 4] }, [], rfl, by decide⟩, ⟨{ small with turns := [.regRead 0x018 4] }, [], rfl⟩,
    ⟨{ small with turns := [.regRead 0x001 4] }, [], rfl⟩, ⟨{ small with turns := [.regWrite 0x00C 4 7] }, 7, [], rfl⟩,
    ⟨{ small with turns := [.regWrite 0x018 1 7] }, 7, [], rfl⟩⟩

theorem witness_OperandRegistersHoldLastWrite :
    (∃ (s : State) (v : Word) (rest : List Turn), s.turns = .regWrite (s.cfg.regBase + 0x010) 4 v :: rest ∧ s.status.busy = true)
    ∧ ∃ (s : State) (v : Word) (rest : List Turn), s.turns = .regWrite (s.cfg.regBase + 0x014) 4 v :: rest :=
  ⟨⟨running small 0x60000000 [.regWrite 0x010 4 9], 9, [], rfl, rfl⟩,
    ⟨{ small with turns := [.regWrite 0x014 4 9] }, 9, [], rfl⟩⟩

theorem witness_CmdWriteAcceptsOrDrops :
    (∃ (s : State) (w : Word) (rest : List Turn), s.turns = .regWrite (s.cfg.regBase + 0x018) 4 w :: rest ∧ s.status.busy = true)
    ∧ ∃ (s : State) (w : Word) (rest : List Turn), s.turns = .regWrite (s.cfg.regBase + 0x018) 4 w :: rest ∧ s.status.busy = false
      ∧ s.status.halted = false :=
  ⟨⟨running small 0x60000000 [.regWrite 0x018 4 9], 9, [], rfl, rfl⟩,
    ⟨{ small with turns := [.regWrite 0x018 4 9] }, 9, [], rfl, rfl, rfl⟩⟩

theorem witness_OvfIsSticky :
    (∃ (s : State) (t : State), step s = .next t ∧ s.status.ovf = true)
    ∧ (∃ (s : State) (t : State), step s = .next t ∧ s.status.ovf = false ∧ t.status.ovf = true)
    ∧ (∃ (s : State) (v : Word) (rest : List Turn), s.turns = .regWrite (s.cfg.regBase + 0x008) 4 v :: rest
      ∧ v.getLsbD 4 = true)
    ∧ (∃ (s : State) (w : Word) (rest : List Turn), s.turns = .regWrite (s.cfg.regBase + 0x018) 4 w :: rest
      ∧ s.status.busy = true)
    ∧ ∃ (s : State) (rest : List Turn), s.turns = .reset :: rest ∧ s.status.ovf = true :=
  ⟨⟨{ small with status := small.status.dropped, turns := [.regWrite 0x008 4 0x10] }, _, rfl, rfl⟩,
    ⟨running small 0x60000000 [.regWrite 0x018 4 9], _, rfl, rfl, rfl⟩,
    ⟨{ small with turns := [.regWrite 0x008 4 0x10] }, 0x10, [], rfl, rfl⟩,
    ⟨running small 0x60000000 [.regWrite 0x018 4 9], 9, [], rfl, rfl⟩,
    ⟨{ small with status := small.status.dropped, turns := [.reset] }, [], rfl, rfl⟩⟩

/-- A write to the last address, and of an unborrowed byte while a command is BUSY; the first address that is none; a
platform outside the rules; a read while BUSY on another slot; a borrowed byte while idle. -/
theorem witness_HostWriteIsSeenThroughSlot :
    (∃ (s : State) (a : Nat) (v : Byte) (rest : List Turn), s.turns = .extWrite a v :: rest ∧ a + 1 = 2 ^ s.cfg.aw
      ∧ s.cfg.hostWriteVisible = true ∧ s.racesAt a = false)
    ∧ (∃ (s : State) (a : Nat) (v : Byte) (rest : List Turn), s.turns = .extWrite a v :: rest ∧ a < 2 ^ s.cfg.aw
      ∧ s.cfg.hostWriteVisible = true ∧ s.racesAt a = false ∧ s.status.busy = true)
    ∧ (∃ (s : State) (a : Nat) (v : Byte) (rest : List Turn), s.turns = .extWrite a v :: rest ∧ 2 ^ s.cfg.aw = a)
    ∧ (∃ (s : State) (a : Nat) (v : Byte) (rest : List Turn), s.turns = .extWrite a v :: rest ∧ a < 2 ^ s.cfg.aw
      ∧ s.cfg.hostWriteVisible = false)
    ∧ (∃ (s : State) (a : Nat) (rest : List Turn), s.turns = .extRead a :: rest ∧ a < 2 ^ s.cfg.aw ∧ s.racesAt a = false
      ∧ s.status.busy = true)
    ∧ (∃ (s : State) (a : Nat) (rest : List Turn), s.turns = .extRead a :: rest ∧ 2 ^ s.cfg.aw = a)
    ∧ ∃ (s : State) (v : Byte) (rest : List Turn), Issued (.getbit 2) s ∧ Inv s ∧ s.status.busy = false
      ∧ s.cfg.hostWriteVisible = true
      ∧ (s.slot 2).mode = .borrowed ∧ s.opa.toNat < (s.slot 2).bitLength.toNat
      ∧ Answered [{ slot := 2, lo := s.opa.toNat / 8, count := 1 }] [] s
      ∧ s.turns = .extWrite ((s.slot 2).base.toNat + s.opa.toNat / 8) v :: rest :=
  ⟨⟨{ small with turns := [.extWrite 0xFFFFFFFF 1] }, _, 1, [], rfl, by decide, rfl, by decide⟩,
    ⟨running small 0x22001104 [.extWrite 0x1002 1], _, 1, [], rfl, by decide, rfl, by decide, rfl⟩,
    ⟨{ small with turns := [.extWrite (2 ^ 32) 1] }, _, 1, [], rfl, rfl⟩,
    ⟨{ small with cfg := { Config.standard with hostWriteVisible := false }, turns := [.extWrite 0x1000 1] }, _, 1, [], rfl,
      by decide, rfl⟩,
    ⟨running small 0x60000000 [.extRead 0x1000], _, [], rfl, by decide, by decide, rfl⟩,
    ⟨{ small with turns := [.extRead (2 ^ 32)] }, _, [], rfl, rfl⟩,
    { small with opa := 15, turns := [.extWrite 0x1001 0x80] }, 0x80, [], ⟨by decide, by decide⟩, inv_of_ok (by decide),
    rfl, rfl, rfl, by decide, ⟨by decide, by decide, by decide⟩, rfl⟩

/-- The last byte of the buffer, and a byte the host has written during the command. -/
theorem witness_RacingReadSeesOldOrNew :
    (∃ (s : State) (a : Nat) (rest : List Turn), s.turns = .extRead a :: rest ∧ a < 2 ^ s.cfg.aw ∧ s.racesAt a = true
      ∧ a ∉ s.cur.raced)
    ∧ ∃ (s : State) (a : Nat) (rest : List Turn), s.turns = .extRead a :: rest ∧ a < 2 ^ s.cfg.aw ∧ s.racesAt a = true
      ∧ a ∈ s.cur.raced :=
  ⟨⟨running small 0x22001104 [.extRead 0x1001], 0x1001, [], rfl, by decide, by decide, by decide⟩,
    ⟨racing small 0x22001104 [0x1000] [.extRead 0x1000], 0x1000, [], rfl, by decide, by decide, by decide⟩⟩

/-- A racing write; then the engine's turn of a GETBIT, of a SETBIT of the value held, of a command that ends with
UNATTACHED, of an INIT of a BORROWED slot, and of a word that is illegal and names one. -/
theorem witness_RacingWriteFreesResults :
    (∃ (s : State) (a : Nat) (v : Byte) (rest : List Turn), s.turns = .extWrite a v :: rest ∧ a < 2 ^ s.cfg.aw
      ∧ s.cfg.hostWriteVisible = true ∧ s.racesAt a = true)
    ∧ (∃ (s : State) (t : State) (rest : List Turn), Inv s ∧ EngineNext s rest ∧ s.status.busy = true
      ∧ decode s.cur.word = .ok (.getbit 2) ∧ s.cur.raced ≠ [] ∧ exec (.getbit 2) { s with turns := rest } = .next t
      ∧ t.status.err = .ok)
    ∧ (∃ (s : State) (t : State) (rest : List Turn), Inv s ∧ EngineNext s rest ∧ s.status.busy = true
      ∧ decode s.cur.word = .ok (.setbit 2 true) ∧ s.cur.raced ≠ []
      ∧ exec (.setbit 2 true) { s with turns := rest } = .next t
      ∧ (s.unitRead 2 (s.cur.opa.toNat / 8)).getLsbD (7 - s.cur.opa.toNat % 8) = true)
    ∧ (∃ (s : State) (t : State) (rest : List Turn), Inv s ∧ EngineNext s rest ∧ s.status.busy = true
      ∧ decode s.cur.word = .ok (.xor2 2 3) ∧ s.cur.raced ≠ [] ∧ exec (.xor2 2 3) { s with turns := rest } = .next t
      ∧ t.status.err = .unattached)
    ∧ (∃ (s : State) (t : State) (rest : List Turn), Inv s ∧ EngineNext s rest ∧ s.status.busy = true
      ∧ decode s.cur.word = .ok (.init 2) ∧ s.cur.raced ≠ [] ∧ exec (.init 2) { s with turns := rest } = .next t
      ∧ t.status.err = .ok ∧ (raceUnits (.init 2) s).count = 1)
    ∧ ∃ (s : State) (t : State) (rest : List Turn), Inv s ∧ EngineNext s rest ∧ s.status.busy = true
      ∧ decode s.cur.word = .ok (.xor2 2 15) ∧ s.racesAt 0x1001 = true ∧ s.cur.raced = [0x1001]
      ∧ exec (.xor2 2 15) { s with turns := rest } = .next t ∧ t.status.err = .illegal :=
  ⟨⟨running small 0x22001104 [.extWrite 0x1001 1], 0x1001, 1, [], rfl, by decide, rfl, by decide⟩,
    ⟨racing small 0x62000000 [0x1000] [], _, [], inv_of_ok (by decide), .inr ⟨rfl, rfl⟩, rfl, by decide, by decide, rfl,
      by decide⟩,
    ⟨racing small 0x52000001 [0x1001] [], _, [], inv_of_ok (by decide), .inr ⟨rfl, rfl⟩, rfl, by decide, by decide, rfl,
      by decide⟩,
    ⟨racing small 0x82300000 [0x1001] [], _, [], inv_of_ok (by decide), .inr ⟨rfl, rfl⟩, rfl, by decide, by decide, rfl,
      by decide⟩,
    ⟨racing small 0x12000000 [0x1001] [], _, [], inv_of_ok (by decide), .inr ⟨rfl, rfl⟩, rfl, by decide, by decide, rfl,
      by decide, by decide⟩,
    ⟨racing small 0x82F00000 [0x1001] [], _, [], inv_of_ok (by decide), .inr ⟨rfl, rfl⟩, rfl, by decide, by decide, rfl,
      rfl, by decide⟩⟩

theorem witness_ResetRestoresResetState : ∃ (s : State) (rest : List Turn), s.turns = .reset :: rest ∧ s.status.busy = false :=
  ⟨{ halted small with turns := [.reset] }, [], rfl, rfl⟩

/-- A busy INITPAT of a borrowed slot on which the host raced, and a busy word that decodes to nothing. -/
theorem witness_ResetAbandonsCommand :
    (∃ (s : State) (i : Instr) (rest : List Turn), Inv s ∧ s.turns = .reset :: rest ∧ s.status.busy = true
      ∧ decode s.cur.word = .ok i ∧ (receiverOf i s).count = 2 ∧ s.cur.raced ≠ [])
    ∧ ∃ (s : State) (e : DecodeError) (rest : List Turn), s.turns = .reset :: rest ∧ s.status.busy = true
      ∧ decode s.cur.word = .error e :=
  ⟨⟨racing small 0x22001104 [0x1001] [.reset], .initpat 2 0x11 4, [], inv_of_ok (by decide), rfl, rfl, by decide,
      by decide, by decide⟩,
    ⟨running small 0 [.reset], .reservedOpcode, [], rfl, rfl, by decide⟩⟩

/-- The largest operands that fit, and the first that do not. -/
theorem witness_AssemblerEmitsTableWordsOrNothing :
    (∃ d n : Nat, d < 16 ∧ n < 2 ^ 32 ∧ d = 15 ∧ n = 2 ^ 32 - 1) ∧ assemble (.initpat 15 255 256) = none
    ∧ assemble (.setbit 15 0 2) = none :=
  ⟨⟨15, 2 ^ 32 - 1, by decide, by decide, rfl, rfl⟩, by decide, by decide⟩

/-- The last slots; a BORROWED slot; and a `wait` after completion, before any command, and while BUSY. -/
theorem witness_PseudoLinesExpand :
    (∃ d a : Nat, d < 16 ∧ a < 16)
    ∧ (∃ (s : State), Issued (.xor3 2 2 2) s ∧ Inv s ∧ (s.slot 2).mode ≠ .empty
      ∧ Answered [s.wholeSlot 2] [s.wholeSlot 2] s)
    ∧ (∃ (s : State) (rest : List Turn), s.turns = .wait :: rest ∧ s.status.done = true)
    ∧ (∃ (s : State) (rest : List Turn), s.turns = .wait :: rest ∧ s.status.done = false ∧ s.status.busy = false)
    ∧ ∃ (s : State) (rest : List Turn), s.turns = .wait :: rest ∧ s.status.busy = true ∧ s.status.done = false
      ∧ ∀ r ∈ s.platform, r.kind ≠ .readSideEffects :=
  ⟨⟨15, 15, by decide, by decide⟩,
    ⟨small, ⟨by decide, by decide⟩, inv_of_ok (by decide), by decide, ⟨by decide, by decide, by decide⟩⟩,
    ⟨{ small with status := { Status.zero with done := true }, turns := [.wait] }, [], rfl, rfl⟩,
    ⟨{ State.reset with turns := [.wait] }, [], rfl, rfl, rfl⟩,
    ⟨refusing 0x1000 .refusesReads (running small 0x62000000 [.wait]), [], rfl, rfl, rfl, by decide⟩⟩

end Sys2Proof.Machine.Tests
end

section
/-! What no command reads or writes: the parameter `LANES` (00_scope.md R10) and the operand registers OPA and OPB
(the latched operands of `cur` stand in for them, 10_state.md R38). `exec` commutes with every change of the three. -/
namespace Sys2Proof.Machine

/-- `s` with `LANES`, OPA and OPB each mapped by a function of its own: the identity where it is to stay. -/
def mapUnread (l : Nat → Nat) (p q : Word → Word) (s : State) : State :=
  { s with cfg := { s.cfg with lanes := l s.cfg.lanes }, opa := p s.opa, opb := q s.opb }

variable {l : Nat → Nat} {p q : Word → Word} {s t t' : State} {x x' y y' : Result}

/-! ## Writes of units -/

theorem unitWrite_mapUnread (d : SlotNum) (u : Nat) (v : Byte) :
    (mapUnread l p q s).unitWrite d u v = mapUnread l p q (s.unitWrite d u v) := by
  have hslot : (mapUnread l p q s).slot d = s.slot d := rfl
  unfold State.unitWrite
  rw [hslot]
  cases (s.slot d).mode <;> rfl

theorem writeUnits_mapUnread (d : SlotNum) (lo : Nat) (vs : List Byte) :
    (mapUnread l p q s).writeUnits d lo vs = mapUnread l p q (s.writeUnits d lo vs) := by
  induction vs generalizing s lo with
  | nil => rfl
  | cons v vs ih => rw [State.writeUnits, unitWrite_mapUnread, ih, State.writeUnits]

theorem scramble_mapUnread (sp : Span) :
    (mapUnread l p q s).scramble sp = mapUnread l p q (s.scramble sp) :=
  congrArg (State.tick · sp.count) (writeUnits_mapUnread sp.slot sp.lo (s.drawn sp.count))

/-! ## The ways a command branches and ends: if the parts commute with the change, the whole does -/

theorem finish_mapUnread (res : Bool) (h : t' = mapUnread l p q t) :
    finish res t' = onNext (mapUnread l p q) (finish res t) := by
  rw [h]; rfl

theorem ite_mapUnread {c : Prop} [Decidable c] (hx : x' = onNext (mapUnread l p q) x)
    (hy : y' = onNext (mapUnread l p q) y) :
    (if c then x' else y') = onNext (mapUnread l p q) (if c then x else y) := by
  rw [onNext_ite, hx, hy]

theorem issue_mapUnread {i : Instr} (hx : x' = onNext (mapUnread l p q) x) :
    issue i (mapUnread l p q s) x' = onNext (mapUnread l p q) (issue i s x) :=
  ite_mapUnread rfl (ite_mapUnread hx rfl)

theorem withAccess_mapUnread {rs ws : List Span} {rc : Span} (hx : x' = onNext (mapUnread l p q) x) :
    withAccess rs ws rc (mapUnread l p q s) x' = onNext (mapUnread l p q) (withAccess rs ws rc s x) :=
  have hbus : raise .bus ((mapUnread l p q s).scramble rc) = onNext (mapUnread l p q) (raise .bus (s.scramble rc)) := by
    rw [scramble_mapUnread]; rfl
  ite_mapUnread rfl (ite_mapUnread hbus hx)

/-! ## Commands -/

theorem combine_mapUnread (d a b : SlotNum) :
    combine d a b (mapUnread l p q s) = onNext (mapUnread l p q) (combine d a b s) := by
  have herr : (mapUnread l p q s).vectorError d [a, b] = s.vectorError d [a, b] := rfl
  unfold combine
  rw [herr]
  cases s.vectorError d [a, b] with
  | ok =>
    exact withAccess_mapUnread (ite_mapUnread (finish_mapUnread false (scramble_mapUnread (s.wholeSlot d)))
      (finish_mapUnread false (writeUnits_mapUnread d 0 (xorUnits (s.units a) (s.units b)))))
  | _ => rfl

theorem surviveBy_mapUnread (surv : List Byte → List Byte → Bool) (early : Bool) (d a : SlotNum) :
    surviveBy surv early d a (mapUnread l p q s) = onNext (mapUnread l p q) (surviveBy surv early d a s) := by
  have herr : (mapUnread l p q s).vectorError d [a] = s.vectorError d [a] := rfl
  unfold surviveBy
  rw [herr]
  cases s.vectorError d [a] with
  | ok => exact ite_mapUnread rfl (ite_mapUnread (ite_mapUnread (ite_mapUnread rfl rfl) rfl) rfl)
  | _ => rfl

/-- No command reads `LANES`, OPA or OPB, and none writes them. -/
theorem exec_mapUnread (i : Instr) (s : State) :
    exec i (mapUnread l p q s) = onNext (mapUnread l p q) (exec i s) := by
  cases i with
  | init d => exact issue_mapUnread (ite_mapUnread rfl (ite_mapUnread rfl rfl))
  | initpat d pat flag =>
    have hfill := writeUnits_mapUnread (l := l) (p := p) (q := q) (s := s) d 0 (List.replicate (s.unitLength d) pat)
    exact issue_mapUnread (ite_mapUnread rfl (withAccess_mapUnread
      (finish_mapUnread false (congrArg (State.setExtFlag · d flag) hfill))))
  | attach d flag => exact issue_mapUnread (ite_mapUnread rfl (ite_mapUnread rfl rfl))
  | detach d => exact issue_mapUnread rfl
  | setbit d val =>
    exact issue_mapUnread (ite_mapUnread (ite_mapUnread (withAccess_mapUnread rfl) (withAccess_mapUnread
      (finish_mapUnread false (unitWrite_mapUnread d (unitOf s.indexOperand) (s.bitWritten d val))))) rfl)
  | getbit d => exact issue_mapUnread (ite_mapUnread (withAccess_mapUnread rfl) rfl)
  | xor3 d a b => exact issue_mapUnread (combine_mapUnread d a b)
  | xor2 d o => exact issue_mapUnread (combine_mapUnread d d o)
  | hassurv d a => exact issue_mapUnread (surviveBy_mapUnread _ _ d a)

/-! ## The statement of 00_scope.md -/

/-- Settles O44: `exec` commutes with every change of `LANES` (R10). -/
theorem lanesHaveNoEffect : Obligations.LanesHaveNoEffect :=
  fun i s n => exec_mapUnread (l := fun _ => n) (p := id) (q := id) i s

end Sys2Proof.Machine
end

section
/-! What one step of the whole machine can do, said once: `takeTurn_effect` has one case per shape of turn. Every
statement over all steps is a case split of it. -/
namespace Sys2Proof.Machine

/-! ## The turn a step takes -/

/-- The turn the next step takes: the first waiting one, the engine's with none waiting. -/
def State.nextTurn (s : State) : Turn := s.turns.headD .engine

/-- `s` after its first waiting turn is taken off the list. -/
def State.popTurn (s : State) : State := { s with turns := s.turns.tail }

theorem step_eq_takeTurn (s : State) : step s = takeTurn s.nextTurn s.popTurn := by
  unfold step State.nextTurn State.popTurn
  cases h : s.turns with
  | nil =>
    have hs : { s with turns := [] } = s := by rw [← h]
    exact congrArg engineTurn hs.symm
  | cons n ts => rfl

/-- A turn other than the engine's is taken only where it waits. -/
theorem turns_of_nextTurn {s : State} {n : Turn} (h : s.nextTurn = n) (hn : n ≠ .engine) :
    s.turns = n :: s.turns.tail := by
  unfold State.nextTurn at h
  cases ht : s.turns with
  | nil => rw [ht] at h; exact absurd h.symm hn
  | cons m ts => rw [ht] at h; rw [show m = n from h]; rfl

/-! ## The effect of a turn -/

/-- What a turn that answers a next state has done, one case per shape. -/
inductive TurnEffect (n : Turn) (s : State) : State → Prop
  /-- Nothing: the engine idle, an access outside the window, a write the window ignores. -/
  | kept : TurnEffect n s s
  /-- The engine ends a word that decodes to no command. -/
  | undecoded (hb : s.status.busy = true) (e : ErrCode) (he : e = .halted ∨ e = .illegal) :
      TurnEffect n s (complete e false s)
  /-- The engine completes the latched command. -/
  | ran (hb : s.status.busy = true) (i : Instr) (u : State) (hd : decode s.cur.word = .ok i)
      (hx : exec i s = .next u) : TurnEffect n s (settleRace i s u)
  /-- The host has read, or waits. -/
  | answered (an : Answer) (k : Nat) (ts : List Turn) : TurnEffect n s (s.hostSide ts an k)
  /-- A write to STATUS. -/
  | statusWritten (v : Word) (hn : n = .regWrite (s.cfg.regBase + 0x008) 4 v) :
      TurnEffect n s { s with status := s.status.written v }
  /-- A write to OPA or OPB. -/
  | operands (x y : Word) : TurnEffect n s { s with opa := x, opb := y }
  /-- A write to CMD while BUSY. -/
  | dropped (w : Word) (hn : n = .regWrite (s.cfg.regBase + 0x018) 4 w) (hb : s.status.busy = true) :
      TurnEffect n s { s with status := s.status.dropped }
  /-- A write to CMD that starts a command. -/
  | accepted (w : Word) (hb : s.status.busy = false) (hh : s.status.halted = false) : TurnEffect n s (s.accept w)
  /-- A write to CMD of a halted block, whose command completes at once. -/
  | haltedAtOnce (w : Word) (hb : s.status.busy = false) (hh : s.status.halted = true) :
      TurnEffect n s (complete .halted false (s.accept w))
  /-- A host write to external memory that is no race. -/
  | extWritten (a : Nat) (v : Byte) (ha : a < extSize s.cfg) :
      TurnEffect n s { s with ext := Memory.write s.ext a v }
  /-- A host write to external memory that races the command. -/
  | extRaced (a : Nat) (v : Byte) (ha : a < extSize s.cfg) :
      TurnEffect n s
        { s with ext := Memory.write s.ext a v, epoch := s.epoch + 1, cur := { s.cur with raced := a :: s.cur.raced } }
  /-- Reset. -/
  | reset (hn : n = .reset) : TurnEffect n s (blockReset s)
  /-- The platform changes. -/
  | remapped (rs : List Region) : TurnEffect n s { s with platform := rs }

theorem engineTurn_effect {n : Turn} {s t : State} (h : engineTurn s = .next t) : TurnEffect n s t := by
  unfold engineTurn at h
  split at h
  · rename_i hb
    unfold runCommand at h
    split at h
    · split at h
      · obtain rfl := next_inj h
        exact .undecoded hb _ (.inl rfl)
      · obtain rfl := next_inj h
        exact .undecoded hb _ (.inr rfl)
    · rename_i i hd
      split at h
      · rename_i u hx
        obtain rfl := next_inj h
        exact .ran hb i u hd hx
      · cases h
      · cases h
  · obtain rfl := next_inj h
    exact .kept

/-- An address of the window is its base and the offset. -/
theorem eq_of_windowOffset {c : Config} {addr off : Nat} (h : windowOffset c addr = some off) :
    addr = c.regBase + off := by
  unfold windowOffset at h
  split at h
  · rename_i hr
    have : addr - c.regBase = off := by simpa using h
    omega
  · cases h

theorem hostRegRead_effect {n : Turn} {addr size : Nat} {s t : State} (h : hostRegRead addr size s = .next t) :
    TurnEffect n s t := by
  unfold hostRegRead at h
  split at h
  · obtain rfl := next_inj h
    exact .kept
  · split at h
    · obtain rfl := next_inj h
      exact .answered _ s.hostDraws s.turns
    · obtain rfl := next_inj h
      exact .answered _ (s.hostDraws + size) s.turns

theorem writeCmd_effect {n : Turn} {w : Word} {s t : State} (hn : n = .regWrite (s.cfg.regBase + 0x018) 4 w)
    (h : writeCmd w s = .next t) : TurnEffect n s t := by
  unfold writeCmd at h
  split at h
  · obtain rfl := next_inj h
    exact .dropped w hn ‹_›
  · have hb : s.status.busy = false := by simpa using ‹¬ s.status.busy = true›
    split at h
    · obtain rfl := next_inj h
      exact .haltedAtOnce w hb ‹_›
    · obtain rfl := next_inj h
      exact .accepted w hb (by simpa using ‹¬ s.status.halted = true›)

theorem hostRegWrite_effect {addr size : Nat} {v : Word} {s t : State} (h : hostRegWrite addr size v s = .next t) :
    TurnEffect (.regWrite addr size v) s t := by
  unfold hostRegWrite at h
  split at h
  · obtain rfl := next_inj h
    exact .kept
  · rename_i off ho
    have ha := eq_of_windowOffset ho
    split at h
    · rename_i hw
      have hsize : size = 4 := by
        simp only [wordAccess, Bool.and_eq_true, beq_iff_eq] at hw
        exact hw.1
      subst hsize
      split at h
      · obtain rfl := next_inj h
        exact .statusWritten v (by rw [ha, ‹off = 0x008›])
      · split at h
        · obtain rfl := next_inj h
          exact .operands v s.opb
        · split at h
          · obtain rfl := next_inj h
            exact .operands s.opa v
          · split at h
            · exact writeCmd_effect (by rw [ha, ‹off = 0x018›]) h
            · obtain rfl := next_inj h
              exact .kept
    · obtain rfl := next_inj h
      exact .kept

theorem hostExtRead_effect {n : Turn} {a : Nat} {s t : State} (h : hostExtRead a s = .next t) : TurnEffect n s t := by
  unfold hostExtRead at h
  split at h
  · cases h
  · split at h
    · obtain rfl := next_inj h
      exact .answered _ (s.hostDraws + 1) s.turns
    · obtain rfl := next_inj h
      exact .answered _ s.hostDraws s.turns

theorem hostExtWrite_effect {n : Turn} {a : Nat} {v : Byte} {s t : State} (h : hostExtWrite a v s = .next t) :
    TurnEffect n s t := by
  unfold hostExtWrite at h
  split at h
  · cases h
  · rename_i ha
    split at h
    · dsimp only at h
      split at h
      · obtain rfl := next_inj h
        exact .extRaced a v (Nat.lt_of_not_le ha)
      · obtain rfl := next_inj h
        exact .extWritten a v (Nat.lt_of_not_le ha)
    · cases h

/-- Everything a turn that answers a next state can have done. -/
theorem takeTurn_effect {n : Turn} {s t : State} (h : takeTurn n s = .next t) : TurnEffect n s t := by
  cases n with
  | engine => exact engineTurn_effect h
  | regRead addr size => exact hostRegRead_effect h
  | regWrite addr size v => exact hostRegWrite_effect h
  | extRead a => exact hostExtRead_effect h
  | extWrite a v => exact hostExtWrite_effect h
  | reset => obtain rfl := next_inj h; exact .reset rfl
  | wait => obtain rfl := next_inj h; exact .answered _ s.hostDraws _
  | remap regions => obtain rfl := next_inj h; exact .remapped regions
  | mastersClash => cases h

/-- Everything a step can have done, on the state with its turn taken off. -/
theorem step_effect {s t : State} (h : step s = .next t) : TurnEffect s.nextTurn s.popTurn t :=
  takeTurn_effect (step_eq_takeTurn s ▸ h)

/-! ## What a race and a reset leave unchanged -/

@[simp] theorem freeResult_cfg (i : Instr) (s : State) : (freeResult i s).cfg = s.cfg := by
  unfold freeResult; split <;> rfl

/-- A race frees the result bit and no other flag. -/
theorem freeResult_status (i : Instr) (s : State) :
    (freeResult i s).status = { s.status with result := (freeResult i s).status.result } := by
  unfold freeResult; split <;> rfl

@[simp] theorem settleRace_cfg (i : Instr) (s t : State) : (settleRace i s t).cfg = t.cfg := by
  unfold settleRace; split <;> simp

theorem settleRace_status (i : Instr) (s t : State) :
    (settleRace i s t).status = { t.status with result := (settleRace i s t).status.result } := by
  unfold settleRace
  split
  · rfl
  · rw [freeResult_status]; simp

@[simp] theorem settleRace_busy (i : Instr) (s t : State) : (settleRace i s t).status.busy = t.status.busy := by
  rw [settleRace_status]
@[simp] theorem settleRace_done (i : Instr) (s t : State) : (settleRace i s t).status.done = t.status.done := by
  rw [settleRace_status]
@[simp] theorem settleRace_err (i : Instr) (s t : State) : (settleRace i s t).status.err = t.status.err := by
  rw [settleRace_status]
@[simp] theorem settleRace_halted (i : Instr) (s t : State) : (settleRace i s t).status.halted = t.status.halted := by
  rw [settleRace_status]
@[simp] theorem settleRace_ovf (i : Instr) (s t : State) : (settleRace i s t).status.ovf = t.status.ovf := by
  rw [settleRace_status]

@[simp] theorem abandonCommand_cfg (s : State) : (abandonCommand s).cfg = s.cfg := by
  unfold abandonCommand
  split
  · rfl
  · split <;> simp

@[simp] theorem blockReset_cfg (s : State) : (blockReset s).cfg = s.cfg := abandonCommand_cfg s

end Sys2Proof.Machine
end

section
/-! The invariant of the machine holds at reset and every step keeps it (10_state.md R20 to R34, 20_memory.md R62). -/
namespace Sys2Proof.Machine

/-- The invariant reads parameters, slots, STATUS, external memory and the raced bytes alone. -/
theorem Inv.of_same {s t : State} (h : Inv s) (hcfg : t.cfg = s.cfg) (hslots : t.slots = s.slots)
    (hstatus : t.status = s.status) (hext : t.ext = s.ext) (hraced : t.cur.raced = s.cur.raced) : Inv t where
  cfg_wf := by rw [hcfg]; exact h.cfg_wf
  slot_count := by rw [hslots, hcfg]; exact h.slot_count
  slots_inv := by rw [hslots, hcfg]; exact h.slots_inv
  busy_not_done := by rw [hstatus]; exact h.busy_not_done
  busy_clear := by rw [hstatus]; exact h.busy_clear
  result_ok := by rw [hstatus]; exact h.result_ok
  ext_wf := by rw [hext]; exact h.ext_wf
  ext_below := by rw [hext, hcfg]; exact h.ext_below
  raced_below := by rw [hraced, hcfg]; exact h.raced_below

/-- OVF is no part of the invariant. -/
theorem Inv.setOvf {s : State} (h : Inv s) (b : Bool) : Inv { s with status := { s.status with ovf := b } } :=
  ⟨h.cfg_wf, h.slot_count, h.slots_inv, h.busy_not_done, h.busy_clear, h.result_ok, h.ext_wf, h.ext_below,
    h.raced_below⟩

/-- A span without units draws nothing. -/
theorem scramble_of_count_eq_zero (s : State) {sp : Span} (h : sp.count = 0) : s.scramble sp = s := by
  obtain ⟨d, lo, n⟩ := sp
  obtain rfl : n = 0 := h
  exact scramble_none s d lo

/-- Drawing units that lie in the slot's buffer, or none. -/
theorem Inv.scramble_of_fits {s : State} (h : Inv s) {sp : Span}
    (hf : sp.count = 0 ∨ sp.lo + sp.count ≤ s.unitLength sp.slot) : Inv (s.scramble sp) := by
  rcases hf with h0 | hle
  · rw [scramble_of_count_eq_zero s h0]; exact h
  · exact h.scramble hle

/-! ## Commands -/

/-- A command keeps the invariant. -/
theorem Inv.of_exec {i : Instr} {s t : State} (h : Inv s) (he : exec i s = .next t) : Inv t := by
  cases exec_effect he with
  | turnedAway | checked | observed => exact h.complete _ _
  | alloc => exact h.halting.complete _ _
  | emptied d => exact (h.setSlot d (slotInv_emptied _)).complete _ _
  | allocated d hd hi h0 hle => exact (h.setSlot d (slotInv_allocated h0 hle)).complete _ _
  | attached d flag hd hi h0 hr => exact (h.setSlot d (slotInv_attachedAt h0 hr)).complete _ _
  | filled d pat flag hd hi hm ha =>
    exact ((h.writeUnits (by simp)).setExtFlag (by simpa using hm) flag).complete _ _
  | bus d hi hd sp hsp hs hm hc => exact (h.scramble (hs ▸ hc)).complete _ _
  | bitSet d val hd hi hv ha => exact (h.unitWrite (bitSpan_fits hv) _).complete _ _
  | combined d a b hd hd' hi hx hc =>
    have ha := (hc.2 a (by simp)).2
    have hb := (hc.2 b (by simp)).2
    refine (h.writeUnits ?_).complete _ _
    rw [xorUnits_length (by simp [ha, hb]), units_length, ha, Nat.zero_add]
  | overlapped d => exact (h.scramble (by simp [State.wholeSlot])).complete _ _
  | early => exact (h.tick 1).complete _ _

theorem Inv.freeResult {s : State} (h : Inv s) (hb : s.status.busy = false) (i : Instr) : Inv (freeResult i s) := by
  unfold Machine.freeResult
  split
  · rename_i hr
    have he : s.status.err = .ok := by simp_all
    exact ⟨h.cfg_wf, h.slot_count, h.slots_inv, h.busy_not_done, fun e => absurd (hb.symm.trans e) (by simp),
      fun _ => he, h.ext_wf, h.ext_below, h.raced_below⟩
  · exact h

/-- The outcome of a race keeps the invariant: the units and bytes it frees lie in their buffers. -/
theorem Inv.settleRace {i : Instr} {s t : State} (h : Inv s) (he : exec i s = .next t) : Inv (settleRace i s t) := by
  obtain ⟨hcfg, -, -, -, -, -, -, -, -, hb, -⟩ := exec_block he
  unfold Machine.settleRace
  split
  · exact h.of_exec he
  · have hunits : Inv ((t.drawFrom (raceDraws i s)).scramble (raceUnits i s)) :=
      ((h.of_exec he).drawFrom _).scramble_of_fits (by simpa using h.raceUnits_fits he)
    have hbytes : ∀ a ∈ s.cur.raced, a < extSize ((t.drawFrom (raceDraws i s)).scramble (raceUnits i s)).cfg := by
      simpa [hcfg] using h.raced_below
    exact (hunits.scrambleExt hbytes).freeResult (by simpa using hb) i

/-! ## Reset -/

theorem Inv.abandonCommand {s : State} (h : Inv s) : Inv (abandonCommand s) := by
  unfold Machine.abandonCommand
  split
  · exact h
  · rename_i i hd
    split
    · have hunits := h.redraw.scramble_of_fits (sp := receiverOf i s) (by simpa using receiverOf_fits i s)
      exact hunits.scrambleExt (by simpa using h.raced_below)
    · exact h

theorem Inv.blockReset {s : State} (h : Inv s) : Inv (blockReset s) :=
  have ha := h.abandonCommand
  h.afterReset (blockReset_cfg s) rfl rfl rfl ha.ext_wf (abandonCommand_cfg s ▸ ha.ext_below)

/-! ## Steps -/

theorem Inv.turnEffect {n : Turn} {s t : State} (h : Inv s) (he : TurnEffect n s t) : Inv t := by
  cases he with
  | kept => exact h
  | undecoded => exact h.complete _ _
  | ran hb i u hd hx => exact h.settleRace hx
  | answered | operands | remapped => exact h.of_same rfl rfl rfl rfl rfl
  | statusWritten | dropped => exact h.setOvf _
  | accepted w => exact h.accept w
  | haltedAtOnce w => exact (h.accept w).complete _ _
  | extWritten a v ha => exact h.extWrite ha v
  | extRaced a v ha =>
    have hw := h.extWrite ha v
    exact ⟨hw.cfg_wf, hw.slot_count, hw.slots_inv, hw.busy_not_done, hw.busy_clear, hw.result_ok, hw.ext_wf,
      hw.ext_below, by simpa [ha] using h.raced_below⟩
  | reset => exact h.blockReset

/-- Settles O39: every shape of turn keeps the invariant. -/
theorem stepKeepsInv : Obligations.StepKeepsInv := by
  intro s t h hs
  have hpop : Inv s.popTurn := h.of_same rfl rfl rfl rfl rfl
  exact hpop.turnEffect (step_effect hs)

/-- Settles O38: right after reset every slot is EMPTY, every flag 0 and no external byte is listed. -/
theorem invAtReset : Obligations.InvAtReset where
  cfg_wf := by decide
  slot_count := rfl
  slots_inv := by
    intro sl hsl
    rw [List.eq_of_mem_replicate hsl]
    exact slotInv_emptied _
  busy_not_done := fun e => by cases e
  busy_clear := fun e => by cases e
  result_ok := fun e => by cases e
  ext_wf := rfl
  ext_below := rfl
  raced_below := fun a ha => by cases ha

end Sys2Proof.Machine
end

section
/-! The statements over every step of the machine: HALTED, OVF, the slots and the parameters (10_state.md R35, R36, R41,
R44). Each is a case split of `step_effect`. -/
namespace Sys2Proof.Machine

/-- The one command that sets HALTED (40_vector_lifecycle.md R112). -/
theorem exec_sets_halted {i : Instr} {s t : State} (h : exec i s = .next t) (h0 : s.status.halted = false)
    (h1 : t.status.halted = true) :
    t.status.err = .alloc ∧ ∃ d, i = .init d ∧ s.cfg.maxUnits < ceil8 s.cur.opa.toNat := by
  cases exec_effect h with
  | alloc d hd hi hlt => exact ⟨rfl, d, hd, hlt⟩
  | turnedAway | checked | emptied | allocated | attached | filled | bus | bitSet | observed | combined | overlapped
    | early => simp [h0] at h1

/-- Only reset clears HALTED. -/
theorem TurnEffect.halted_kept {n : Turn} {s t : State} (h : TurnEffect n s t) (h1 : s.status.halted = true) :
    t.status.halted = true ∨ n = .reset := by
  cases h with
  | ran hb i u hd hx =>
    obtain ⟨-, -, -, -, -, -, -, -, -, -, -, -, -, hkeep⟩ := exec_block hx
    exact .inl (by simpa using hkeep h1)
  | reset hn => exact .inr hn
  | _ => exact .inl h1

/-- Only an executing INIT beyond MAXUNITS sets HALTED. -/
theorem TurnEffect.halted_set {n : Turn} {s t : State} (h : TurnEffect n s t) (h0 : s.status.halted = false)
    (h1 : t.status.halted = true) :
    s.status.busy = true ∧ t.status.err = .alloc
      ∧ ∃ d, decode s.cur.word = .ok (.init d) ∧ s.cfg.maxUnits < ceil8 s.cur.opa.toNat := by
  cases h with
  | ran hb i u hd hx =>
    obtain ⟨herr, d, rfl, hlt⟩ := exec_sets_halted hx h0 (by simpa using h1)
    exact ⟨hb, by simpa using herr, d, hd, hlt⟩
  | reset => cases h1
  | _ => exact absurd (h0.symm.trans h1) (by simp)

/-- Settles O11: only reset clears HALTED over the shapes of a turn, and only one command sets it. -/
theorem haltedSetByInitClearedByReset : Obligations.HaltedSetByInitClearedByReset := by
  intro s t hs
  have he := step_effect hs
  refine ⟨fun h1 => ?_, fun h0 h1 => he.halted_set h0 h1⟩
  rcases he.halted_kept h1 with hk | hn
  · exact .inl hk
  · exact .inr ⟨_, turns_of_nextTurn hn (by simp)⟩

/-- The slots change only where the latched command completes, or at reset. -/
theorem TurnEffect.slots_changed {n : Turn} {s t : State} (h : TurnEffect n s t) (hne : t.slots ≠ s.slots) :
    (s.status.busy = true ∧ t.status.busy = false ∧ t.status.done = true) ∨ n = .reset := by
  cases h with
  | ran hb i u hd hx =>
    obtain ⟨-, -, -, -, -, -, -, -, -, hbusy, hdone, -⟩ := exec_block hx
    exact .inl ⟨hb, by simpa using hbusy, by simpa using hdone⟩
  | reset hn => exact .inr hn
  | _ => exact absurd rfl hne

/-- Settles O46: of the shapes of a turn only completion and reset touch the slots. -/
theorem slotsChangeOnlyAtCompletion : Obligations.SlotsChangeOnlyAtCompletion := by
  intro s t hs hne
  rcases (step_effect hs).slots_changed hne with hc | hn
  · exact .inl hc
  · exact .inr ⟨_, turns_of_nextTurn hn (by simp)⟩

/-- No turn writes the parameters. -/
theorem TurnEffect.cfg {n : Turn} {s t : State} (h : TurnEffect n s t) : t.cfg = s.cfg := by
  cases h with
  | ran hb i u hd hx => rw [settleRace_cfg, (exec_block hx).1]
  | reset => exact blockReset_cfg s
  | _ => rfl

theorem step_cfg {s t : State} (h : step s = .next t) : t.cfg = s.cfg := (step_effect h).cfg

/-- Only reset and a STATUS write with bit 4 = 1 clear OVF. -/
theorem TurnEffect.ovf_kept {n : Turn} {s t : State} (h : TurnEffect n s t) (h1 : s.status.ovf = true) :
    t.status.ovf = true ∨ n = .reset
      ∨ ∃ v, n = .regWrite (s.cfg.regBase + 0x008) 4 v ∧ v.getLsbD 4 = true := by
  cases h with
  | ran hb i u hd hx =>
    obtain ⟨-, -, -, -, -, -, -, -, hovf, -⟩ := exec_block hx
    exact .inl (by rw [settleRace_ovf, hovf, h1])
  | statusWritten v hn =>
    cases hv : v.getLsbD 4 with
    | true => exact .inr (.inr ⟨v, hn, hv⟩)
    | false => exact .inl (show (s.status.ovf && !v.getLsbD 4) = true by rw [h1, hv]; rfl)
  | dropped => exact .inl rfl
  | reset hn => exact .inr (.inl hn)
  | _ => exact .inl h1

/-- Only a CMD write while BUSY sets OVF. -/
theorem TurnEffect.ovf_set {n : Turn} {s t : State} (h : TurnEffect n s t) (h0 : s.status.ovf = false)
    (h1 : t.status.ovf = true) :
    s.status.busy = true ∧ ∃ w, n = .regWrite (s.cfg.regBase + 0x018) 4 w := by
  cases h with
  | ran hb i u hd hx =>
    obtain ⟨-, -, -, -, -, -, -, -, hovf, -⟩ := exec_block hx
    rw [settleRace_ovf, hovf, h0] at h1
    cases h1
  | statusWritten v hn => simp [Status.written, h0] at h1
  | dropped w hn hb => exact ⟨hb, w, hn⟩
  | reset => cases h1
  | _ => exact absurd (h0.symm.trans h1) (by simp)

end Sys2Proof.Machine
end

section
/-! The registers of the window, field by field (10_state.md R31, R39 to R42). -/
namespace Sys2Proof.Machine

/-! ## STATUS -/

/-- The five flags of STATUS (R31). -/
theorem statusWord_flags (f : Status) :
    f.word.getLsbD 0 = f.busy ∧ f.word.getLsbD 1 = f.done ∧ f.word.getLsbD 2 = f.result
      ∧ f.word.getLsbD 3 = f.halted ∧ f.word.getLsbD 4 = f.ovf := by
  simp only [Status.word, BitVec.getLsbD_cast, BitVec.getLsbD_append]
  simp

/-- The error code of STATUS and its reserved bits (R31). -/
theorem statusWord_fields (f : Status) :
    f.word.extractLsb' 5 3 = 0 ∧ f.word.extractLsb' 8 4 = f.err.code ∧ f.word.extractLsb' 12 20 = 0 := by
  simp only [Status.word, BitVec.extractLsb'_cast, BitVec.extractLsb'_append_eq_ite]
  simp

/-- Settles O47, from the fields of the STATUS word and the code of each error. -/
theorem statusWordLayout : Obligations.StatusWordLayout := by
  intro s
  have hreg : s.register 0x008 = s.status.word := rfl
  obtain ⟨hbusy, hdone, hresult, hhalted, hovf⟩ := statusWord_flags s.status
  obtain ⟨hlow, herr, hhigh⟩ := statusWord_fields s.status
  rw [hreg, herr]
  refine ⟨hbusy, hdone, hresult, hhalted, hovf, hlow, ?_, hhigh⟩
  cases s.status.err <;> rfl

/-! ## CFG and MAXUNITS -/

/-- A number of a register field that fits reads back. -/
theorem toNat_ofNat_of_lt {w n : Nat} (h : n < 2 ^ w) : (BitVec.ofNat w n).toNat = n := by
  rw [BitVec.toNat_ofNat, Nat.mod_eq_of_lt h]

/-- The fields of CFG (R40). -/
theorem cfgWord_fields (c : Config) :
    (cfgWord c).extractLsb' 0 5 = BitVec.ofNat 5 c.nv ∧ (cfgWord c).extractLsb' 5 3 = 0
      ∧ (cfgWord c).extractLsb' 8 6 = BitVec.ofNat 6 c.aw ∧ (cfgWord c).extractLsb' 14 2 = 0
      ∧ (cfgWord c).extractLsb' 16 2 = survCode c.survRule ∧ (cfgWord c).extractLsb' 18 6 = 0
      ∧ (cfgWord c).extractLsb' 24 8 = c.survMask := by
  simp only [cfgWord, BitVec.extractLsb'_cast, BitVec.extractLsb'_append_eq_ite]
  simp

/-- Settles O48: parameters in range fit their fields of CFG, and no turn writes a parameter. -/
theorem cfgReportsParameters : Obligations.CfgReportsParameters := by
  refine ⟨fun s hw => ?_, by decide, by decide, fun s t h => ?_⟩
  · have hcfg : s.register 0x000 = cfgWord s.cfg := rfl
    have hmax : s.register 0x004 = BitVec.ofNat 32 s.cfg.maxUnits := rfl
    simp only [Config.wf, Bool.and_eq_true, decide_eq_true_eq] at hw
    obtain ⟨⟨⟨⟨hnv, hmu⟩, haw⟩, -⟩, -⟩ := hw
    obtain ⟨hf1, hf2, hf3, hf4, hf5, hf6, hf7⟩ := cfgWord_fields s.cfg
    rw [hcfg, hmax, hf1, hf3, hf5]
    refine ⟨toNat_ofNat_of_lt (by omega), hf2, toNat_ofNat_of_lt (by omega), hf4, ?_, hf6, hf7,
      toNat_ofNat_of_lt (by omega)⟩
    cases s.cfg.survRule <;> rfl
  · have hcfg := step_cfg h
    exact ⟨congrArg cfgWord hcfg, congrArg (fun c : Config => BitVec.ofNat 32 c.maxUnits) hcfg⟩

/-! ## Slots -/

/-- The sixteen offsets of slot `k`. -/
theorem register_of_slot (s : State) (k : SlotNum) {j : Nat} (hj : j < 16) :
    s.register (0x040 + 0x10 * k.val + j) = if k.val < s.cfg.nv then (s.slot k).register (j / 4) else 0 := by
  have hk : (0x040 + 0x10 * k.val + j - 0x040) / 0x10 = k.val := by omega
  have hw : (0x040 + 0x10 * k.val + j - 0x040) % 0x10 = j := by omega
  unfold State.register
  rw [if_neg (by omega), if_neg (by omega), if_neg (by omega), if_neg (by omega), if_neg (by omega), if_pos (by omega)]
  simp only [hk, hw]
  rfl

/-- The fields of SMODE (R42). -/
theorem modeWord_fields (sl : Slot) :
    sl.modeWord.extractLsb' 0 2 = sl.mode.code ∧ sl.modeWord.extractLsb' 2 6 = 0
      ∧ sl.modeWord.extractLsb' 8 8 = sl.extFlag ∧ sl.modeWord.extractLsb' 16 16 = 0 := by
  simp only [Slot.modeWord, BitVec.extractLsb'_cast, BitVec.extractLsb'_append_eq_ite]
  simp

/-- A unit length is a number of 32 bits. -/
theorem unitLength_lt (sl : Slot) : sl.unitLength < 2 ^ 32 := by
  have := sl.bitLength.isLt
  unfold Slot.unitLength ceil8
  omega

/-- Settles O49, from the sixteen offsets of a slot and the fields of SMODE. -/
theorem slotRegistersShowFields : Obligations.SlotRegistersShowFields := by
  intro s k
  refine ⟨fun hk => ?_, fun hk j hj => ?_⟩
  · have hreg : ∀ j, j < 16 → s.register (0x040 + 0x10 * k.val + j) = (s.slot k).register (j / 4) := fun j hj => by
      rw [register_of_slot s k hj, if_pos hk]
    have hmode : s.register (0x040 + 0x10 * k.val) = (s.slot k).modeWord := hreg 0x0 (by omega)
    obtain ⟨hf1, hf2, hf3, hf4⟩ := modeWord_fields (s.slot k)
    rw [hmode, hf1, hreg 0x4 (by omega), hreg 0x8 (by omega), hreg 0xC (by omega)]
    refine ⟨?_, hf2, hf3, hf4, rfl, toNat_ofNat_of_lt (unitLength_lt _), rfl⟩
    cases (s.slot k).mode <;> rfl
  · rw [register_of_slot s k hj, if_neg (Nat.not_lt.2 hk)]

end Sys2Proof.Machine
end

section
/-! The host's accesses to the window (10_state.md R36, R38, R43, R47), one equation per access, and the statements
about a step that makes one. -/
namespace Sys2Proof.Machine

variable {s : State} {off : Nat} {rest : List Turn}

/-! ## Accesses -/

theorem step_of_turns {n : Turn} (h : s.turns = n :: rest) : step s = takeTurn n { s with turns := rest } := by
  unfold step; rw [h]

theorem windowOffset_base (c : Config) (h : off < 0x140) : windowOffset c (c.regBase + off) = some off := by
  unfold windowOffset
  rw [if_pos ⟨by omega, by omega⟩, Nat.add_sub_cancel_left]

theorem wordAccess_iff {size : Nat} : wordAccess off size = true ↔ size = 4 ∧ off % 4 = 0 := by simp [wordAccess]

theorem hostRegRead_window (size : Nat) (h : off < 0x140) :
    hostRegRead (s.cfg.regBase + off) size s =
      if size = 4 ∧ off % 4 = 0 then .next { s with answer := .word (s.register off) }
      else .next { s.hostTick size with answer := .bytes (s.hostDrawn size) } := by
  unfold hostRegRead
  simp only [windowOffset_base _ h, wordAccess_iff]

theorem hostRegWrite_window (size : Nat) (v : Word) (h : off < 0x140) :
    hostRegWrite (s.cfg.regBase + off) size v s =
      if size = 4 ∧ off % 4 = 0 then
        if off = 0x008 then .next { s with status := s.status.written v }
        else if off = 0x010 then .next { s with opa := v }
        else if off = 0x014 then .next { s with opb := v }
        else if off = 0x018 then writeCmd v s
        else .next s
      else .next s := by
  unfold hostRegWrite
  simp only [windowOffset_base _ h, wordAccess_iff]

theorem step_write_status {v : Word} (h : s.turns = .regWrite (s.cfg.regBase + 0x008) 4 v :: rest) :
    step s = .next { s with turns := rest, status := s.status.written v } :=
  (step_of_turns h).trans (hostRegWrite_window (s := { s with turns := rest }) 4 v (by omega))

theorem step_write_opa {v : Word} (h : s.turns = .regWrite (s.cfg.regBase + 0x010) 4 v :: rest) :
    step s = .next { s with turns := rest, opa := v } :=
  (step_of_turns h).trans (hostRegWrite_window (s := { s with turns := rest }) 4 v (by omega))

theorem step_write_opb {v : Word} (h : s.turns = .regWrite (s.cfg.regBase + 0x014) 4 v :: rest) :
    step s = .next { s with turns := rest, opb := v } :=
  (step_of_turns h).trans (hostRegWrite_window (s := { s with turns := rest }) 4 v (by omega))

theorem step_write_cmd {w : Word} (h : s.turns = .regWrite (s.cfg.regBase + 0x018) 4 w :: rest) :
    step s = writeCmd w { s with turns := rest } :=
  (step_of_turns h).trans (hostRegWrite_window (s := { s with turns := rest }) 4 w (by omega))

theorem writeCmd_of_busy (w : Word) (h : s.status.busy = true) :
    writeCmd w s = .next { s with status := s.status.dropped } := by
  unfold writeCmd; rw [if_pos h]

theorem writeCmd_of_idle (w : Word) (hb : s.status.busy = false) (hh : s.status.halted = false) :
    writeCmd w s = .next (s.accept w) := by
  unfold writeCmd; rw [if_neg (by simp [hb]), if_neg (by simp [hh])]

/-! ## Statements -/

/-- Settles O51: the two operand writes of the window. -/
theorem operandRegistersHoldLastWrite : Obligations.OperandRegistersHoldLastWrite :=
  fun _ _ _ => ⟨fun h => ⟨step_write_opa h, rfl⟩, fun h => ⟨step_write_opb h, rfl⟩⟩

/-- Settles O52: the CMD write, BUSY or idle. -/
theorem cmdWriteAcceptsOrDrops : Obligations.CmdWriteAcceptsOrDrops := by
  intro s w rest h
  refine ⟨fun hb => (step_write_cmd h).trans (writeCmd_of_busy w hb), fun hb hh => ?_⟩
  rw [step_write_cmd h, writeCmd_of_idle (s := { s with turns := rest }) w hb hh, State.accept, Status.accepted, hh]

/-- Settles O53: OVF over every shape of turn, and the three turns that set and clear it. -/
theorem ovfIsSticky : Obligations.OvfIsSticky := by
  refine ⟨fun s t hs => ⟨fun h1 => ?_, fun h0 h1 => ?_⟩, fun s v rest h => ?_, fun s w rest h hb => ?_,
    fun s rest h => ⟨_, step_of_turns h, rfl⟩⟩
  · rcases (step_effect hs).ovf_kept h1 with hk | hn | ⟨v, hn, hv⟩
    · exact .inl hk
    · exact .inr (.inl ⟨_, turns_of_nextTurn hn (by simp)⟩)
    · exact .inr (.inr ⟨v, _, turns_of_nextTurn hn (by simp), hv⟩)
  · obtain ⟨hb, w, hn⟩ := (step_effect hs).ovf_set h0 h1
    exact ⟨hb, w, _, turns_of_nextTurn hn (by simp)⟩
  · have hovf : (s.status.ovf && !v.getLsbD 4) = if v.getLsbD 4 then false else s.status.ovf := by
      cases v.getLsbD 4 <;> simp
    rw [step_write_status h, Status.written, hovf]
  · exact ⟨_, (step_write_cmd h).trans (writeCmd_of_busy w hb), rfl⟩

/-- Reserved offsets, CMD and the registers of slots that are not there read 0 (R43). -/
theorem register_reserved
    (h : off = 0x00C ∨ off = 0x018 ∨ (0x01C ≤ off ∧ off < 0x040) ∨ 0x040 + 0x10 * s.cfg.nv ≤ off) :
    s.register off = 0 := by
  unfold State.register
  rw [if_neg (by omega), if_neg (by omega), if_neg (by omega), if_neg (by omega), if_neg (by omega)]
  split
  · exact if_neg (by omega)
  · rfl

/-- What an odd read returns is draws of the host's own sequence. -/
theorem isHostDraw_of_mem {t : State} {size : Nat} {b : Byte} (hb : b ∈ s.hostDrawn size)
    (ht : t.hostDraws = s.hostDraws + size) : IsHostDraw s t b := by
  obtain ⟨n, hn, rfl⟩ := List.mem_map.1 hb
  have hlt := List.mem_range.1 hn
  exact ⟨s.hostDraws + n, by omega, by omega, rfl⟩

/-- Settles O50, from the one equation for reads and the one for writes of the window. -/
theorem windowAccessRules : Obligations.WindowAccessRules := by
  intro s off rest hoff
  refine ⟨fun size h => ?_, fun size v h hodd => ?_⟩
  · have hread := (step_of_turns h).trans (hostRegRead_window (s := { s with turns := rest }) size hoff)
    split
    · rename_i ha
      rw [if_pos ha] at hread
      exact ⟨hread, register_reserved⟩
    · rename_i ha
      rw [if_neg ha] at hread
      exact ⟨_, _, hread, rfl, by simp [State.hostDrawn], fun b hb => isHostDraw_of_mem hb rfl⟩
  · refine (step_of_turns h).trans ((hostRegWrite_window (s := { s with turns := rest }) size v hoff).trans ?_)
    split
    · rw [if_neg (by omega), if_neg (by omega), if_neg (by omega), if_neg (by omega)]
    · rfl

end Sys2Proof.Machine
end

section
/-! What no command reads: the slots it does not name (10_state.md R26) and every extension flag (R28). Two states that
become equal when slot `k` is rewritten by such a change stay so under every command. -/
namespace Sys2Proof.Machine

/-- `s` with slot `k` rewritten by `h`. -/
def State.mapSlot (k : SlotNum) (h : Slot → Slot) (s : State) : State := s.setSlot k (h (s.slot k))

/-- The states are equal once slot `k` is rewritten by `h`, and `h` touches nothing a command naming the slots `ds`
reads: `k` is not among them, or `h` writes the extension flag. -/
structure SameRead (ds : List SlotNum) (k : SlotNum) (h : Slot → Slot) (s s' : State) : Prop where
  unread : k ∈ ds → ∃ f, h = fun sl => { sl with extFlag := f }
  eq : s'.mapSlot k h = s.mapSlot k h

/-- The outcomes are equal once slot `k` of a next state is rewritten by `h`. -/
def SameEnd (k : SlotNum) (h : Slot → Slot) (x x' : Result) : Prop :=
  onNext (·.mapSlot k h) x' = onNext (·.mapSlot k h) x

theorem mapSlot_slot_of_ne {k d : SlotNum} (h : Slot → Slot) (s : State) (hd : d ≠ k) :
    (s.mapSlot k h).slot d = s.slot d := slot_setSlot_of_ne hd _

/-- Writing slot `k` itself, then rewriting it. -/
theorem mapSlot_setSlot_same (k : SlotNum) (h : Slot → Slot) (s : State) (sl : Slot) :
    (s.setSlot k sl).mapSlot k h = s.setSlot k (h sl) := by
  by_cases hk : k.val < s.slots.length
  · unfold State.mapSlot
    rw [setSlot_setSlot, slot_setSlot hk, if_pos rfl]
  · rw [setSlot_of_le (Nat.le_of_not_lt hk), State.mapSlot]
    rw [setSlot_of_le (Nat.le_of_not_lt hk), setSlot_of_le (Nat.le_of_not_lt hk)]

/-- Writing another slot commutes with rewriting slot `k`. -/
theorem mapSlot_setSlot_of_ne {k d : SlotNum} (h : Slot → Slot) (s : State) (sl : Slot) (hd : d ≠ k) :
    (s.setSlot d sl).mapSlot k h = (s.mapSlot k h).setSlot d sl := by
  unfold State.mapSlot
  rw [slot_setSlot_of_ne (Ne.symm hd), setSlot_comm s (Ne.symm hd)]

/-- `List.any` sees its predicate at the members of the list only. -/
theorem any_congr_mem {α : Type} {l : List α} {p q : α → Bool} (h : ∀ a ∈ l, p a = q a) : l.any p = l.any q := by
  rw [← Function.id_comp p, ← Function.id_comp q, ← List.any_map, ← List.any_map, List.map_congr_left h]

/-! ## Outcomes -/

section
variable {k : SlotNum} {h : Slot → Slot} {x x' y y' : Result}

theorem SameEnd.ite {c c' : Prop} [Decidable c] [Decidable c'] (hc : c' ↔ c) (hx : SameEnd k h x x')
    (hy : SameEnd k h y y') : SameEnd k h (if c then x else y) (if c' then x' else y') := by
  by_cases h1 : c
  · rw [if_pos h1, if_pos (hc.2 h1)]; exact hx
  · rw [if_neg h1, if_neg fun e => h1 (hc.1 e)]; exact hy

end

namespace SameRead

variable {ds : List SlotNum} {k d a b : SlotNum} {h : Slot → Slot} {s s' : State} (hr : SameRead ds k h s s')
include hr

/-! ## What the two states have in common -/

theorem cfg : s'.cfg = s.cfg := (congrArg State.cfg hr.eq :)
theorem status : s'.status = s.status := (congrArg State.status hr.eq :)
theorem cur : s'.cur = s.cur := (congrArg State.cur hr.eq :)
theorem ext : s'.ext = s.ext := (congrArg State.ext hr.eq :)
theorem epoch : s'.epoch = s.epoch := (congrArg State.epoch hr.eq :)
theorem draws : s'.draws = s.draws := (congrArg State.draws hr.eq :)
theorem platform : s'.platform = s.platform := (congrArg State.platform hr.eq :)

theorem slot_of_ne (hd : d ≠ k) : s'.slot d = s.slot d := by
  rw [← mapSlot_slot_of_ne h s' hd, hr.eq, mapSlot_slot_of_ne h s hd]

/-- A named slot differs at most in its extension flag. -/
theorem fields (hd : d ∈ ds) :
    (s'.slot d).mode = (s.slot d).mode ∧ (s'.slot d).bitLength = (s.slot d).bitLength
      ∧ (s'.slot d).base = (s.slot d).base ∧ (s'.slot d).own = (s.slot d).own := by
  by_cases hk : d = k
  · subst hk
    obtain ⟨f, rfl⟩ := hr.unread hd
    have he : s'.setExtFlag d f = s.setExtFlag d f := hr.eq
    obtain ⟨hm, hl, hb, ho⟩ := slot_setExtFlag_fields s d f d
    obtain ⟨hm', hl', hb', ho'⟩ := slot_setExtFlag_fields s' d f d
    rw [he] at hm' hl' hb' ho'
    exact ⟨hm'.symm.trans hm, hl'.symm.trans hl, hb'.symm.trans hb, ho'.symm.trans ho⟩
  · rw [hr.slot_of_ne hk]
    exact ⟨rfl, rfl, rfl, rfl⟩

theorem unitLength (hd : d ∈ ds) : s'.unitLength d = s.unitLength d := by
  obtain ⟨-, hl, -, -⟩ := hr.fields hd
  unfold State.unitLength Slot.unitLength
  rw [hl]

theorem unattached (hd : d ∈ ds) : s'.unattached d = s.unattached d := by
  obtain ⟨hm, -, -, -⟩ := hr.fields hd
  unfold State.unattached Slot.isEmpty
  rw [hm]

theorem unitRead (hd : d ∈ ds) (u : Nat) : s'.unitRead d u = s.unitRead d u := by
  obtain ⟨hm, -, hb, ho⟩ := hr.fields hd
  exact unitRead_congr hm hb (by rw [ho]) fun _ _ => by rw [hr.ext]

theorem units (hd : d ∈ ds) : s'.units d = s.units d := by
  unfold State.units
  rw [hr.unitLength hd, funext (hr.unitRead hd)]

theorem wholeSlot (hd : d ∈ ds) : s'.wholeSlot d = s.wholeSlot d := by
  unfold State.wholeSlot
  rw [hr.unitLength hd]

theorem indexOperand : s'.indexOperand = s.indexOperand := by
  unfold State.indexOperand
  rw [hr.cur]

theorem bitSpan : s'.bitSpan d = s.bitSpan d := by
  unfold State.bitSpan
  rw [hr.indexOperand]

theorem indexValid (hd : d ∈ ds) : s'.indexValid d = s.indexValid d := by
  obtain ⟨-, hl, -, -⟩ := hr.fields hd
  unfold State.indexValid
  rw [hr.indexOperand, hl]

theorem addressedUnit (hd : d ∈ ds) :
    s'.unitRead d (unitOf s'.indexOperand) = s.unitRead d (unitOf s.indexOperand) := by
  rw [hr.indexOperand, hr.unitRead hd]

theorem bitWritten (hd : d ∈ ds) (val : Bool) : s'.bitWritten d val = s.bitWritten d val := by
  unfold State.bitWritten
  rw [hr.addressedUnit hd, hr.indexOperand]

theorem vectorError {others : List SlotNum} (hd : d ∈ ds) (ho : ∀ a ∈ others, a ∈ ds) :
    s'.vectorError d others = s.vectorError d others := by
  have h1 : others.any s'.unattached = others.any s.unattached := any_congr_mem fun a ha => hr.unattached (ho a ha)
  have h2 : others.any (fun a => s'.unitLength a != s'.unitLength d)
      = others.any (fun a => s.unitLength a != s.unitLength d) :=
    any_congr_mem fun a ha => by rw [hr.unitLength (ho a ha), hr.unitLength hd]
  unfold State.vectorError
  rw [hr.unattached hd, h1, h2]

theorem partialOverlap (hd : d ∈ ds) (ha : a ∈ ds) : s'.partialOverlap d a = s.partialOverlap d a := by
  obtain ⟨hm, -, hb, -⟩ := hr.fields hd
  obtain ⟨hm', -, hb', -⟩ := hr.fields ha
  have hl : (s'.slot d).unitLength = (s.slot d).unitLength := hr.unitLength hd
  have hl' : (s'.slot a).unitLength = (s.slot a).unitLength := hr.unitLength ha
  simp only [State.partialOverlap, hm, hb, hl, hm', hb', hl']

/-! ## What the platform answers them -/

theorem spanIn (kd : RegionKind) {sp : Span} (hs : sp.slot ∈ ds) : s'.spanIn kd sp = s.spanIn kd sp := by
  obtain ⟨hm, -, hb, -⟩ := hr.fields hs
  simp only [State.spanIn, hm, hb, hr.platform]

theorem spanBeyond {sp : Span} (hs : sp.slot ∈ ds) : s'.spanBeyond sp = s.spanBeyond sp := by
  obtain ⟨hm, -, hb, -⟩ := hr.fields hs
  simp only [State.spanBeyond, hm, hb, hr.cfg]

theorem readRefused {sp : Span} (hs : sp.slot ∈ ds) : s'.readRefused sp = s.readRefused sp := by
  unfold State.readRefused
  rw [hr.spanIn _ hs, hr.spanBeyond hs]

theorem writeRefused {sp : Span} (hs : sp.slot ∈ ds) : s'.writeRefused sp = s.writeRefused sp := by
  unfold State.writeRefused
  rw [hr.spanIn _ hs, hr.spanBeyond hs]

theorem onDevice {sps : List Span} (hs : ∀ sp ∈ sps, sp.slot ∈ ds) : s'.onDevice sps = s.onDevice sps :=
  any_congr_mem fun sp h => hr.spanIn _ (hs sp h)

theorem failsReadably (hd : d ∈ ds) (ha : a ∈ ds) : s'.failsReadably d a = s.failsReadably d a := by
  unfold State.failsReadably
  rw [hr.unitLength hd]
  exact any_congr_mem fun u _ => by
    rw [hr.readRefused hd, hr.readRefused ha, hr.unitRead hd, hr.unitRead ha, hr.cfg]

/-! ## Updates -/

/-- The same contents written to the same slot. -/
theorem setSlot (d : SlotNum) (sl : Slot) : SameRead ds k h (s.setSlot d sl) (s'.setSlot d sl) := by
  refine ⟨hr.unread, ?_⟩
  by_cases hd : d = k
  · subst hd
    rw [mapSlot_setSlot_same, mapSlot_setSlot_same, ← setSlot_setSlot s' d (h (s'.slot d)),
      ← setSlot_setSlot s d (h (s.slot d))]
    exact congrArg (State.setSlot · d (h sl)) hr.eq
  · rw [mapSlot_setSlot_of_ne h _ _ hd, mapSlot_setSlot_of_ne h _ _ hd, hr.eq]

/-- The same owned bytes written to a named slot. -/
theorem setOwn (hd : d ∈ ds) (o : Memory) :
    SameRead ds k h (s.setSlot d { s.slot d with own := o }) (s'.setSlot d { s'.slot d with own := o }) := by
  by_cases hk : d = k
  · subst hk
    refine ⟨hr.unread, ?_⟩
    obtain ⟨hm, hl, hb, -⟩ := hr.fields hd
    have hsame := (hr.setSlot d { s.slot d with own := o }).eq
    rw [mapSlot_setSlot_same, mapSlot_setSlot_same] at hsame ⊢
    obtain ⟨f, rfl⟩ := hr.unread hd
    simpa only [hm, hl, hb] using hsame
  · rw [hr.slot_of_ne hk]
    exact hr.setSlot d _

theorem setExtFlag (hd : d ∈ ds) (f : Byte) : SameRead ds k h (s.setExtFlag d f) (s'.setExtFlag d f) := by
  obtain ⟨hm, hl, hb, ho⟩ := hr.fields hd
  have hsl : { s'.slot d with extFlag := f } = { s.slot d with extFlag := f } := by
    simp only [hm, hl, hb, ho]
  unfold State.setExtFlag
  rw [hsl]
  exact hr.setSlot d _

/-- The same change of what is no slot. -/
theorem update (g : State → State) (hg : ∀ t : State, (g t).mapSlot k h = g (t.mapSlot k h)) :
    SameRead ds k h (g s) (g s') :=
  ⟨hr.unread, by rw [hg, hg, hr.eq]⟩

theorem unitWrite (hd : d ∈ ds) (u : Nat) (v : Byte) : SameRead ds k h (s.unitWrite d u v) (s'.unitWrite d u v) := by
  obtain ⟨hm, -, hb, ho⟩ := hr.fields hd
  unfold State.unitWrite
  rw [hm, hb, ho]
  cases (s.slot d).mode with
  | empty => exact hr
  | owned => exact hr.setOwn hd _
  | borrowed =>
    exact hr.update (fun t => { t with ext := Memory.write t.ext ((s.slot d).base.toNat + u) v }) fun _ => rfl

theorem writeUnits (hd : d ∈ ds) (lo : Nat) (vs : List Byte) :
    SameRead ds k h (s.writeUnits d lo vs) (s'.writeUnits d lo vs) := by
  induction vs generalizing s s' lo with
  | nil => exact hr
  | cons v vs ih => exact ih (hr.unitWrite hd lo v) (lo + 1)

theorem scramble {sp : Span} (hs : sp.slot ∈ ds) : SameRead ds k h (s.scramble sp) (s'.scramble sp) := by
  have hdrawn : s'.drawn sp.count = s.drawn sp.count := by
    unfold State.drawn
    rw [hr.epoch, hr.draws]
  unfold State.scramble
  rw [hdrawn]
  exact (hr.writeUnits hs sp.lo _).update (·.tick sp.count) fun _ => rfl

/-! ## Ends of a command -/

/-- Completion, with or without an error. -/
theorem completed (e : ErrCode) (r : Bool) : SameEnd k h (.next (complete e r s)) (.next (complete e r s')) :=
  (congrArg (fun t => (.next (complete e r t) : Result)) hr.eq :)

theorem issue {i : Instr} {x x' : Result} (hx : SameEnd k h x x') :
    SameEnd k h (issue i s x) (issue i s' x') :=
  .ite (by rw [hr.status]) (hr.completed _ _) (.ite (by rw [hr.cfg]) hx (hr.completed _ _))

theorem withAccess {rs ws : List Span} {rc : Span} {x x' : Result} (hrs : ∀ sp ∈ rs, sp.slot ∈ ds)
    (hws : ∀ sp ∈ ws, sp.slot ∈ ds) (hrc : rc.slot ∈ ds) (hx : SameEnd k h x x') :
    SameEnd k h (withAccess rs ws rc s x) (withAccess rs ws rc s' x') := by
  have hdev : s'.onDevice (rs ++ ws) = s.onDevice (rs ++ ws) :=
    hr.onDevice fun sp hsp => (List.mem_append.1 hsp).elim (hrs sp) (hws sp)
  have hread : rs.any s'.readRefused = rs.any s.readRefused := any_congr_mem fun sp hsp => hr.readRefused (hrs sp hsp)
  have hwrite : ws.any s'.writeRefused = ws.any s.writeRefused :=
    any_congr_mem fun sp hsp => hr.writeRefused (hws sp hsp)
  exact .ite (by rw [hdev]) rfl (.ite (by rw [hread, hwrite]) ((hr.scramble hrc).completed _ _) hx)

/-! ## Commands -/

theorem combine (hd : d ∈ ds) (ha : a ∈ ds) (hb : b ∈ ds) :
    SameEnd k h (combine d a b s) (combine d a b s') := by
  unfold Machine.combine
  rw [hr.vectorError hd (by simp [ha, hb]), hr.wholeSlot hd, hr.wholeSlot ha, hr.wholeSlot hb]
  cases s.vectorError d [a, b] with
  | ok =>
    refine hr.withAccess (by simp [State.wholeSlot, ha, hb]) (by simp [State.wholeSlot, hd]) hd (.ite ?_ ?_ ?_)
    · rw [hr.partialOverlap hd ha, hr.partialOverlap hd hb]
    · exact (hr.scramble hd).completed _ _
    · rw [hr.units ha, hr.units hb]
      exact (hr.writeUnits hd 0 _).completed _ _
  | _ => exact hr.completed _ _

theorem surviveBy (surv : List Byte → List Byte → Bool) (early : Bool) (hd : d ∈ ds) (ha : a ∈ ds) :
    SameEnd k h (surviveBy surv early d a s) (surviveBy surv early d a s') := by
  have hfree : s'.freeBit = s.freeBit := by
    unfold State.freeBit
    rw [hr.epoch, hr.draws]
  have htick := hr.update (·.tick 1) fun _ => rfl
  unfold Machine.surviveBy
  rw [hr.vectorError hd (by simp [ha]), hr.wholeSlot hd, hr.wholeSlot ha, hr.units hd, hr.units ha]
  cases s.vectorError d [a] with
  | ok =>
    refine .ite ?_ rfl (.ite ?_ (.ite Iff.rfl (.ite ?_ ?_ ?_) (hr.completed _ _)) (hr.completed _ _))
    · rw [hr.onDevice (by simp [State.wholeSlot, hd, ha])]
    · rw [hr.readRefused (sp := s.wholeSlot d) hd, hr.readRefused (sp := s.wholeSlot a) ha]
    · rw [hfree]
    · exact htick.completed _ _
    · exact htick.completed _ _
  | _ => exact hr.completed _ _

end SameRead

/-- A command does the same in two states that differ in nothing it reads. -/
theorem exec_sameEnd (i : Instr) {k : SlotNum} {h : Slot → Slot} {s s' : State} (hr : SameRead i.slots k h s s') :
    SameEnd k h (exec i s) (exec i s') := by
  cases i with
  | init d =>
    have hlen : s'.lengthOperand = s.lengthOperand := congrArg Latch.opa hr.cur
    refine hr.issue ?_
    rw [hlen]
    exact .ite Iff.rfl ((hr.setSlot d _).completed _ _) (.ite (by rw [hr.cfg])
      ((hr.update (fun t => { t with status := t.status.halting }) fun _ => rfl).completed _ _)
      ((hr.setSlot d _).completed _ _))
  | initpat d pat flag =>
    have hd : d ∈ (Instr.initpat d pat flag).slots := by simp [Instr.slots]
    refine hr.issue ?_
    rw [hr.unattached hd, hr.wholeSlot hd, hr.unitLength hd]
    exact .ite Iff.rfl (hr.completed _ _) (hr.withAccess (by simp) (by simpa [State.wholeSlot] using hd) hd
      (((hr.writeUnits hd 0 _).setExtFlag hd flag).completed _ _))
  | attach d flag =>
    have hlen : s'.lengthOperand = s.lengthOperand := congrArg Latch.opa hr.cur
    have haddr : s'.addressOperand = s.addressOperand := congrArg Latch.opb hr.cur
    refine hr.issue ?_
    rw [hlen, haddr, hr.cfg]
    exact .ite Iff.rfl ((hr.setSlot d _).completed _ _) (.ite Iff.rfl (hr.completed _ _)
      ((hr.setSlot d _).completed _ _))
  | detach d => exact hr.issue ((hr.setSlot d _).completed _ _)
  | setbit d val =>
    have hd : d ∈ (Instr.setbit d val).slots := by simp [Instr.slots]
    have hsp : ∀ sp ∈ [s.bitSpan d], sp.slot ∈ (Instr.setbit d val).slots := by simpa [State.bitSpan] using hd
    refine hr.issue ?_
    rw [hr.indexValid hd, hr.bitWritten hd, hr.addressedUnit hd, hr.bitSpan, hr.indexOperand]
    exact .ite Iff.rfl (.ite Iff.rfl (hr.withAccess hsp (by simp) hd (hr.completed _ _))
      (hr.withAccess hsp hsp hd ((hr.unitWrite hd _ _).completed _ _))) (hr.completed _ _)
  | getbit d =>
    have hd : d ∈ (Instr.getbit d).slots := by simp [Instr.slots]
    have hsp : ∀ sp ∈ [s.bitSpan d], sp.slot ∈ (Instr.getbit d).slots := by simpa [State.bitSpan] using hd
    refine hr.issue ?_
    rw [hr.indexValid hd, hr.addressedUnit hd, hr.bitSpan, hr.indexOperand]
    exact .ite Iff.rfl (hr.withAccess hsp (by simp) hd (hr.completed _ _)) (hr.completed _ _)
  | xor3 d a b => exact hr.issue (hr.combine (by simp [Instr.slots]) (by simp [Instr.slots]) (by simp [Instr.slots]))
  | xor2 d o => exact hr.issue (hr.combine (by simp [Instr.slots]) (by simp [Instr.slots]) (by simp [Instr.slots]))
  | hassurv d a =>
    have hd : d ∈ (Instr.hassurv d a).slots := by simp [Instr.slots]
    have ha : a ∈ (Instr.hassurv d a).slots := by simp [Instr.slots]
    refine hr.issue ?_
    rw [hr.failsReadably hd ha, hr.cfg]
    exact hr.surviveBy _ _ hd ha

/-! ## The statements -/

/-- A command leaves every slot it does not name. -/
theorem exec_slot_of_unnamed {i : Instr} {s t : State} {k : SlotNum} (hk : k ∉ i.slots) (h : exec i s = .next t) :
    t.slot k = s.slot k := by
  have hne : ∀ {d}, d ∈ i.slots → k ≠ d := fun hd e => hk (e ▸ hd)
  cases exec_effect h with
  | turnedAway | checked | alloc | observed | early => rfl
  | emptied d hd =>
    have hmem : d ∈ i.slots := by rcases hd with rfl | ⟨f, rfl⟩ | rfl <;> simp [Instr.slots]
    exact slot_setSlot_of_ne (hne hmem) _
  | allocated d hd | attached d f hd => exact slot_setSlot_of_ne (hne (by simp [hd, Instr.slots])) _
  | filled d pat flag hd =>
    have hd' : k ≠ d := hne (by simp [hd, Instr.slots])
    exact (slot_setSlot_of_ne hd' _).trans (writeUnits_slot_ne s 0 _ hd')
  | bus d hi hd sp hsp hs => exact scramble_slot_ne s sp (hne (hs ▸ hd))
  | bitSet d val hd => exact unitWrite_slot_ne s _ _ (hne (by simp [hd, Instr.slots]))
  | combined d a b hd => exact writeUnits_slot_ne s 0 _ (hne (List.mem_of_mem_head? hd))
  | overlapped d a b hd => exact scramble_slot_ne s _ (hne (List.mem_of_mem_head? hd))

/-- Two outcomes that are equal up to slot `k` are of one kind. -/
theorem SameEnd.next {k : SlotNum} {h : Slot → Slot} {t : State} {x : Result} (he : SameEnd k h (.next t) x) :
    ∃ t', x = .next t' ∧ t'.mapSlot k h = t.mapSlot k h := by
  cases x with
  | next t' => exact ⟨t', rfl, next_inj he.symm⟩
  | fault e => cases he
  | refused r => cases he

/-- An outcome that rewriting slot `k` leaves as it is. -/
theorem SameEnd.eq_onNext {k : SlotNum} {h : Slot → Slot} {x x' : Result} (he : SameEnd k h x x')
    (hself : ∀ t', x' = .next t' → t'.mapSlot k h = t') : x' = onNext (·.mapSlot k h) x := by
  refine Eq.trans ?_ he
  cases x' with
  | next t' => exact congrArg Host.Outcome.next (hself t' rfl).symm
  | fault e => rfl
  | refused r => rfl

/-- A slot is written what it holds, or lies beyond the slots of the block. -/
theorem setSlot_setSlot_self {s t : State} {k : SlotNum} {sl : Slot} (hslot : t.slot k = (s.setSlot k sl).slot k)
    (hlen : t.slots.length = (s.setSlot k sl).slots.length) : t.setSlot k sl = t := by
  by_cases hk : k.val < s.slots.length
  · rw [slot_setSlot hk, if_pos rfl] at hslot
    rw [← hslot, setSlot_self]
  · exact setSlot_of_le (by simpa [hlen] using hk) sl

/-- Settles O40: with slot `k` replaced a command ends the same up to that slot, which it leaves as it stands. -/
theorem unnamedSlotsAreIsolated : Obligations.UnnamedSlotsAreIsolated := by
  intro i s k sl hk
  refine ⟨?_, fun t h => exec_slot_of_unnamed hk h⟩
  have hr : SameRead i.slots k (fun _ => sl) s (s.setSlot k sl) :=
    ⟨fun hmem => absurd hmem hk, mapSlot_setSlot_same k _ s sl⟩
  refine (exec_sameEnd i hr).eq_onNext fun t' ht' => ?_
  obtain ⟨-, -, -, -, -, -, -, hlen, -⟩ := exec_block ht'
  exact setSlot_setSlot_self (exec_slot_of_unnamed hk ht') hlen

/-- Settles O43: with the flag of slot `k` replaced a command ends the same up to that flag. -/
theorem extFlagIsOpaque : Obligations.ExtFlagIsOpaque := by
  intro i s t k f h
  have hr : SameRead i.slots k (fun sl => { sl with extFlag := f }) s (s.setExtFlag k f) :=
    ⟨fun _ => ⟨f, rfl⟩, mapSlot_setSlot_same k _ s _⟩
  obtain ⟨t', ht', heq⟩ := SameEnd.next (h ▸ exec_sameEnd i hr)
  have heq' : t'.setExtFlag k f = t.setExtFlag k f := heq
  refine ⟨t', ht', (congrArg State.status heq' :), (congrArg State.ext heq' :), (congrArg State.draws heq' :),
    fun j => ?_⟩
  obtain ⟨hm, hl, hb, ho⟩ := slot_setExtFlag_fields t' k f j
  obtain ⟨hm', hl', hb', ho'⟩ := slot_setExtFlag_fields t k f j
  rw [heq'] at hm hl hb ho
  simp only [← hm, ← hl, ← hb, ← ho, ← hm', ← hl', ← hb', ← ho']

end Sys2Proof.Machine
end

section
/-! Where a command reaches external memory (20_memory.md R61): it writes only into the buffers of the slots it names,
and a second memory that agrees with the first on those buffers leads to the same outcome. -/
namespace Sys2Proof.Machine

/-! ## Writes -/

/-- The units a combination writes are the receiver's. -/
theorem length_xorUnits_of_compatible {s : State} {d a b : SlotNum} (hc : Compatible s d [a, b]) :
    (xorUnits (s.units a) (s.units b)).length = s.unitLength d := by
  have ha := (hc.2 a (by simp)).2
  have hb := (hc.2 b (by simp)).2
  rw [xorUnits_length (by simp [ha, hb]), units_length, ha]

/-- An external byte that a write of units changes lies in the slot's buffer. -/
theorem inBuffer_of_writeUnits {s : State} {d : SlotNum} {lo : Nat} {vs : List Byte} {a : Nat}
    (hfit : lo + vs.length ≤ s.unitLength d)
    (h : Memory.read (s.writeUnits d lo vs).ext a ≠ Memory.read s.ext a) : InBuffer s d a := by
  by_contra hn
  exact h (writeUnits_ext fun u _ hu hadr => hn ⟨u, by omega, hadr⟩)

/-- So does one that drawing units changes. -/
theorem inBuffer_of_scramble {s : State} {sp : Span} {a : Nat} (hfit : sp.lo + sp.count ≤ s.unitLength sp.slot)
    (h : Memory.read (s.scramble sp).ext a ≠ Memory.read s.ext a) : InBuffer s sp.slot a :=
  inBuffer_of_writeUnits (by simpa using hfit) h

/-- Settles O41: of the effects of a command, five write units, each of a named slot and within its buffer. -/
theorem externalWritesStayInNamedBuffers : Obligations.ExternalWritesStayInNamedBuffers := by
  intro i s t h a hne
  cases exec_effect h with
  | turnedAway | checked | alloc | emptied | allocated | attached | observed | early => exact absurd rfl hne
  | filled d pat flag hd => exact ⟨d, by simp [hd, Instr.slots], inBuffer_of_writeUnits (by simp) hne⟩
  | bus d hi hd sp hsp hs hm hc =>
    subst hs
    exact ⟨_, hd, inBuffer_of_scramble hc hne⟩
  | bitSet d val hd hi hv =>
    exact ⟨d, by simp [hd, Instr.slots], inBuffer_of_writeUnits (vs := [s.bitWritten d val]) (bitSpan_fits hv) hne⟩
  | combined d a b hd hd' hi hx hc =>
    exact ⟨d, List.mem_of_mem_head? hd, inBuffer_of_writeUnits (by rw [length_xorUnits_of_compatible hc]; omega) hne⟩
  | overlapped d a b hd =>
    exact ⟨d, List.mem_of_mem_head? hd, inBuffer_of_scramble (sp := s.wholeSlot d) (by simp [State.wholeSlot]) hne⟩

/-! ## A second external memory -/

/-- `s` with another external memory. -/
def State.withExt (s : State) (m : Memory) : State := { s with ext := m }

/-- On the addresses `P` memory `m'` reads as `m`, on every other address as `e`. -/
structure AgreesOn (P : Nat → Prop) (e m m' : Memory) : Prop where
  inside : ∀ a, P a → Memory.read m' a = Memory.read m a
  outside : ∀ a, ¬ P a → Memory.read m' a = Memory.read e a

/-- `t'` is `t` but for external memory, which agrees with `t`'s on `P` and with `e` elsewhere. -/
def Alike (P : Nat → Prop) (e : Memory) (t t' : State) : Prop := ∃ m, t' = t.withExt m ∧ AgreesOn P e t.ext m

/-- Where the first outcome is a next state, the second is one alike. -/
def EndsAlike (P : Nat → Prop) (e : Memory) (x x' : Result) : Prop :=
  ∀ t, x = .next t → ∃ t', x' = .next t' ∧ Alike P e t t'

section
variable {P : Nat → Prop} {e m m' : Memory} {s t t' : State} {d a b : SlotNum} {x x' y y' : Result}

theorem AgreesOn.write {adr : Nat} (h : AgreesOn P e m m') (hadr : P adr) (v : Byte) :
    AgreesOn P e (Memory.write m adr v) (Memory.write m' adr v) := by
  constructor
  · intro c hc
    simp only [Memory.read_write, h.inside c hc]
  · intro c hc
    have hne : c ≠ adr := fun heq => hc (heq ▸ hadr)
    rw [Memory.read_write, if_neg hne, h.outside c hc]

/-! ## What agreeing memories show -/

theorem unitRead_withExt (h : AgreesOn P e s.ext m) (hd : ∀ c, InBuffer s d c → P c) {u : Nat}
    (hu : u < s.unitLength d) : (s.withExt m).unitRead d u = s.unitRead d u :=
  unitRead_congr rfl rfl rfl fun c hc => h.inside c (hd c ⟨u, hu, hc⟩)

theorem units_withExt (h : AgreesOn P e s.ext m) (hd : ∀ c, InBuffer s d c → P c) :
    (s.withExt m).units d = s.units d :=
  List.map_congr_left fun _ hu => unitRead_withExt h hd (List.mem_range.1 hu)

theorem failsReadably_withExt (h : AgreesOn P e s.ext m) (hd : ∀ c, InBuffer s d c → P c)
    (ha : ∀ c, InBuffer s a c → P c) (hlen : s.unitLength a = s.unitLength d) :
    (s.withExt m).failsReadably d a = s.failsReadably d a :=
  any_congr_mem fun u hu => by
    have hu' : u < s.unitLength d := List.mem_range.1 hu
    rw [unitRead_withExt h hd hu', unitRead_withExt h ha (hlen ▸ hu')]
    rfl

/-! ## Writes of units -/

theorem unitWrite_withExt (h : AgreesOn P e s.ext m) (hd : ∀ c, InBuffer s d c → P c) {u : Nat}
    (hu : u < s.unitLength d) (v : Byte) : Alike P e (s.unitWrite d u v) ((s.withExt m).unitWrite d u v) := by
  have hslot : (s.withExt m).slot d = s.slot d := rfl
  unfold State.unitWrite
  rw [hslot]
  cases hm : (s.slot d).mode with
  | empty => exact ⟨m, rfl, h⟩
  | owned => exact ⟨m, rfl, h⟩
  | borrowed => exact ⟨_, rfl, h.write (hd _ ⟨u, hu, by simp [State.unitAddress, hm]⟩) v⟩

theorem writeUnits_withExt (h : AgreesOn P e s.ext m) (hd : ∀ c, InBuffer s d c → P c) {lo : Nat} {vs : List Byte}
    (hfit : lo + vs.length ≤ s.unitLength d) :
    Alike P e (s.writeUnits d lo vs) ((s.withExt m).writeUnits d lo vs) := by
  induction vs generalizing s m lo with
  | nil => exact ⟨m, rfl, h⟩
  | cons v vs ih =>
    rw [List.length_cons] at hfit
    obtain ⟨m', heq, h'⟩ := unitWrite_withExt h hd (u := lo) (by omega) v
    rw [State.writeUnits, State.writeUnits, heq]
    exact ih h' (by simpa [InBuffer] using hd) (by rw [unitWrite_unitLength]; omega)

theorem Alike.map (h : Alike P e t t') (f : State → State) (hf : ∀ m, f (t.withExt m) = (f t).withExt m)
    (hext : (f t).ext = t.ext) : Alike P e (f t) (f t') := by
  obtain ⟨m, rfl, hm⟩ := h
  exact ⟨m, hf m, hext ▸ hm⟩

theorem scramble_withExt (h : AgreesOn P e s.ext m) {sp : Span} (hd : ∀ c, InBuffer s sp.slot c → P c)
    (hfit : sp.lo + sp.count ≤ s.unitLength sp.slot) :
    Alike P e (s.scramble sp) ((s.withExt m).scramble sp) :=
  (writeUnits_withExt h hd (by simpa using hfit)).map (·.tick sp.count) (fun _ => rfl) rfl

/-! ## The ways a command branches and ends -/

theorem EndsAlike.ite {c : Prop} [Decidable c] (hx : c → EndsAlike P e x x') (hy : ¬ c → EndsAlike P e y y') :
    EndsAlike P e (if c then x else y) (if c then x' else y') := by
  split
  · exact hx ‹_›
  · exact hy ‹_›

theorem Alike.completed (h : Alike P e t t') (err : ErrCode) (r : Bool) :
    EndsAlike P e (.next (complete err r t)) (.next (complete err r t')) := by
  intro u hu
  obtain rfl := next_inj hu
  exact ⟨_, rfl, h.map (complete err r) (fun _ => rfl) rfl⟩

theorem AgreesOn.completed (h : AgreesOn P e s.ext m) (err : ErrCode) (r : Bool) :
    EndsAlike P e (.next (complete err r s)) (.next (complete err r (s.withExt m))) :=
  Alike.completed ⟨m, rfl, h⟩ err r

theorem AgreesOn.issue (h : AgreesOn P e s.ext m) {i : Instr} (hx : EndsAlike P e x x') :
    EndsAlike P e (issue i s x) (issue i (s.withExt m) x') :=
  .ite (fun _ => h.completed _ _) fun _ => .ite (fun _ => hx) fun _ => h.completed _ _

theorem AgreesOn.withAccess (h : AgreesOn P e s.ext m) (rs ws : List Span) {rc : Span}
    (hd : ∀ c, InBuffer s rc.slot c → P c) (hfit : rc.lo + rc.count ≤ s.unitLength rc.slot)
    (hx : EndsAlike P e x x') : EndsAlike P e (withAccess rs ws rc s x) (withAccess rs ws rc (s.withExt m) x') :=
  .ite (fun _ _ hu => by cases hu) fun _ => .ite (fun _ => (scramble_withExt h hd hfit).completed _ _) fun _ => hx

/-! ## Commands -/

theorem AgreesOn.setSlot (h : AgreesOn P e s.ext m) (d : SlotNum) (sl : Slot) :
    Alike P e (s.setSlot d sl) ((s.withExt m).setSlot d sl) := ⟨m, rfl, h⟩

theorem AgreesOn.combine (h : AgreesOn P e s.ext m) (hd : ∀ c, InBuffer s d c → P c)
    (ha : ∀ c, InBuffer s a c → P c) (hb : ∀ c, InBuffer s b c → P c) :
    EndsAlike P e (combine d a b s) (combine d a b (s.withExt m)) := by
  have herr : (s.withExt m).vectorError d [a, b] = s.vectorError d [a, b] := rfl
  have hwhole : (s.wholeSlot d).lo + (s.wholeSlot d).count ≤ s.unitLength d := by simp [State.wholeSlot]
  unfold Machine.combine
  rw [herr, units_withExt h ha, units_withExt h hb]
  cases hv : s.vectorError d [a, b] with
  | ok =>
    have hlen := length_xorUnits_of_compatible (vectorError_ok.1 hv)
    exact h.withAccess _ _ hd hwhole (.ite (fun _ => (scramble_withExt h hd hwhole).completed _ _)
      fun _ => (writeUnits_withExt h hd (by omega)).completed _ _)
  | _ => exact h.completed _ _

theorem AgreesOn.execHassurv (h : AgreesOn P e s.ext m) (hd : ∀ c, InBuffer s d c → P c)
    (ha : ∀ c, InBuffer s a c → P c) : EndsAlike P e (execHassurv d a s) (execHassurv d a (s.withExt m)) := by
  have herr : (s.withExt m).vectorError d [a] = s.vectorError d [a] := rfl
  have htick : Alike P e (s.tick 1) ((s.withExt m).tick 1) := ⟨m, rfl, h⟩
  refine h.issue ?_
  unfold surviveBy
  rw [herr, units_withExt h hd, units_withExt h ha]
  cases hv : s.vectorError d [a] with
  | ok =>
    rw [failsReadably_withExt h hd ha ((vectorError_ok.1 hv).2 a (by simp)).2]
    exact .ite (fun _ _ hu => by cases hu) fun _ => .ite
      (fun _ => .ite (fun _ => .ite (fun _ => htick.completed _ _) fun _ => htick.completed _ _)
        fun _ => h.completed _ _)
      fun _ => h.completed _ _
  | _ => exact h.completed _ _

/-- A command ends alike in two memories that agree on the buffers of the slots it names. -/
theorem AgreesOn.exec (h : AgreesOn P e s.ext m) {i : Instr} (hP : ∀ d ∈ i.slots, ∀ c, InBuffer s d c → P c) :
    EndsAlike P e (exec i s) (exec i (s.withExt m)) := by
  cases i with
  | init d =>
    have hhalting : Alike P e { s with status := s.status.halting }
        { s.withExt m with status := s.status.halting } := ⟨m, rfl, h⟩
    exact h.issue (.ite (fun _ => (h.setSlot d _).completed _ _) fun _ => .ite (fun _ => hhalting.completed _ _)
      fun _ => (h.setSlot d _).completed _ _)
  | initpat d pat flag =>
    have hd := hP d (by simp [Instr.slots])
    have hfill := writeUnits_withExt h hd (lo := 0) (vs := List.replicate (s.unitLength d) pat) (by simp)
    exact h.issue (.ite (fun _ => h.completed _ _) fun _ => h.withAccess _ _ hd (by simp [State.wholeSlot])
      ((hfill.map (·.setExtFlag d flag) (fun _ => rfl) rfl).completed _ _))
  | attach d flag =>
    exact h.issue (.ite (fun _ => (h.setSlot d _).completed _ _) fun _ => .ite (fun _ => h.completed _ _)
      fun _ => (h.setSlot d _).completed _ _)
  | detach d => exact h.issue ((h.setSlot d _).completed _ _)
  | setbit d val =>
    have hd := hP d (by simp [Instr.slots])
    refine h.issue (.ite (fun hv => ?_) fun _ => h.completed _ _)
    have hu : unitOf s.indexOperand < s.unitLength d := bitSpan_fits hv
    have hread : (s.withExt m).unitRead d (unitOf (s.withExt m).indexOperand) = s.unitRead d (unitOf s.indexOperand) :=
      unitRead_withExt h hd hu
    have hbyte : (s.withExt m).bitWritten d val = s.bitWritten d val :=
      congrArg (byteSetBit · (bitpos s.indexOperand) val) hread
    rw [hread, hbyte]
    exact .ite (fun _ => h.withAccess _ _ hd hu (h.completed _ _))
      fun _ => h.withAccess _ _ hd hu ((unitWrite_withExt h hd hu _).completed _ _)
  | getbit d =>
    have hd := hP d (by simp [Instr.slots])
    refine h.issue (.ite (fun hv => ?_) fun _ => h.completed _ _)
    have hread : (s.withExt m).unitRead d (unitOf (s.withExt m).indexOperand) = s.unitRead d (unitOf s.indexOperand) :=
      unitRead_withExt h hd (bitSpan_fits hv)
    rw [hread]
    exact h.withAccess _ _ hd (by simp) (h.completed _ _)
  | xor3 d a b =>
    have hd := hP d (by simp [Instr.slots])
    exact h.issue (h.combine hd (hP a (by simp [Instr.slots])) (hP b (by simp [Instr.slots])))
  | xor2 d o =>
    have hd := hP d (by simp [Instr.slots])
    exact h.issue (h.combine hd hd (hP o (by simp [Instr.slots])))
  | hassurv d a => exact h.execHassurv (hP d (by simp [Instr.slots])) (hP a (by simp [Instr.slots]))

end

/-- Settles O42: the second memory agrees with the first on the named buffers and with itself elsewhere, and a command
keeps it so. -/
theorem externalReadsStayInNamedBuffers : Obligations.ExternalReadsStayInNamedBuffers := by
  intro i s t e he h
  have hag : AgreesOn (fun a => ∃ d ∈ i.slots, InBuffer s d a) e s.ext e :=
    ⟨fun a ⟨d, hd, ha⟩ => he d hd a ha, fun _ _ => rfl⟩
  obtain ⟨_, ht', m, rfl, hm⟩ := hag.exec (fun d hd c hc => ⟨d, hd, hc⟩) t h
  exact ⟨_, ht', rfl, rfl, rfl, fun a => ⟨hm.inside a, fun hn => hm.outside a fun ⟨d, hd, ha⟩ => hn d hd ha⟩⟩

end Sys2Proof.Machine
end

section
/-! The host's accesses to external memory (20_memory.md R74, R75), one equation per outcome, and the statements about
a step that makes one. -/
namespace Sys2Proof.Machine

variable {s : State} {a : Nat} {v : Byte} {rest : List Turn}

/-! ## Which accesses race -/

theorem racesAt_of_idle (h : s.status.busy = false) (a : Nat) : s.racesAt a = false := by simp [State.racesAt, h]

/-- A word names the slots of its row that the block has. -/
theorem mem_namedSlots {d : SlotNum} :
    d ∈ s.namedSlots ↔ ∃ i, decode s.cur.word = .ok i ∧ d ∈ i.slots ∧ d.val < s.cfg.nv := by
  unfold State.namedSlots
  cases decode s.cur.word <;> simp

/-- An access races where the address lies in the buffer of a slot the executing command names. -/
theorem racesAt_iff : s.racesAt a = true ↔ s.status.busy = true ∧ ∃ d ∈ s.namedSlots, InBuffer s d a := by
  simp [State.racesAt, inBuffer_iff, and_assoc]

/-! ## Accesses -/

theorem step_extRead_of_le (h : s.turns = .extRead a :: rest) (ha : extSize s.cfg ≤ a) :
    step s = .fault .outsideExternalMemory :=
  (step_of_turns h).trans (if_pos ha)

theorem step_extRead_of_quiet (h : s.turns = .extRead a :: rest) (ha : a < extSize s.cfg) (hr : s.racesAt a = false) :
    step s = .next { s with turns := rest, answer := .bytes [Memory.read s.ext a] } :=
  (step_of_turns h).trans ((if_neg (Nat.not_le.2 ha)).trans (if_neg (ne_true_of_eq_false hr)))

theorem step_extRead_of_race (h : s.turns = .extRead a :: rest) (ha : a < extSize s.cfg) (hr : s.racesAt a = true) :
    step s = .next (s.hostSide rest (.bytes [racingByte { s with turns := rest } a]) (s.hostDraws + 1)) :=
  (step_of_turns h).trans ((if_neg (Nat.not_le.2 ha)).trans (if_pos hr))

theorem step_extWrite_of_le (h : s.turns = .extWrite a v :: rest) (ha : extSize s.cfg ≤ a) :
    step s = .fault .outsideExternalMemory :=
  (step_of_turns h).trans (if_pos ha)

theorem step_extWrite_of_hidden (h : s.turns = .extWrite a v :: rest) (ha : a < extSize s.cfg)
    (hv : s.cfg.hostWriteVisible = false) : step s = .refused .hostWriteNotVisible :=
  (step_of_turns h).trans ((if_neg (Nat.not_le.2 ha)).trans (if_neg (ne_true_of_eq_false hv)))

theorem step_extWrite_of_quiet (h : s.turns = .extWrite a v :: rest) (ha : a < extSize s.cfg)
    (hv : s.cfg.hostWriteVisible = true) (hr : s.racesAt a = false) :
    step s = .next { s with turns := rest, ext := Memory.write s.ext a v } :=
  (step_of_turns h).trans ((if_neg (Nat.not_le.2 ha)).trans ((if_pos hv).trans (if_neg (ne_true_of_eq_false hr))))

theorem step_extWrite_of_race (h : s.turns = .extWrite a v :: rest) (ha : a < extSize s.cfg)
    (hv : s.cfg.hostWriteVisible = true) (hr : s.racesAt a = true) :
    step s = .next { s with
      turns := rest, ext := Memory.write s.ext a v, cur := { s.cur with raced := a :: s.cur.raced },
      epoch := s.epoch + 1 } :=
  (step_of_turns h).trans ((if_neg (Nat.not_le.2 ha)).trans ((if_pos hv).trans (if_pos hr)))

/-! ## GETBIT -/

/-- GETBIT of a valid index whose unit the platform answers (41_bit_access.md R145). -/
theorem execGetbit_of_answered {d : SlotNum} (hi : Issued (.getbit d) s) (hv : s.indexValid d = true)
    (ha : Answered [s.bitSpan d] [] s) :
    exec (.getbit d) s = finish (byteGetBit (s.unitRead d (unitOf s.indexOperand)) (bitpos s.indexOperand)) s :=
  (issue_of_issued hi).trans ((if_pos hv).trans (withAccess_of_answered ha))

theorem completed_ok (s : State) (b : Bool) : Completed (complete .ok b s) .ok b := by
  simpa using completed_complete s .ok b

/-- A unit of a borrowed slot reads the external byte at its address. -/
theorem unitRead_of_borrowed {d : SlotNum} (hm : (s.slot d).mode = .borrowed) (u : Nat) :
    s.unitRead d u = Memory.read s.ext ((s.slot d).base.toNat + u) := by
  unfold State.unitRead; rw [hm]

/-- A unit of a borrowed slot has an address of external memory. -/
theorem Inv.unit_below {d : SlotNum} (h : Inv s) (hm : (s.slot d).mode = .borrowed) {u : Nat}
    (hu : u < s.unitLength d) : (s.slot d).base.toNat + u < extSize s.cfg :=
  Nat.lt_of_lt_of_le (Nat.add_lt_add_left hu _) ((h.slot_inv d).borrowed_fits hm)

/-- GETBIT of a borrowed slot whose addressed external byte is `v`. -/
theorem execGetbit_of_borrowed {d : SlotNum} (hi : Issued (.getbit d) s) (hv : s.indexValid d = true)
    (ha : Answered [s.bitSpan d] [] s) (hm : (s.slot d).mode = .borrowed)
    (hbyte : Memory.read s.ext ((s.slot d).base.toNat + s.cur.opa.toNat / 8) = v) :
    ∃ r, exec (.getbit d) s = .next r ∧ Completed r .ok (v.getLsbD (7 - s.cur.opa.toNat % 8)) := by
  have hread : s.unitRead d (unitOf s.indexOperand) = v := (unitRead_of_borrowed hm _).trans hbyte
  refine ⟨_, execGetbit_of_answered hi hv ha, ?_⟩
  rw [hread]
  exact completed_ok s _

/-! ## What a racing read answers -/

theorem racingByte_of_written (h : a ∈ s.cur.raced) : racingByte s a = Config.hostByte s.hostDraws :=
  if_pos (by simpa using h)

/-- The byte as it stands, or the byte the command leaves. -/
theorem racingByte_of_unwritten (h : a ∉ s.cur.raced) :
    racingByte s a = Memory.read s.ext a ∨ ∃ r, runCommand s = .next r ∧ racingByte s a = Memory.read r.ext a := by
  unfold racingByte
  rw [if_neg (by simpa using h)]
  split
  · cases runCommand s with
    | next r => exact .inr ⟨r, rfl, rfl⟩
    | fault f => exact .inl rfl
    | refused r => exact .inl rfl
  · exact .inl rfl

/-! ## Statements -/

/-- Settles O54: the equations of the accesses, and GETBIT of a unit that reads the written byte. -/
theorem hostWriteIsSeenThroughSlot : Obligations.HostWriteIsSeenThroughSlot := by
  refine ⟨fun s a v rest h => ⟨fun ha hv hr => ?_, step_extWrite_of_le h, step_extWrite_of_hidden h⟩,
    fun s a rest h => ⟨step_extRead_of_quiet h, step_extRead_of_le h⟩, fun s hb a => racesAt_of_idle hb a,
    fun s d v rest hi hinv hb hv hm hidx hans h => ?_⟩
  · exact ⟨_, step_extWrite_of_quiet h ha hv hr, rfl, fun x => Memory.read_write s.ext a x v⟩
  · have hstep := step_extWrite_of_quiet h (hinv.unit_below hm (unitOf_lt hidx)) hv (racesAt_of_idle hb _)
    exact ⟨_, exists_and_left.2 ⟨hstep, execGetbit_of_borrowed hi (decide_eq_true hidx) hans hm
      ((Memory.read_write s.ext _ _ v).trans (if_pos rfl))⟩⟩

/-- Settles O55: the byte as it stands, the byte the command would leave, or, once the host has written it, a draw. The
command looked ahead to runs the same after the read, which it cannot see. -/
theorem racingReadSeesOldOrNew : Obligations.RacingReadSeesOldOrNew := by
  refine ⟨fun s a => ?_, fun s a rest h ha hr => ?_⟩
  · simp only [racesAt_iff, mem_namedSlots]
    constructor
    · rintro ⟨hb, d, ⟨i, hi, hd, hlt⟩, hin⟩
      exact ⟨hb, i, hi, d, hd, hlt, hin⟩
    · rintro ⟨hb, i, hi, d, hd, hlt, hin⟩
      exact ⟨hb, d, ⟨i, hi, hd, hlt⟩, hin⟩
  · refine ⟨_, _, step_extRead_of_race h ha hr, rfl, fun hnew => ?_, fun hold => ?_⟩
    · refine (racingByte_of_unwritten (s := { s with turns := rest }) hnew).imp_right ?_
      rintro ⟨r, hrun, hbyte⟩
      have hsame := runCommand_hostSide { s with turns := rest } rest
        (.bytes [racingByte { s with turns := rest } a]) (s.hostDraws + 1)
      rw [hrun] at hsame
      exact ⟨_, hsame, hbyte⟩
    · exact ⟨s.hostDraws, Nat.le_refl _, Nat.lt_succ_self _, racingByte_of_written hold⟩

end Sys2Proof.Machine
end

section
/-! The outcome of a race (20_memory.md R74(b)): what drawing units and external bytes changes, which units a command
writes when it ends with OK, and what the engine's turn then leaves. -/
namespace Sys2Proof.Machine

variable {i : Instr} {s t u : State} {d a b : SlotNum} {sp : Span} {as : List Nat} {x : Byte}

/-! ## Draws -/

theorem IsDraw.widen (h : IsDraw s t x) {s' t' : State} (hs : s'.draws ≤ s.draws) (ht : t.draws ≤ t'.draws)
    (he : t'.epoch = t.epoch) : IsDraw s' t' x := by
  obtain ⟨n, h1, h2, h3⟩ := h
  exact ⟨n, by omega, by omega, he ▸ h3⟩

theorem isDraw_scrambleExt {c : Nat} (h : c ∈ as) :
    IsDraw s (s.scrambleExt as) (Memory.read (s.scrambleExt as).ext c) := by
  obtain ⟨n, h1, h2, h3⟩ := (scrambleExt_ext s as c).2 h
  exact ⟨n, h1, by rw [scrambleExt_draws]; exact h2, by rw [scrambleExt_epoch]; exact h3⟩

/-- Drawing external bytes leaves a unit as it reads, or draws it. -/
theorem unitRead_scrambleExt (s : State) (as : List Nat) (d : SlotNum) (w : Nat) :
    (s.scrambleExt as).unitRead d w = s.unitRead d w
      ∨ IsDraw s (s.scrambleExt as) ((s.scrambleExt as).unitRead d w) := by
  have hslot : (s.scrambleExt as).slot d = s.slot d := slot_congr s (scrambleExt_slots s as) d
  by_cases hdrawn : ∃ c ∈ as, s.unitAddress d w = some c
  · obtain ⟨c, hc, hadr⟩ := hdrawn
    right
    unfold State.unitAddress at hadr
    split at hadr
    · rename_i hm
      obtain rfl := Option.some.inj hadr
      rw [unitRead_of_borrowed (by rw [hslot]; exact hm), hslot]
      exact isDraw_scrambleExt hc
    · cases hadr
  · left
    refine unitRead_congr (by rw [hslot]) (by rw [hslot]) (by rw [hslot]) fun c hc => ?_
    exact (scrambleExt_ext s as c).1 fun hmem => hdrawn ⟨c, hmem, hc⟩

/-- From `s` to `t` the units of the span and the listed external bytes become draws, and no other unit, slot field or
external byte changes. -/
structure Freed (sp : Span) (as : List Nat) (s t : State) : Prop where
  bytes : ∀ c ∈ as, IsDraw s t (Memory.read t.ext c)
  units : ∀ w, sp.lo ≤ w → w < sp.lo + sp.count → IsDraw s t (t.unitRead sp.slot w)
  otherBytes : ∀ c, c ∉ as → (∀ w, sp.lo ≤ w → w < sp.lo + sp.count → s.unitAddress sp.slot w ≠ some c) →
    Memory.read t.ext c = Memory.read s.ext c
  otherSlots : OtherSlotsSame sp.slot s t
  fields : SameFields sp.slot s t
  otherUnits : ∀ w, (w < sp.lo ∨ sp.lo + sp.count ≤ w) → (s.slot sp.slot).mode = .owned →
    t.unitRead sp.slot w = s.unitRead sp.slot w

/-- Drawing the units of a slot that is not EMPTY, then the external bytes, does just that. -/
theorem freed_scramble_scrambleExt (s : State) (as : List Nat)
    (hm : sp.count ≠ 0 → (s.slot sp.slot).mode ≠ .empty) : Freed sp as s ((s.scramble sp).scrambleExt as) := by
  have hslot : ∀ k, ((s.scramble sp).scrambleExt as).slot k = (s.scramble sp).slot k :=
    slot_congr _ (scrambleExt_slots _ as)
  have hdraws : (s.scramble sp).draws ≤ ((s.scramble sp).scrambleExt as).draws := by rw [scrambleExt_draws]; omega
  have hdraws' : s.draws ≤ (s.scramble sp).draws := by rw [scramble_draws]; omega
  constructor
  case bytes => exact fun c hc => (isDraw_scrambleExt hc).widen hdraws' (Nat.le_refl _) rfl
  case units =>
    intro w h1 h2
    rcases unitRead_scrambleExt (s.scramble sp) as sp.slot w with hkept | hdrawn
    · rw [hkept]
      exact (isDraw_scramble (hm (by omega)) h1 h2).widen (Nat.le_refl _) hdraws (scrambleExt_epoch _ _)
    · exact hdrawn.widen hdraws' (Nat.le_refl _) rfl
  case otherBytes => exact fun c hc hu => ((scrambleExt_ext _ as c).1 hc).trans (scramble_ext hu)
  case otherSlots => exact fun k hk => (hslot k).trans (scramble_slot_ne s sp hk)
  case fields => simp [SameFields, hslot]
  case otherUnits =>
    intro w hw ho
    have hun : ¬ (sp.lo ≤ w ∧ w < sp.lo + sp.count) := by omega
    have hkept : (s.scramble sp).unitRead sp.slot w = s.unitRead sp.slot w := by
      rw [unitRead_scramble (by simp [ho]), if_neg hun]
    rw [← hkept]
    refine unitRead_congr (by rw [hslot]) (by rw [hslot]) (by rw [hslot]) fun c hc => ?_
    simp [State.unitAddress, ho] at hc

/-- Draws that begin later are draws from here too. -/
theorem Freed.of_drawFrom {n : Nat} (h : Freed sp as (s.drawFrom n) t) (hn : s.draws ≤ n) : Freed sp as s t :=
  ⟨fun c hc => (h.bytes c hc).widen hn (Nat.le_refl _) rfl,
    fun w h1 h2 => (h.units w h1 h2).widen hn (Nat.le_refl _) rfl, h.otherBytes, h.otherSlots, h.fields, h.otherUnits⟩

theorem Freed.freeResult (h : Freed sp as s t) (i : Instr) : Freed sp as s (freeResult i t) := by
  unfold Machine.freeResult
  split
  · exact ⟨fun c hc => (h.bytes c hc).widen (Nat.le_refl _) (Nat.le_succ _) rfl,
      fun w h1 h2 => (h.units w h1 h2).widen (Nat.le_refl _) (Nat.le_succ _) rfl, h.otherBytes, h.otherSlots, h.fields,
      h.otherUnits⟩
  · exact h

/-! ## The block -/

theorem SameBlock.trans (h : SameBlock s t) (h' : SameBlock t u) : SameBlock s u :=
  ⟨h'.cfg.trans h.cfg, h'.opa.trans h.opa, h'.opb.trans h.opb, h'.cur.trans h.cur, h'.platform.trans h.platform,
    h'.turns.trans h.turns, h'.answer.trans h.answer, h'.epoch.trans h.epoch, h'.hostDraws.trans h.hostDraws,
    h'.halted.trans h.halted, h'.ovf.trans h.ovf, h'.slotCount.trans h.slotCount⟩

theorem sameBlock_freeResult (i : Instr) (s : State) : SameBlock s (freeResult i s) := by
  unfold freeResult
  split <;> constructor <;> rfl

/-- A race leaves alone what a command leaves alone. -/
theorem sameBlock_settleRace (i : Instr) (s t : State) : SameBlock t (settleRace i s t) := by
  unfold settleRace
  split
  · constructor <;> rfl
  · refine SameBlock.trans ?_ (sameBlock_freeResult i _)
    constructor <;> simp

/-! ## The result bit -/

theorem freeResult_of_result (hi : Instr.hasResult i = true) (he : s.status.err = .ok) :
    freeResult i s = { s.tick 1 with status := { s.status with result := s.freeBit } } :=
  if_pos (by simp [hi, he])

theorem freeResult_of_none (h : Instr.hasResult i = false ∨ s.status.err ≠ .ok) : freeResult i s = s :=
  if_neg (by simpa [or_iff_not_imp_left] using h)

/-! ## The outcome of a race -/

theorem Inv.unitLength_of_empty (h : Inv s) (hm : (s.slot d).mode = .empty) : s.unitLength d = 0 := by
  rw [State.unitLength, Slot.unitLength, (h.slot_inv d).empty_iff.1 hm]
  rfl

/-- The units a race frees are in a slot that the command leaves attached. -/
theorem Inv.raceUnits_attached (h : Inv s) (he : exec i s = .next t) (hc : (raceUnits i s).count ≠ 0) :
    (t.slot (raceUnits i s).slot).mode ≠ .empty := by
  intro hm
  have hzero := (h.of_exec he).unitLength_of_empty hm
  have hfits := (h.raceUnits_fits he).resolve_left hc
  omega

/-- The raced bytes and the units the command writes are freed. -/
theorem Inv.freed_settleRace (h : Inv s) (he : exec i s = .next t) (hr : s.cur.raced ≠ []) :
    Freed (raceUnits i s) s.cur.raced t (Machine.settleRace i s t) := by
  unfold Machine.settleRace
  rw [if_neg hr]
  have hfreed := freed_scramble_scrambleExt (t.drawFrom (raceDraws i s)) s.cur.raced (h.raceUnits_attached (t := t) he)
  exact (hfreed.of_drawFrom (exec_draws_le he).2).freeResult i

/-- The result bit of a race: a draw for a command that has one and ends with OK, kept otherwise. -/
theorem settleRace_result (he : exec i s = .next t) (hr : s.cur.raced ≠ []) (hi : Instr.hasResult i = true)
    (hok : t.status.err = .ok) : ∃ x, IsDraw t (settleRace i s t) x ∧ (settleRace i s t).status.result = x.getLsbD 0 := by
  unfold settleRace
  rw [if_neg hr, freeResult_of_result hi (by simpa using hok)]
  have hd := (exec_draws_le he).2
  exact ⟨_, ⟨_, by rw [scrambleExt_draws, scramble_draws, drawFrom_draws]; omega, Nat.lt_succ_self _, rfl⟩, rfl⟩

theorem settleRace_status_of_none (h : Instr.hasResult i = false ∨ t.status.err ≠ .ok) :
    (settleRace i s t).status = t.status := by
  unfold settleRace
  split
  · rfl
  · rw [freeResult_of_none (by simpa using h)]
    simp

/-! ## Which units a command writes -/

/-- A command that ends with OK has been issued. -/
theorem issued_of_ok (he : exec i s = .next t) (hok : t.status.err = .ok) : Issued i s := by
  cases exec_effect he with
  | turnedAway e h => rcases h with rfl | rfl <;> cases hok
  | _ => assumption

/-- A command with units to write has been issued. -/
theorem issued_of_receiverOf (hc : (receiverOf i s).count ≠ 0) : Issued i s := by
  unfold receiverOf at hc
  split at hc
  · exact absurd rfl hc
  · rename_i h
    simpa [Issued] using h

theorem finish_err {r : Bool} (h : finish r s = .next t) : t.status.err = .ok := by
  obtain rfl := next_inj h
  rfl

/-- The accesses of a command that would end with OK let it end so, or with BUS. -/
theorem withAccess_err {rs ws : List Span} {body : Result} (h : withAccess rs ws sp s body = .next t)
    (hbody : body = .next t → t.status.err = .ok) : t.status.err = .ok ∨ t.status.err = .bus := by
  rcases withAccess_next h with ⟨-, rfl⟩ | ⟨-, hb⟩
  · exact .inr rfl
  · exact .inl (hbody hb)

theorem combine_err (hv : s.vectorError d [a, b] = .ok) (h : combine d a b s = .next t) :
    t.status.err = .ok ∨ t.status.err = .bus := by
  unfold combine at h
  rw [hv] at h
  refine withAccess_err h fun hb => ?_
  split at hb
  · exact finish_err hb
  · exact finish_err hb

theorem vectorError_of_combine_ok (h : combine d a b s = .next t) (hok : t.status.err = .ok) :
    s.vectorError d [a, b] = .ok := by
  unfold combine at h
  split at h
  · assumption
  · obtain rfl := next_inj h
    exact hok

/-- A command with receiver units to write ends with OK or BUS: its checks have passed. -/
theorem Inv.err_of_receiverOf (h : Inv s) (he : exec i s = .next t) (hc : (receiverOf i s).count ≠ 0) :
    t.status.err = .ok ∨ t.status.err = .bus := by
  have hi := issued_of_receiverOf hc
  have hw := receiverOf_issued hi
  cases i with
  | initpat d pat flag =>
    simp only [receiverOf, hw] at hc
    have hm : ¬ s.unattached d = true := fun hm =>
      hc (h.unitLength_of_empty (by simpa [State.unattached, Slot.isEmpty] using hm))
    have hb := (issue_of_issued hi).symm.trans he
    rw [if_neg hm] at hb
    exact withAccess_err hb finish_err
  | setbit d val =>
    have hv : s.indexValid d = true := by simpa [receiverOf, hw] using hc
    have hb := (issue_of_issued hi).symm.trans he
    rw [if_pos hv] at hb
    split at hb
    · exact withAccess_err hb finish_err
    · exact withAccess_err hb finish_err
  | xor3 d a b =>
    have hv : s.vectorError d [a, b] = .ok := by
      by_contra hv
      simp [receiverOf, hw, hv] at hc
    exact combine_err hv ((issue_of_issued hi).symm.trans he)
  | xor2 d o =>
    have hv : s.vectorError d [d, o] = .ok := by
      by_contra hv
      simp [receiverOf, hw, hv] at hc
    exact combine_err hv ((issue_of_issued hi).symm.trans he)
  | init d | attach d flag | detach d | getbit d | hassurv d o => simp [receiverOf, hw] at hc

/-- A command that ends in an error other than BUS writes no unit. -/
theorem Inv.raceUnits_of_error (h : Inv s) (he : exec i s = .next t) (hok : t.status.err ≠ .ok)
    (hbus : t.status.err ≠ .bus) : (raceUnits i s).count = 0 := by
  by_contra hc
  rcases raceUnits_eq i s with hr | hr | ⟨d, rfl⟩
  · exact (h.err_of_receiverOf he (hr ▸ hc)).elim hok hbus
  · exact hc hr
  · obtain ⟨hx, -⟩ := raceUnits_init hc
    obtain rfl := next_inj (hx.symm.trans he)
    exact hok rfl

/-- The units a command that ends with OK has written, INIT by zero-filling them (10_state.md R29, 41_bit_access.md
R143, 60_exceptions.md R217). -/
def unitsWritten (i : Instr) (s : State) : Span :=
  match i with
  | .initpat d _ _ | .xor3 d _ _ | .xor2 d _ => s.wholeSlot d
  | .setbit d val =>
    if (s.unitRead d (unitOf s.indexOperand)).getLsbD (bitpos s.indexOperand) = val
    then { slot := d, lo := 0, count := 0 } else s.bitSpan d
  | .init d => { slot := d, lo := 0, count := ceil8 s.lengthOperand.toNat }
  | .attach d _ | .detach d | .getbit d | .hassurv d _ => { slot := d, lo := 0, count := 0 }

theorem raceUnits_of_ok (he : exec i s = .next t) (hok : t.status.err = .ok) : raceUnits i s = unitsWritten i s := by
  have hi := issued_of_ok he hok
  have hw := receiverOf_issued hi
  cases i with
  | init d =>
    have hle : ¬ s.cfg.maxUnits < ceil8 s.lengthOperand.toNat := by
      intro hlt
      have h0 : ¬ s.lengthOperand = 0 := fun h0 => by simp [h0, ceil8] at hlt
      have hb := (issue_of_issued hi).symm.trans he
      rw [if_neg h0, if_pos hlt] at hb
      obtain rfl := next_inj hb
      cases hok
    simp [raceUnits, unitsWritten, hi.1, hi.2, hle]
  | initpat d pat flag => simp [raceUnits, unitsWritten, receiverOf, hw]
  | setbit d val =>
    have hv : s.indexValid d = true := by
      by_contra hv
      have hb := (issue_of_issued hi).symm.trans he
      rw [if_neg hv] at hb
      obtain rfl := next_inj hb
      cases hok
    simp [raceUnits, unitsWritten, receiverOf, hw, hv, bitWritten_eq_iff, State.bitSpan]
  | xor3 d a b =>
    have hv := vectorError_of_combine_ok ((issue_of_issued hi).symm.trans he) hok
    simp [raceUnits, unitsWritten, receiverOf, hw, hv, State.wholeSlot]
  | xor2 d o =>
    have hv := vectorError_of_combine_ok ((issue_of_issued hi).symm.trans he) hok
    simp [raceUnits, unitsWritten, receiverOf, hw, hv, State.wholeSlot]
  | attach d flag | detach d | getbit d | hassurv d o => simp [raceUnits, unitsWritten, receiverOf, hw]

/-! ## The statement -/

/-- The engine's step of a BUSY block. -/
theorem step_of_engineNext {rest : List Turn} (h : EngineNext s rest) :
    step s = engineTurn { s with turns := rest } := by
  rcases h with h | ⟨h, rfl⟩
  · exact step_of_turns h
  · unfold step
    rw [h]
    exact congrArg engineTurn (by rw [← h])

theorem engineTurn_of_exec (hb : s.status.busy = true) (hd : decode s.cur.word = .ok i) (he : exec i s = .next t) :
    engineTurn s = .next (settleRace i s t) := by
  unfold engineTurn runCommand
  rw [if_pos hb, hd]
  simp only [he]

/-- Settles O56: the equation of a racing write, and the outcome of a race clause by clause. -/
theorem racingWriteFreesResults : Obligations.RacingWriteFreesResults := by
  refine ⟨fun s a v rest h ha hv hr => ?_, fun s t i rest hinv hnext hb hd hr he => ?_⟩
  · exact ⟨_, step_extWrite_of_race h ha hv hr, rfl, fun x => Memory.read_write s.ext a x v⟩
  · have hinv' : Inv { s with turns := rest } := hinv.of_same rfl rfl rfl rfl rfl
    have hunits : raceUnits i s = raceUnits i { s with turns := rest } := by cases i <;> rfl
    rw [hunits]
    have hfreed := hinv'.freed_settleRace he hr
    refine ⟨_, (step_of_engineNext hnext).trans (engineTurn_of_exec (s := { s with turns := rest }) hb hd he),
      sameBlock_settleRace _ _ _, hfreed.bytes, hfreed.units, hfreed.otherBytes, hfreed.otherSlots, hfreed.fields,
      hfreed.otherUnits, settleRace_status _ _ _, settleRace_result he hr, settleRace_status_of_none, fun hok => ?_,
      hinv'.raceUnits_of_error he⟩
    rw [raceUnits_of_ok he hok]
    cases i <;> rfl

end Sys2Proof.Machine
end

section
/-! The decoder and the encoder of command words, row by row of the opcode map (30_encoding.md R91, R93, R95). -/
namespace Sys2Proof

variable {w : Word} {i : Instr} {r : OpcodeRow}

/-! ## Encode, then decode -/

/-- The word of every command selects the command's own row. -/
theorem selectsRow_encode (i : Instr) : Laws.SelectsRow.Statement i := by
  cases i with
  | init d => exact Laws.SelectsRow.init d
  | initpat d pat flag => exact Laws.SelectsRow.initpat d pat flag
  | attach d flag => exact Laws.SelectsRow.attach d flag
  | detach d => exact Laws.SelectsRow.detach d
  | setbit d val => exact Laws.SelectsRow.setbit d val
  | getbit d => exact Laws.SelectsRow.getbit d
  | xor3 d a b => exact Laws.SelectsRow.xor3 d a b
  | xor2 d o => exact Laws.SelectsRow.xor2 d o
  | hassurv d a => exact Laws.SelectsRow.hassurv d a

theorem decode_of_rowOf (hr : rowOf w = some r) :
    decode w = if r.selects w then .ok (r.op.command w) else .error .mustBeZero := by
  unfold decode
  rw [hr]

/-- The fields of an encoded word are the operands of its command. -/
theorem command_encode (i : Instr) : (Laws.SelectsRow.opcodeOf i).command (encode i) = i := by
  cases i with
  | setbit d val => cases val <;> simp [Laws.SelectsRow.opcodeOf, Opcode.command, encode, fieldVD, slotBits]
  | _ =>
    simp [Laws.SelectsRow.opcodeOf, Opcode.command, encode, fieldVD, fieldVA, fieldVB, fieldIMMH, fieldIMML, slotBits]

/-- Settles O1: the word selects its command's row, and the row reads the operands back. -/
theorem encodeThenDecodeGivesBack : Obligations.EncodeThenDecodeGivesBack := by
  intro i
  obtain ⟨r, hrow, hop, hsel⟩ := selectsRow_encode i
  rw [decode_of_rowOf hrow, if_pos hsel, hop, command_encode]

/-! ## Decode, then encode -/

/-- A word that decodes selects a row of the map, and is that row's command. -/
theorem exists_row_of_decode (h : decode w = .ok i) :
    ∃ r ∈ opcodeTable, r.selects w = true ∧ i = r.op.command w := by
  unfold decode at h
  split at h
  · cases h
  · rename_i r hr
    split at h
    · cases h
      exact ⟨r, List.mem_of_find?_eq_some hr, ‹_›, rfl⟩
    · cases h

/-- The opcode map of R93 by fields: each mask holds all of OP and none of VD. -/
theorem opcodeTable_eq_fields : opcodeTable =
    [ ⟨.init, packWord 1 0 0 0 0 0, packWord 0xF 0 0xF 0xF 0xFF 0xFF⟩,
      ⟨.initpat, packWord 2 0 0 0 0 0, packWord 0xF 0 0xF 0xF 0 0⟩,
      ⟨.attach, packWord 3 0 0 0 0 0, packWord 0xF 0 0xF 0xF 0xFF 0⟩,
      ⟨.detach, packWord 4 0 0 0 0 0, packWord 0xF 0 0xF 0xF 0xFF 0xFF⟩,
      ⟨.setbit, packWord 5 0 0 0 0 0, packWord 0xF 0 0xF 0xF 0xFF 0xFE⟩,
      ⟨.getbit, packWord 6 0 0 0 0 0, packWord 0xF 0 0xF 0xF 0xFF 0xFF⟩,
      ⟨.xor3, packWord 7 0 0 0 0 0, packWord 0xF 0 0 0 0xFF 0xFF⟩,
      ⟨.xor2, packWord 8 0 0 0 0 0, packWord 0xF 0 0 0xF 0xFF 0xFF⟩,
      ⟨.hassurv, packWord 9 0 0 0 0 0, packWord 0xF 0 0 0xF 0xFF 0xFF⟩ ] := by decide

theorem and_fullNibble (x : BitVec 4) : x &&& 0xF#4 = x := BitVec.and_allOnes

theorem and_fullByte (x : Byte) : x &&& 0xFF#8 = x := BitVec.and_allOnes

/-- A row's test by fields: OP is the row's, and the must-be-zero bits of the other fields are 0. -/
theorem selects_iff_fields {x : Opcode} {op ma mb : BitVec 4} {mh ml : Byte} :
    (OpcodeRow.mk x (packWord op 0 0 0 0 0) (packWord 0xF 0 ma mb mh ml)).selects w = true
      ↔ w.extractLsb' 28 4 = op ∧ w.extractLsb' 20 4 &&& ma = 0 ∧ w.extractLsb' 16 4 &&& mb = 0
        ∧ w.extractLsb' 8 8 &&& mh = 0 ∧ w.extractLsb' 0 8 &&& ml = 0 := by
  conv_lhs => rw [OpcodeRow.selects, ← packWord_fields w, packWord_and, beq_iff_eq, packWord_inj]
  simp [and_fullNibble]

theorem slotBits_fieldVD (w : Word) : slotBits (fieldVD w) = w.extractLsb' 24 4 := rfl

theorem slotBits_fieldVA (w : Word) : slotBits (fieldVA w) = w.extractLsb' 20 4 := rfl

theorem slotBits_fieldVB (w : Word) : slotBits (fieldVB w) = w.extractLsb' 16 4 := rfl

/-- Where the upper seven bits of IMML are 0, IMML is its value bit. -/
theorem immlByte_of_valueBit (h : w.extractLsb' 0 8 &&& 0xFE#8 = 0#8) :
    (if w.getLsbD 0 then 1#8 else 0#8) = w.extractLsb' 0 8 := by
  have hbyte : ∀ x : Byte, x &&& 0xFE#8 = 0#8 → (if x.getLsbD 0 then 1#8 else 0#8) = x := by decide
  simpa using hbyte _ h

/-- The word of a row's command is the word that selected the row: the must-be-zero bits leave no other. -/
theorem encode_command (hr : r ∈ opcodeTable) (hs : r.selects w = true) : encode (r.op.command w) = w := by
  conv_rhs => rw [← packWord_fields w]
  simp only [opcodeTable_eq_fields, List.mem_cons, List.not_mem_nil, or_false] at hr
  rcases hr with rfl | rfl | rfl | rfl | rfl | rfl | rfl | rfl | rfl <;>
    obtain ⟨hop, ha, hb, hh, hl⟩ := selects_iff_fields.1 hs <;>
    simp only [Opcode.command, encode, slotBits_fieldVD, slotBits_fieldVA, slotBits_fieldVB, hop]
  case inr.inr.inr.inr.inl => -- SETBIT, whose IMML keeps its value bit
    have ha := (and_fullNibble _).symm.trans ha
    have hb := (and_fullNibble _).symm.trans hb
    have hh := (and_fullByte _).symm.trans hh
    rw [ha, hb, hh, ← immlByte_of_valueBit hl]
    rfl
  all_goals simp_all [and_fullNibble, and_fullByte, fieldIMMH, fieldIMML]

/-- Settles O2: a word that decodes has selected the row of its command. -/
theorem decodeThenEncodeGivesBack : Obligations.DecodeThenEncodeGivesBack := by
  intro w i h
  obtain ⟨r, hr, hs, rfl⟩ := exists_row_of_decode h
  exact encode_command hr hs

/-! ## Which words decode -/

/-- Every mask holds all of OP, so a word that selects a row has the row's OP. -/
theorem fieldOP_of_selects (hr : r ∈ opcodeTable) (hs : r.selects w = true) : fieldOP r.matchWord = fieldOP w := by
  have hmask : fieldOP r.mask = 0xF#4 := (by decide : ∀ r ∈ opcodeTable, fieldOP r.mask = 0xF#4) r hr
  calc fieldOP r.matchWord = fieldOP (w &&& r.mask) := by rw [eq_of_beq hs]
    _ = fieldOP w &&& fieldOP r.mask := BitVec.extractLsb'_and
    _ = fieldOP w := by rw [hmask, and_fullNibble]

/-- No two rows have one OP: a word that selects a row finds it. -/
theorem rowOf_of_selects (hr : r ∈ opcodeTable) (hs : r.selects w = true) : rowOf w = some r := by
  unfold rowOf
  rw [← fieldOP_of_selects hr hs]
  have hfind : ∀ r ∈ opcodeTable,
      (opcodeTable.find? fun x => fieldOP x.matchWord == fieldOP r.matchWord) = some r := by decide
  exact hfind r hr

theorem decodes_iff_selects : (∃ i, decode w = .ok i) ↔ ∃ r ∈ opcodeTable, r.selects w = true := by
  constructor
  · rintro ⟨i, h⟩
    obtain ⟨r, hr, hs, -⟩ := exists_row_of_decode h
    exact ⟨r, hr, hs⟩
  · rintro ⟨r, hr, hs⟩
    exact ⟨r.op.command w, by rw [decode_of_rowOf (rowOf_of_selects hr hs), if_pos hs]⟩

theorem decode_reserved_iff : decode w = .error .reservedOpcode ↔ rowOf w = none := by
  cases hr : rowOf w with
  | none => simp [decode, hr]
  | some r =>
    rw [decode_of_rowOf hr]
    split <;> simp

theorem toNat_fieldOP (w : Word) : (fieldOP w).toNat = w.toNat / 2 ^ 28 := by
  have := w.isLt
  simp only [fieldOP, BitVec.extractLsb'_toNat, Nat.shiftRight_eq_div_pow]
  omega

/-- The rows are those of OP 1 to 9. -/
theorem rowOf_eq_none_iff : rowOf w = none ↔ w.toNat / 2 ^ 28 = 0 ∨ 10 ≤ w.toNat / 2 ^ 28 := by
  have hop : ∀ op : BitVec 4,
      opcodeTable.find? (fun r => fieldOP r.matchWord == op) = none ↔ op.toNat = 0 ∨ 10 ≤ op.toNat := by decide
  rw [← toNat_fieldOP]
  exact hop (fieldOP w)

/-- Settles O3: the two tests, over the opcode map as R93 writes it. -/
theorem wordsSelectRowsByMask : Obligations.WordsSelectRowsByMask := by
  intro w
  constructor
  · rw [decodes_iff_selects]
    simp [opcodeTable, OpcodeRow.selects]
  · rw [decode_reserved_iff, rowOf_eq_none_iff]

/-- Settles O4: the words written out are evaluated. -/
theorem knownWordsDecode : Obligations.KnownWordsDecode := by
  unfold Obligations.KnownWordsDecode
  decide

end Sys2Proof
end

section
/-! The assembler: the word of each line of 30_encoding.md R99 as a number, and when a line gives nothing. -/
namespace Sys2Proof

/-- A packed word is its fields at their places in the word (R91). -/
theorem toNat_packWord (op d a b : BitVec 4) (h l : Byte) :
    (packWord op d a b h l).toNat =
      op.toNat * 2 ^ 28 + d.toNat * 2 ^ 24 + a.toNat * 2 ^ 20 + b.toNat * 2 ^ 16 + h.toNat * 2 ^ 8 + l.toNat := by
  have hor : ∀ {k : Nat} (m : Nat) (x : BitVec k), m <<< k ||| x.toNat = m * 2 ^ k + x.toNat := fun m x => by
    rw [← Nat.shiftLeft_add_eq_or_of_lt x.isLt, Nat.shiftLeft_eq]
  simp only [packWord, BitVec.toNat_cast, BitVec.toNat_append, hor]
  omega

theorem packWord_eq_ofNat (op d a b : BitVec 4) (h l : Byte) :
    packWord op d a b h l = BitVec.ofNat 32
      (op.toNat * 2 ^ 28 + d.toNat * 2 ^ 24 + a.toNat * 2 ^ 20 + b.toNat * 2 ^ 16 + h.toNat * 2 ^ 8 + l.toNat) := by
  rw [← toNat_packWord, BitVec.ofNat_toNat, BitVec.setWidth_eq]

@[simp] theorem toNat_slotBits (d : SlotNum) : (slotBits d).toNat = d.val := rfl

end Sys2Proof

namespace Sys2Proof.Machine

variable {n : Nat}

/-! ## Operands -/

theorem asmSlot_of_lt (h : n < 16) : asmSlot n = some ⟨n, h⟩ := dif_pos h

theorem asmByte_of_lt (h : n < 256) : asmByte n = some (BitVec.ofNat 8 n) := if_pos h

theorem asmWord_of_lt (h : n < 2 ^ 32) : asmWord n = some (BitVec.ofNat 32 n) := if_pos h

theorem asmBit_of_lt (h : n < 2) : asmBit n = some (n == 1) := if_pos h

@[simp] theorem asmSlot_eq_none : asmSlot n = none ↔ 16 ≤ n := by simp [asmSlot]

@[simp] theorem asmByte_eq_none : asmByte n = none ↔ 256 ≤ n := by simp [asmByte]

@[simp] theorem asmWord_eq_none : asmWord n = none ↔ 2 ^ 32 ≤ n := by simp [asmWord]

@[simp] theorem asmBit_eq_none : asmBit n = none ↔ 2 ≤ n := by simp [asmBit, Nat.succ_le_iff]

/-- Reading one more operand gives nothing where the operand does, or what follows it. -/
theorem forall_eq_some_imp_iff {α : Type} {o : Option α} {p : Prop} : (∀ a, o = some a → p) ↔ o = none ∨ p := by
  cases o <;> simp

/-! ## Lines -/

/-- Settles O59: the words by `packWord_eq_ofNat`, and nothing where an operand does not fit. -/
theorem assemblerEmitsTableWordsOrNothing : Obligations.AssemblerEmitsTableWordsOrNothing := by
  refine ⟨fun d n hd hn => ⟨?init, fun b hb => ?setbit, ?getbit, fun pat flag hp hf => ?initpat,
    fun addr flag ha hf => ?attach, ?detach, fun a b ha hb => ?xor3, fun a ha => ?xor2, fun a ha => ?hassurv⟩,
    fun d x y z => ⟨?_, ?_, ?_, ?_, ?_, ?_, ?_, ?_, ?_⟩⟩
  case init => simp [assemble, asmSlot_of_lt hd, asmWord_of_lt hn, encode, packWord_eq_ofNat]
  case setbit =>
    interval_cases b <;>
      simp [assemble, asmSetbit, asmSlot_of_lt hd, asmWord_of_lt hn, asmBit_of_lt, encode, packWord_eq_ofNat]
  case getbit => simp [assemble, asmSlot_of_lt hd, asmWord_of_lt hn, encode, packWord_eq_ofNat]
  case initpat =>
    simp [assemble, Command.plain, asmSlot_of_lt hd, asmByte_of_lt hp, asmByte_of_lt hf, encode, packWord_eq_ofNat,
      Nat.mod_eq_of_lt hp, Nat.mod_eq_of_lt hf]
  case attach =>
    simp [assemble, asmSlot_of_lt hd, asmByte_of_lt hf, asmWord_of_lt hn, asmWord_of_lt ha, encode, packWord_eq_ofNat,
      Nat.mod_eq_of_lt hf]
  case detach => simp [assemble, Command.plain, asmSlot_of_lt hd, encode, packWord_eq_ofNat]
  case xor3 =>
    simp [assemble, asmXor3, Command.plain, asmSlot_of_lt hd, asmSlot_of_lt ha, asmSlot_of_lt hb, encode,
      packWord_eq_ofNat]
  case xor2 =>
    simp [assemble, asmXor2, Command.plain, asmSlot_of_lt hd, asmSlot_of_lt ha, encode, packWord_eq_ofNat]
  case hassurv => simp [assemble, Command.plain, asmSlot_of_lt hd, asmSlot_of_lt ha, encode, packWord_eq_ofNat]
  all_goals simp [assemble, asmSetbit, asmXor3, asmXor2, forall_eq_some_imp_iff, or_comm, or_assoc, or_left_comm]

end Sys2Proof.Machine
end

section
/-! The engine's turn as `exec` of the latched command (30_encoding.md R96), that every command ends unless it meets
memory with read side effects (60_exceptions.md R221, 20_memory.md R68), and the host's `wait` (R100). -/
namespace Sys2Proof.Machine

variable {s t : State} {i : Instr} {rest : List Turn} {x y : Result}

/-! ## The step is `exec` of the latched command -/

theorem onNext_id {f : State → State} (h : ∀ t, f t = t) (x : Result) : onNext f x = x := by
  cases x with
  | next t => exact congrArg Host.Outcome.next (h t)
  | fault e => rfl
  | refused r => rfl

theorem settleRace_of_unraced (h : s.cur.raced = []) (t : State) : settleRace i s t = t := if_pos h

theorem engineTurn_of_decode (hb : s.status.busy = true) (hd : decode s.cur.word = .ok i) :
    engineTurn s = onNext (settleRace i s) (exec i s) := by
  unfold engineTurn runCommand
  rw [if_pos hb, hd]
  cases h : exec i s <;> simp only [h, onNext]

theorem engineTurn_of_unraced (hb : s.status.busy = true) (hd : decode s.cur.word = .ok i) (hr : s.cur.raced = []) :
    engineTurn s = exec i s :=
  (engineTurn_of_decode hb hd).trans (onNext_id (settleRace_of_unraced hr) _)

theorem decode_of_decodeTableWord {n w : Nat} (h : decodeTableWord n w = some i) : decode (tableWord n w) = .ok i := by
  unfold decodeTableWord at h
  cases hd : decode (tableWord n w) with
  | ok j => rw [hd] at h; exact congrArg Except.ok (Option.some.inj h)
  | error e => rw [hd] at h; cases h

theorem tableWord_full (w : Nat) : tableWord 32 w = BitVec.ofNat 32 w := by
  apply BitVec.eq_of_toNat_eq
  simp [tableWord]

/-- Settles O5: the engine's turn is `exec` of the latched command, and `withFetchWord` latches its word. -/
theorem stepRunsLatchedCommand : Obligations.StepRunsLatchedCommand := by
  refine ⟨fun s i rest hn hb hd => ⟨?_, fun hr => ?_⟩, fun s w i hd => ?_⟩
  · exact (step_of_engineNext hn).trans (engineTurn_of_decode (s := { s with turns := rest }) hb hd)
  · exact (step_of_engineNext hn).trans (engineTurn_of_unraced (s := { s with turns := rest }) hb hd hr)
  · rw [← tableWord_full]
    exact (step_of_turns (n := .engine) (rest := s.turns) rfl).trans
      (engineTurn_of_unraced (s := s.accept (tableWord 32 w)) rfl (decode_of_decodeTableWord hd) rfl)

/-! ## Every command ends -/

/-- `x` answers a next state, or refuses, with a region of read side effects on the platform of `s` (R68). -/
def EndsUnlessOnDevice (s : State) (x : Result) : Prop :=
  (∃ t, x = .next t) ∨ (x = .refused .readSideEffects ∧ ∃ r ∈ s.platform, r.kind = .readSideEffects)

namespace EndsUnlessOnDevice

theorem next (s t : State) : EndsUnlessOnDevice s (.next t) := .inl ⟨t, rfl⟩

theorem ite {c : Prop} [Decidable c] (hx : EndsUnlessOnDevice s x) (hy : EndsUnlessOnDevice s y) :
    EndsUnlessOnDevice s (if c then x else y) := by
  split
  · exact hx
  · exact hy

theorem refused {sps : List Span} (h : s.onDevice sps = true) : EndsUnlessOnDevice s (.refused .readSideEffects) := by
  refine .inr ⟨rfl, ?_⟩
  by_contra hno
  rw [onDevice_false (fun r hr hk => hno ⟨r, hr, hk⟩)] at h
  cases h

theorem issue (hx : EndsUnlessOnDevice s x) : EndsUnlessOnDevice s (issue i s x) := (next s _).ite (hx.ite (next s _))

theorem withAccess {rs ws : List Span} {rc : Span} (hx : EndsUnlessOnDevice s x) :
    EndsUnlessOnDevice s (withAccess rs ws rc s x) := by
  unfold Machine.withAccess
  split
  · exact refused ‹_›
  · exact (next s _).ite hx

theorem combine (d a b : SlotNum) : EndsUnlessOnDevice s (combine d a b s) := by
  unfold Machine.combine
  split
  · exact ((next s _).ite (next s _)).withAccess
  · exact next s _

theorem surviveBy (surv : List Byte → List Byte → Bool) (early : Bool) (d a : SlotNum) :
    EndsUnlessOnDevice s (surviveBy surv early d a s) := by
  unfold Machine.surviveBy
  split
  · split
    · exact refused ‹_›
    · exact (((next s _).ite (next s _)).ite (next s _)).ite (next s _)
  · exact next s _

end EndsUnlessOnDevice

open EndsUnlessOnDevice in
theorem exec_endsUnlessOnDevice (i : Instr) (s : State) : EndsUnlessOnDevice s (exec i s) := by
  cases i with
  | init d => exact ((next s _).ite ((next s _).ite (next s _))).issue
  | initpat d pat flag => exact ((next s _).ite (next s _).withAccess).issue
  | attach d flag => exact ((next s _).ite ((next s _).ite (next s _))).issue
  | detach d => exact (next s _).issue
  | setbit d val => exact (((next s _).withAccess.ite (next s _).withAccess).ite (next s _)).issue
  | getbit d => exact ((next s _).withAccess.ite (next s _)).issue
  | xor3 d a b => exact (EndsUnlessOnDevice.combine d a b).issue
  | xor2 d o => exact (EndsUnlessOnDevice.combine d d o).issue
  | hassurv d a => exact (EndsUnlessOnDevice.surviveBy _ _ d a).issue

theorem exec_next_of_plainMemory (h : ∀ r ∈ s.platform, r.kind ≠ .readSideEffects) (i : Instr) :
    ∃ t, exec i s = .next t :=
  (exec_endsUnlessOnDevice i s).resolve_right fun ⟨_, r, hr, hk⟩ => h r hr hk

/-- On memory without read side effects one engine turn completes a BUSY command, legal word or not. -/
theorem engineTurn_completes (hb : s.status.busy = true) (h : ∀ r ∈ s.platform, r.kind ≠ .readSideEffects) :
    ∃ t, engineTurn s = .next t ∧ t.status.busy = false ∧ t.status.done = true ∧ t.turns = s.turns := by
  cases hd : decode s.cur.word with
  | error e =>
    unfold engineTurn runCommand
    rw [if_pos hb, hd]
    by_cases hh : s.status.halted = true
    · exact ⟨_, if_pos hh, rfl, rfl, rfl⟩
    · exact ⟨_, if_neg hh, rfl, rfl, rfl⟩
  | ok i =>
    obtain ⟨t, ht⟩ := exec_next_of_plainMemory h i
    obtain ⟨-, -, -, -, -, hturns, -, -, -, hbusy, hdone, -⟩ := exec_block ht
    refine ⟨_, engineTurn_of_exec hb hd ht, ?_, ?_, ?_⟩
    · rw [settleRace_busy, hbusy]
    · rw [settleRace_done, hdone]
    · exact (sameBlock_settleRace i s t).turns.trans hturns

/-! ## Waiting -/

theorem step_wait_of_done (h : s.turns = .wait :: rest) (hd : s.status.done = true) :
    step s = .next { s with turns := rest, answer := .word (s.register 0x008) } := by
  rw [step_of_turns h]
  simp only [takeTurn, hostWait, hd, if_true]
  rfl

theorem step_wait_of_not_done (h : s.turns = .wait :: rest) (hd : s.status.done = false) :
    step s = .next { s with turns := .engine :: .wait :: rest, answer := .word (s.register 0x008) } := by
  rw [step_of_turns h]
  simp only [takeTurn, hostWait, hd]
  rfl

/-- Bit 1 of the STATUS word is DONE (10_state.md R31). -/
theorem register_status_done (s : State) : (s.register 0x008).getLsbD 1 = s.status.done :=
  (statusWord_flags s.status).2.1

/-- A `wait` on a BUSY command reads STATUS, lets the engine complete the command, and ends with the next read. -/
theorem wait_ends_after_completion (h : s.turns = .wait :: rest) (hb : s.status.busy = true)
    (hd : s.status.done = false) (hp : ∀ r ∈ s.platform, r.kind ≠ .readSideEffects) :
    ∃ t u r, step s = .next t ∧ step t = .next u ∧ step u = .next r ∧ r.turns = rest
      ∧ r.answer = .word (u.register 0x008) ∧ (u.register 0x008).getLsbD 1 = true := by
  obtain ⟨u, hu, -, hdone, hturns⟩ :=
    engineTurn_completes (s := { s with turns := .wait :: rest, answer := .word (s.register 0x008) }) hb hp
  exact ⟨_, u, _, step_wait_of_not_done h hd, (step_of_turns (n := .engine) (rest := .wait :: rest) rfl).trans hu,
    step_wait_of_done hturns hdone, rfl, rfl, (register_status_done u).trans hdone⟩

/-! ## Zeroing -/

theorem partialOverlap_self (s : State) (d : SlotNum) : s.partialOverlap d d = false := by simp [State.partialOverlap]

/-- `xor3 vD, vD, vD` on an attached slot writes the XOR of its units with themselves. -/
theorem execXor3_self {d : SlotNum} (hi : Issued (.xor3 d d d) s) (hm : (s.slot d).mode ≠ .empty)
    (ha : Answered [s.wholeSlot d] [s.wholeSlot d] s) :
    exec (.xor3 d d d) s = finish false (s.writeUnits d 0 (xorUnits (s.units d) (s.units d))) := by
  have hv : s.vectorError d [d, d] = .ok := vectorError_ok.2 ⟨hm, by simp [hm]⟩
  have hacc : Answered [s.wholeSlot d, s.wholeSlot d] [s.wholeSlot d] s := ha.subset (by simp) (by simp)
  calc exec (.xor3 d d d) s = combine d d d s := issue_of_issued hi
    _ = _ := by
      unfold combine
      rw [hv]
      simp [withAccess_of_answered hacc, partialOverlap_self]

theorem zero_clears_every_unit {d : SlotNum} (hm : (s.slot d).mode ≠ .empty) {u : Nat} (hu : u < s.unitLength d) :
    (s.writeUnits d 0 (xorUnits (s.units d) (s.units d))).unitRead d u = 0 := by
  have hlen : u < (xorUnits (s.units d) (s.units d)).length := by simpa [xorUnits, State.units] using hu
  have hread := unitRead_writeUnits_inside hm (lo := 0) hlen
  rwa [Nat.zero_add, xorUnits_getElem, BitVec.xor_self] at hread

/-- Settles O60: the expansions, `zero` as the XOR of a slot with itself, and the turns of a `wait`. -/
theorem pseudoLinesExpand : Obligations.PseudoLinesExpand := by
  refine ⟨fun d a i => ⟨rfl, rfl, rfl, fun hd ha => ?_, rfl, fun c => rfl⟩, fun s d hi _ hm ha => ?_,
    fun s rest h => ⟨step_wait_of_done h, step_wait_of_not_done h, wait_ends_after_completion h⟩⟩
  · simp [assemble, asmXor3, asmXor2, asmSlot_of_lt hd, asmSlot_of_lt ha]
  · have hz : assemble (.zero d.val) = some [Command.plain (.xor3 d d d)] := by
      simp [assemble, asmXor3, asmSlot_of_lt d.isLt]
    exact ⟨_, _, hz, encodeThenDecodeGivesBack _, execXor3_self hi hm ha, ⟨rfl, rfl, rfl, rfl⟩,
      fun u hu => zero_clears_every_unit hm hu⟩

end Sys2Proof.Machine
end

section
/-! INIT, ATTACH, DETACH and INITPAT (40_vector_lifecycle.md R110 to R119): one equation per outcome, the frame of a
command that writes one slot, and the statements. -/
namespace Sys2Proof.Machine

variable {s : State} {d : SlotNum} {i : Instr} {sl : Slot} {n addr : Word} {pat flag : Byte}

/-! ## INIT, ATTACH and DETACH: one equation per outcome -/

theorem execInit_of_zero (hi : Issued (.init d) s) (h0 : s.cur.opa = 0) :
    exec (.init d) s = finish false (s.setSlot d Slot.emptied) :=
  (issue_of_issued hi).trans (if_pos h0)

theorem execInit_of_beyond (hi : Issued (.init d) s) (h0 : s.cur.opa ≠ 0)
    (h : s.cfg.maxUnits < ceil8 s.cur.opa.toNat) :
    exec (.init d) s = raise .alloc { s with status := s.status.halting } :=
  (issue_of_issued hi).trans ((if_neg h0).trans (if_pos h))

theorem execInit_of_fits (hi : Issued (.init d) s) (h0 : s.cur.opa ≠ 0)
    (h : ceil8 s.cur.opa.toNat ≤ s.cfg.maxUnits) :
    exec (.init d) s = finish false (s.setSlot d (Slot.allocated s.cur.opa)) :=
  (issue_of_issued hi).trans ((if_neg h0).trans (if_neg (Nat.not_lt.2 h)))

theorem execAttach_of_zero (hi : Issued (.attach d flag) s) (h0 : s.cur.opa = 0) :
    exec (.attach d flag) s = finish false (s.setSlot d Slot.emptied) :=
  (issue_of_issued hi).trans (if_pos h0)

theorem execAttach_of_outside (hi : Issued (.attach d flag) s) (h0 : s.cur.opa ≠ 0)
    (h : 2 ^ s.cfg.aw ≤ s.cur.opb.toNat ∨ 2 ^ s.cfg.aw < s.cur.opb.toNat + ceil8 s.cur.opa.toNat) :
    exec (.attach d flag) s = raise .range s :=
  (issue_of_issued hi).trans ((if_neg h0).trans (if_pos (outsideRange_iff.2 h)))

theorem ceil8_pos (h : n ≠ 0) : 0 < ceil8 n.toNat := by
  have hn : n.toNat ≠ 0 := fun e => h (BitVec.eq_of_toNat_eq e)
  unfold ceil8
  omega

/-- A buffer of at least one unit that ends by the top also begins below it: the second test of R117 is the whole
one. -/
theorem execAttach_of_inside (hi : Issued (.attach d flag) s) (h0 : s.cur.opa ≠ 0)
    (h : s.cur.opb.toNat + ceil8 s.cur.opa.toNat ≤ 2 ^ s.cfg.aw) :
    exec (.attach d flag) s = finish false (s.setSlot d (Slot.attachedAt s.cur.opb s.cur.opa flag)) := by
  have hin : ¬ outsideRange s.cfg s.cur.opb s.cur.opa = true := by
    have hpos := ceil8_pos h0
    rw [outsideRange_iff, extSize]
    omega
  exact (issue_of_issued hi).trans ((if_neg h0).trans (if_neg hin))

theorem execDetach_eq (hi : Issued (.detach d) s) : exec (.detach d) s = finish false (s.setSlot d Slot.emptied) :=
  issue_of_issued hi

/-! ## What a written slot reads -/

theorem unitRead_of_allocated (h : s.slot d = Slot.allocated n) (u : Nat) : s.unitRead d u = 0 := by
  unfold State.unitRead
  rw [h]
  rfl

theorem unitRead_of_attachedAt (h : s.slot d = Slot.attachedAt addr n flag) (u : Nat) :
    s.unitRead d u = Memory.read s.ext (addr.toNat + u) := by
  rw [unitRead_of_borrowed (by rw [h]; rfl), h]
  rfl

theorem unitLength_of_slot (h : s.slot d = sl) : s.unitLength d = (sl.bitLength.toNat + 7) / 8 := by
  rw [State.unitLength, h]
  rfl

/-! ## The frame of a command that writes one slot and completes -/

/-- The rest of such a command's outcome, `P`, follows from the slot it leaves and the external memory it keeps. -/
theorem exists_next_of_finish_setSlot {P : State → Prop} (hd : d.val < s.slots.length)
    (he : exec i s = finish false (s.setSlot d sl)) (hP : ∀ t, t.slot d = sl → t.ext = s.ext → P t) :
    ∃ t, exec i s = .next t ∧ Completed t .ok false ∧ SameBlock s t ∧ OtherSlotsSame d s t ∧ SameExt s t
      ∧ t.draws = s.draws ∧ P t := by
  have hslot : (complete .ok false (s.setSlot d sl)).slot d = sl := (slot_setSlot hd sl d).trans (if_pos rfl)
  refine ⟨_, he, completed_ok _ _, ?_, fun k hk => slot_setSlot_of_ne hk sl, fun a => rfl, rfl, hP _ hslot rfl⟩
  constructor <;> simp

theorem exists_next_of_emptied (hd : d.val < s.slots.length)
    (he : exec i s = finish false (s.setSlot d Slot.emptied)) :
    ∃ t, exec i s = .next t ∧ Completed t .ok false ∧ SameBlock s t ∧ OtherSlotsSame d s t ∧ SameExt s t
      ∧ t.draws = s.draws ∧ (t.slot d).mode = .empty ∧ (t.slot d).bitLength = 0 ∧ (t.slot d).extFlag = 0
      ∧ (t.slot d).base = 0 ∧ t.unitLength d = 0 := by
  refine exists_next_of_finish_setSlot hd he fun t ht _ => ?_
  rw [unitLength_of_slot ht, ht]
  exact ⟨rfl, rfl, rfl, rfl, rfl⟩

/-! ## INIT, ATTACH and DETACH: the statements -/

/-- Settles O17: INIT writes the allocated slot, whose bytes are none listed and so read zero. -/
theorem initAllocatesZeroedSlot : Obligations.InitAllocatesZeroedSlot := by
  intro s d hi hinv h0 hfit
  refine exists_next_of_finish_setSlot (hinv.named_lt hi.2 (by simp [Instr.slots])) (execInit_of_fits hi h0 hfit)
    fun t ht _ => ?_
  rw [unitLength_of_slot ht, ht]
  exact ⟨rfl, rfl, rfl, rfl, rfl, fun u _ => unitRead_of_allocated ht u⟩

/-- Settles O18: INIT beyond the capacity sets HALTED and completes, and writes no slot. -/
theorem initBeyondCapacityHalts : Obligations.InitBeyondCapacityHalts := by
  intro s d hi hbig h0
  exact ⟨_, execInit_of_beyond hi h0 hbig, completed_complete _ _ _, rfl, rfl, sameStorage_complete _ _ _, rfl, rfl,
    rfl, rfl, rfl, rfl, rfl, rfl, rfl⟩

/-- Settles O19: both commands test the length before anything else and empty the slot. -/
theorem zeroLengthEmptiesSlot : Obligations.ZeroLengthEmptiesSlot := by
  rintro s d i (rfl | ⟨flag, rfl⟩) hi hinv h0
  · exact exists_next_of_emptied (hinv.named_lt hi.2 (by simp [Instr.slots])) (execInit_of_zero hi h0)
  · exact exists_next_of_emptied (hinv.named_lt hi.2 (by simp [Instr.slots])) (execAttach_of_zero hi h0)

/-- Settles O21: ATTACH writes the borrowed slot, whose units are the external bytes from its base. -/
theorem attachBorrowsBuffer : Obligations.AttachBorrowsBuffer := by
  intro s d flag hi hinv h0 hin
  refine exists_next_of_finish_setSlot (hinv.named_lt hi.2 (by simp [Instr.slots])) (execAttach_of_inside hi h0 hin)
    fun t ht hext => ?_
  rw [unitLength_of_slot ht, ht, ← hext]
  exact ⟨rfl, rfl, rfl, rfl, rfl, fun u _ => unitRead_of_attachedAt ht u⟩

/-- Settles O22: outside the address space ATTACH only completes; a buffer that ends at the top is inside. -/
theorem attachOutsideSpaceIsRange : Obligations.AttachOutsideSpaceIsRange := by
  intro s d flag hi h0
  exact ⟨fun hout => ⟨_, execAttach_of_outside hi h0 hout, completed_complete _ _ _, sameBlock_complete _ _ _,
      sameStorage_complete _ _ _⟩,
    fun hin => ⟨_, execAttach_of_inside hi h0 hin, completed_ok _ _⟩⟩

/-- Settles O23: DETACH has no check of its own and empties the slot. -/
theorem detachEmptiesSlot : Obligations.DetachEmptiesSlot := by
  intro s d hi hinv
  exact exists_next_of_emptied (hinv.named_lt hi.2 (by simp [Instr.slots])) (execDetach_eq hi)

/-! ## INITPAT -/

/-- What INITPAT leaves before it completes: every unit of slot `d` filled, then the flag set. -/
def State.filled (s : State) (d : SlotNum) (pat flag : Byte) : State :=
  (s.writeUnits d 0 (List.replicate (s.unitLength d) pat)).setExtFlag d flag

theorem execInitpat_of_answered (hi : Issued (.initpat d pat flag) s) (hm : (s.slot d).mode ≠ .empty)
    (ha : Answered [] [s.wholeSlot d] s) :
    exec (.initpat d pat flag) s = finish false (s.filled d pat flag) := by
  have hat : ¬ s.unattached d = true := by simpa [State.unattached, Slot.isEmpty] using hm
  exact (issue_of_issued hi).trans ((if_neg hat).trans (withAccess_of_answered ha))

theorem sameBlock_filled (s : State) (d : SlotNum) (pat flag : Byte) : SameBlock s (s.filled d pat flag) := by
  constructor <;> simp [State.filled]

theorem slot_filled_of_ne {k : SlotNum} (hk : k ≠ d) : (s.filled d pat flag).slot k = s.slot k :=
  (slot_setSlot_of_ne hk _).trans (writeUnits_slot_ne s 0 _ hk)

theorem extFlag_filled (hm : (s.slot d).mode ≠ .empty) : ((s.filled d pat flag).slot d).extFlag = flag := by
  have hd : d.val < (s.writeUnits d 0 (List.replicate (s.unitLength d) pat)).slots.length := by
    simpa using lt_of_attached hm
  rw [State.filled, slot_setExtFlag hd, if_pos rfl]

theorem sameExtBut_filled (s : State) (d : SlotNum) (pat flag : Byte) :
    SameExtBut d (fun u => u < s.unitLength d) s (s.filled d pat flag) :=
  fun _ ha => writeUnits_ext fun u _ hu => ha u (by simpa using hu)

theorem unitRead_filled (hm : (s.slot d).mode ≠ .empty) {u : Nat} (hu : u < s.unitLength d) :
    (s.filled d pat flag).unitRead d u = pat := by
  have hin : u < (List.replicate (s.unitLength d) pat).length := by simpa using hu
  have hread := unitRead_writeUnits_inside hm (lo := 0) hin
  rw [Nat.zero_add, List.getElem_replicate] at hread
  exact (setExtFlag_unitRead _ d flag d u).trans hread

/-- Settles O20: INITPAT completes with the filled slot; its unit writes keep every field but the buffer. -/
theorem initpatFillsEveryUnit : Obligations.InitpatFillsEveryUnit := by
  intro s d pat flag hi _ hm ha
  refine ⟨complete .ok false (s.filled d pat flag), execInitpat_of_answered hi hm ha, completed_ok _ _,
    (sameBlock_filled s d pat flag).trans (sameBlock_complete _ _ _), fun k hk => slot_filled_of_ne hk,
    sameExtBut_filled s d pat flag, ?_, ?_, ?_, ?_, extFlag_filled hm, fun u hu => unitRead_filled hm hu⟩
  all_goals simp [State.filled]

end Sys2Proof.Machine
end

section
/-! SETBIT and GETBIT (41_bit_access.md R140 to R146): one equation per outcome of SETBIT, the unit write it amounts to,
and the statements. -/
namespace Sys2Proof.Machine

variable {s : State} {d : SlotNum} {val : Bool}

/-! ## SETBIT: one equation per outcome -/

/-- SETBIT of the value the bit holds asks the platform for the read alone (R143). -/
theorem execSetbit_of_held (hi : Issued (.setbit d val) s) (hv : s.indexValid d = true)
    (hb : s.bitWritten d val = s.unitRead d (unitOf s.indexOperand)) :
    exec (.setbit d val) s = withAccess [s.bitSpan d] [] (s.bitSpan d) s (finish false s) :=
  (issue_of_issued hi).trans ((if_pos hv).trans (if_pos hb))

theorem execSetbit_of_changed (hi : Issued (.setbit d val) s) (hv : s.indexValid d = true)
    (hb : s.bitWritten d val ≠ s.unitRead d (unitOf s.indexOperand)) (ha : Answered [s.bitSpan d] [s.bitSpan d] s) :
    exec (.setbit d val) s = finish false (s.unitWrite d (unitOf s.indexOperand) (s.bitWritten d val)) :=
  (issue_of_issued hi).trans ((if_pos hv).trans ((if_neg hb).trans (withAccess_of_answered ha)))

/-! ## Writing back what is read -/

theorem Memory.write_read {m : Memory} (h : Memory.wf m = true) (a : Nat) : Memory.write m a (Memory.read m a) = m := by
  refine Memory.ext_of_wf (Memory.wf_write h) h fun x => ?_
  rw [Memory.read_write]
  split
  · next hx => rw [hx]
  · rfl

/-- The canonical form of the buffers makes a write of the byte a unit holds no change of the state at all. -/
theorem Inv.unitWrite_unitRead (h : Inv s) (d : SlotNum) (u : Nat) : s.unitWrite d u (s.unitRead d u) = s := by
  unfold State.unitWrite State.unitRead
  cases hm : (s.slot d).mode with
  | empty => rfl
  | owned =>
    dsimp only
    rw [Memory.write_read (h.slot_inv d).own_wf]
    exact setSlot_self
  | borrowed =>
    dsimp only
    rw [Memory.write_read h.ext_wf]

/-- SETBIT leaves what writing the unit would leave, also where it performs no write (R142, R143). -/
theorem execSetbit_of_answered (hi : Issued (.setbit d val) s) (hinv : Inv s) (hv : s.indexValid d = true)
    (ha : Answered [s.bitSpan d] [s.bitSpan d] s) :
    exec (.setbit d val) s = finish false (s.unitWrite d (unitOf s.indexOperand) (s.bitWritten d val)) := by
  by_cases hb : s.bitWritten d val = s.unitRead d (unitOf s.indexOperand)
  · rw [hb, hinv.unitWrite_unitRead, execSetbit_of_held hi hv hb]
    exact withAccess_of_answered (ha.subset (by simp) (by simp))
  · exact execSetbit_of_changed hi hv hb ha

/-! ## The frame of a unit write -/

theorem sameBlock_unitWrite (s : State) (d : SlotNum) (u : Nat) (v : Byte) : SameBlock s (s.unitWrite d u v) := by
  constructor <;> simp

theorem sameFields_unitWrite (s : State) (d : SlotNum) (u : Nat) (v : Byte) : SameFields d s (s.unitWrite d u v) :=
  ⟨unitWrite_mode s d u v d, unitWrite_bitLength s d u v d, unitWrite_extFlag s d u v d, unitWrite_base s d u v d⟩

theorem sameExtBut_unitWrite (s : State) (d : SlotNum) (u : Nat) (v : Byte) :
    SameExtBut d (fun w => w = u) s (s.unitWrite d u v) :=
  fun a ha => (unitWrite_ext s d u v a).trans (if_neg (ha u rfl))

/-! ## The bits of the slot -/

/-- An EMPTY slot has bit length 0, so no index is valid for it (R140). -/
theorem Inv.attached_of_indexValid (h : Inv s) (hv : s.indexValid d = true) : (s.slot d).mode ≠ .empty := by
  intro hm
  rw [indexValid_iff, (h.slot_inv d).empty_iff.1 hm] at hv
  exact Nat.not_lt_zero _ hv

/-- Of all bits of all units only the addressed one changes. -/
theorem getLsbD_unitWrite_bitWritten (hm : (s.slot d).mode ≠ .empty) (u p : Nat) :
    ((s.unitWrite d (unitOf s.indexOperand) (s.bitWritten d val)).unitRead d u).getLsbD p =
      if u = unitOf s.indexOperand ∧ p = bitpos s.indexOperand then val else (s.unitRead d u).getLsbD p := by
  rw [unitRead_unitWrite hm]
  by_cases hu : u = unitOf s.indexOperand
  · rw [if_pos hu, getLsbD_bitWritten, hu]
    simp
  · rw [if_neg hu, if_neg fun h => hu h.1]

/-! ## Statements -/

/-- Settles O24: SETBIT amounts to one unit write, whose byte differs from the unit's in the addressed bit only. -/
theorem setbitWritesOneBit : Obligations.SetbitWritesOneBit := by
  intro s d val hi hinv hidx ha
  have hv := indexValid_iff.2 hidx
  exact ⟨_, execSetbit_of_answered hi hinv hv ha, completed_ok _ _,
    (sameBlock_unitWrite _ _ _ _).trans (sameBlock_complete _ _ _), fun k hk => unitWrite_slot_ne s _ _ hk,
    sameFields_unitWrite _ _ _ _, sameExtBut_unitWrite _ _ _ _, unitWrite_draws _ _ _ _,
    fun u p _ _ => getLsbD_unitWrite_bitWritten (hinv.attached_of_indexValid hv) u p⟩

/-- Settles O25: the byte SETBIT computes is the unit's own, so the read is its one access. -/
theorem setbitOfHeldValueWritesNothing : Obligations.SetbitOfHeldValueWritesNothing := by
  intro s d val hi hidx hheld
  have he := execSetbit_of_held hi (indexValid_iff.2 hidx) ((bitWritten_eq_iff s d val).2 hheld)
  refine ⟨fun ha => ?_, fun hplain hr => ?_⟩
  · exact ⟨_, he.trans (withAccess_of_answered ha), completed_ok _ _, sameBlock_complete _ _ _,
      sameStorage_complete _ _ _⟩
  · exact ⟨_, he.trans (withAccess_bus hplain (.inl (by simpa using hr))), completed_complete _ _ _⟩

/-- Settles O26: GETBIT only completes, with the bit it reads. -/
theorem getbitReadsOneBit : Obligations.GetbitReadsOneBit := by
  intro s d hi hidx ha
  exact ⟨_, execGetbit_of_answered hi (indexValid_iff.2 hidx) ha, completed_ok _ _, sameBlock_complete _ _ _,
    sameStorage_complete _ _ _⟩

/-- Settles O27: SETBIT keeps the shape of the state, so both later commands run as the first one did, on a bit that
holds the value: O26 reads it, and O25 says that the second SETBIT writes nothing. -/
theorem setThenGetReturnsValue : Obligations.SetThenGetReturnsValue := by
  intro s d val hi hinv hidx ha
  obtain ⟨t, ht, -, hblock, hothers, hfields, -, -, hbits⟩ := setbitWritesOneBit s d val hi hinv hidx ha
  have hshape := sameShape_of_frame hblock hothers hfields
  have hit : Issued (.setbit d val) t := hshape.issued hi
  have hidxt : t.cur.opa.toNat < (t.slot d).bitLength.toNat := by rwa [hblock.cur, hfields.2.1]
  have hat : Answered [t.bitSpan d] [] t := by
    rw [hshape.bitSpan]
    exact hshape.answered (ha.subset (by simp) (by simp))
  have hbit : (t.unitRead d (t.cur.opa.toNat / 8)).getLsbD (7 - t.cur.opa.toNat % 8) = val := by
    rw [hblock.cur]
    exact (hbits _ _ (unitOf_lt hidx) (bitpos_lt _)).trans (if_pos ⟨rfl, rfl⟩)
  obtain ⟨r, hr, hrc, -, -⟩ := getbitReadsOneBit t d hit hidxt hat
  obtain ⟨r', hr', hrc', -, hslots, hext, -⟩ := (setbitOfHeldValueWritesNothing t d val hit hidxt hbit).1 hat
  exact ⟨t, r, r', ht, hr, hbit ▸ hrc, hr', hrc', hslots, hext⟩

end Sys2Proof.Machine
end

section
/-! XOR3 and XOR2 (42_xor_combine.md R160 to R166): what a combination comes to, with and without partial overlap, the
frame of its unit writes, and the statements. -/
namespace Sys2Proof.Machine

variable {s : State} {d a b o : SlotNum} {i : Instr}

/-! ## The commands as combinations -/

theorem execXor3_eq (hi : Issued (.xor3 d a b) s) : exec (.xor3 d a b) s = combine d a b s :=
  issue_of_issued hi

theorem execXor2_eq (hi : Issued (.xor2 d o) s) : exec (.xor2 d o) s = combine d d o s :=
  issue_of_issued hi

/-- A receiver that is not EMPTY can be a source of its own. -/
theorem Compatible.with_receiver (h : Compatible s d [o]) : Compatible s d [d, o] :=
  ⟨h.1, by simpa [h.1] using h.2⟩

/-- Partial overlap asks for different bases. -/
theorem not_partlyOverlaps_self (s : State) (d : SlotNum) : ¬ PartlyOverlaps s d d := fun h => h.2 rfl

theorem not_partlyOverlaps_of_not_shareBytes (h : ¬ ShareBytes s d a) : ¬ PartlyOverlaps s d a := fun h' => h h'.1

theorem ShareBytes.symm (h : ShareBytes s d a) : ShareBytes s a d := by
  obtain ⟨x, hd, ha⟩ := h
  exact ⟨x, ha, hd⟩

/-! ## One equation per outcome -/

/-- What a combination without partial overlap leaves before it completes. -/
def State.combined (s : State) (d a b : SlotNum) : State :=
  s.writeUnits d 0 (xorUnits (s.units a) (s.units b))

theorem overlapTest_iff (hc : Compatible s d [a, b]) :
    (s.partialOverlap d a || s.partialOverlap d b) = true ↔ PartlyOverlaps s d a ∨ PartlyOverlaps s d b := by
  rw [Bool.or_eq_true, partialOverlap_iff (hc.2 a (by simp)).2, partialOverlap_iff (hc.2 b (by simp)).2]

theorem combine_of_not_overlapping (hc : Compatible s d [a, b])
    (ha : Answered [s.wholeSlot a, s.wholeSlot b] [s.wholeSlot d] s) (hna : ¬ PartlyOverlaps s d a)
    (hnb : ¬ PartlyOverlaps s d b) : combine d a b s = finish false (s.combined d a b) := by
  unfold combine
  rw [vectorError_ok.2 hc]
  exact (withAccess_of_answered ha).trans (if_neg (mt (overlapTest_iff hc).1 (not_or.2 ⟨hna, hnb⟩)))

theorem combine_of_overlapping (hc : Compatible s d [a, b])
    (ha : Answered [s.wholeSlot a, s.wholeSlot b] [s.wholeSlot d] s)
    (ho : PartlyOverlaps s d a ∨ PartlyOverlaps s d b) :
    combine d a b s = finish false (s.scramble (s.wholeSlot d)) := by
  unfold combine
  rw [vectorError_ok.2 hc]
  exact (withAccess_of_answered ha).trans (if_pos ((overlapTest_iff hc).2 ho))

/-! ## The frame -/

theorem sameBlock_combined (s : State) (d a b : SlotNum) : SameBlock s (s.combined d a b) := by
  constructor <;> simp [State.combined]

theorem sameFields_combined (s : State) (d a b : SlotNum) : SameFields d s (s.combined d a b) := by
  simp [SameFields, State.combined]

theorem sameExtBut_combined (hc : Compatible s d [a, b]) :
    SameExtBut d (fun u => u < s.unitLength d) s (s.combined d a b) :=
  fun _ hx => writeUnits_ext fun u _ hu => hx u (by simpa [length_xorUnits_of_compatible hc] using hu)

/-- A written unit reads the xor of the source units as they stood before, whichever slots coincide. -/
theorem unitRead_combined (hc : Compatible s d [a, b]) {u : Nat} (hu : u < s.unitLength d) :
    (s.combined d a b).unitRead d u = s.unitRead a u ^^^ s.unitRead b u := by
  have hin : u < (xorUnits (s.units a) (s.units b)).length := by rwa [length_xorUnits_of_compatible hc]
  have hread := unitRead_writeUnits_inside hc.1 (lo := 0) hin
  rwa [Nat.zero_add, xorUnits_getElem] at hread

theorem sameBlock_scramble (s : State) (sp : Span) : SameBlock s (s.scramble sp) := by
  constructor <;> simp

theorem sameFields_scramble (s : State) (sp : Span) (k : SlotNum) : SameFields k s (s.scramble sp) := by
  simp [SameFields]

/-! ## Statements -/

/-- Either command without partial overlap: what it leaves, and its frame. -/
theorem exists_next_of_combine (he : exec i s = combine d a b s) (hc : Compatible s d [a, b])
    (ha : Answered [s.wholeSlot a, s.wholeSlot b] [s.wholeSlot d] s) (hna : ¬ PartlyOverlaps s d a)
    (hnb : ¬ PartlyOverlaps s d b) :
    ∃ t, exec i s = .next t ∧ Completed t .ok false ∧ SameBlock s t ∧ OtherSlotsSame d s t
      ∧ SameFields d s t ∧ SameExtBut d (fun u => u < s.unitLength d) s t ∧ t.draws = s.draws
      ∧ ∀ u, u < s.unitLength d → t.unitRead d u = s.unitRead a u ^^^ s.unitRead b u :=
  ⟨_, he.trans (combine_of_not_overlapping hc ha hna hnb), completed_ok _ _,
    (sameBlock_combined s d a b).trans (sameBlock_complete _ _ _), fun _ hk => writeUnits_slot_ne s 0 _ hk,
    sameFields_combined s d a b, sameExtBut_combined hc, writeUnits_draws s d 0 _, fun _ hu => unitRead_combined hc hu⟩

/-- Settles O28: the units are written from the snapshot of both sources. -/
theorem xor3CombinesUnits : Obligations.Xor3CombinesUnits :=
  fun _ _ _ _ hi _ hc ha hna hnb => exists_next_of_combine (execXor3_eq hi) hc ha hna hnb

/-- Settles O29: XOR2 is the combination whose first source is the receiver, which never partly overlaps itself. -/
theorem xor2CombinesInPlace : Obligations.Xor2CombinesInPlace :=
  fun s d _ hi _ hc ha hno =>
    exists_next_of_combine (execXor2_eq hi) hc.with_receiver ha (not_partlyOverlaps_self s d) hno

/-- Settles O30: both commands are a combination of the listed slots, which on partial overlap draws the receiver's
units and nothing else. -/
theorem partialOverlapDrawsReceiver : Obligations.PartialOverlapDrawsReceiver := by
  intro s d i others hcmd hi _ hc ha ho
  obtain ⟨a, b, he, rfl⟩ : ∃ a b, exec i s = combine d a b s ∧ others = [a, b] := by
    rcases hcmd with ⟨a, b, rfl, rfl⟩ | ⟨o, rfl, rfl⟩
    · exact ⟨a, b, execXor3_eq hi, rfl⟩
    · exact ⟨d, o, execXor2_eq hi, rfl⟩
  refine ⟨_, he.trans (combine_of_overlapping hc ha (by simpa using ho)), completed_ok _ _,
    (sameBlock_scramble s _).trans (sameBlock_complete _ _ _), fun k hk => scramble_slot_ne s _ hk,
    sameFields_scramble s _ d, fun x hx => ?_, fun u hu => ?_⟩
  · exact scramble_ext fun u _ hu => hx u (by simpa [State.wholeSlot] using hu)
  · exact isDraw_scramble (sp := s.wholeSlot d) hc.1 (Nat.zero_le u) (by simpa [State.wholeSlot] using hu)

/-- Settles O31: the first command keeps the shape of the state and the units of `b`, so the second one xors `b` with
`a` xor `b`. -/
theorem xorIsSelfInverse : Obligations.XorIsSelfInverse := by
  intro s r1 r2 a b hdistinct hinv hi1 hi2 ⟨hm1, hothers⟩ hshare ha
  simp only [List.nodup_cons, List.mem_cons, List.not_mem_nil, or_false, not_or] at hdistinct
  obtain ⟨⟨-, -, h1b⟩, -⟩ := hdistinct
  simp only [List.pairwise_cons, List.mem_cons, List.not_mem_nil, or_false, forall_eq_or_imp, forall_eq] at hshare hothers
  obtain ⟨⟨hs12, hs1a, hs1b⟩, ⟨-, hs2b⟩, -⟩ := hshare
  obtain ⟨⟨hm2, hlen2⟩, ⟨hma, hlena⟩, hmb, hlenb⟩ := hothers
  obtain ⟨t, ht, htc, hblock, hslots, hfields, hext, -, hread1⟩ := xor3CombinesUnits s r1 a b hi1 hinv
    ⟨hm1, by simp [hma, hlena, hmb, hlenb]⟩ (ha.subset (by simp) (by simp))
    (not_partlyOverlaps_of_not_shareBytes hs1a) (not_partlyOverlaps_of_not_shareBytes hs1b)
  have hshape := sameShape_of_frame hblock hslots hfields
  obtain ⟨r, hr, hrc, -, -, -, -, -, hread2⟩ := xor3CombinesUnits t r2 r1 b (hshape.issued hi2) (hinv.of_exec ht)
    ⟨by rwa [(hshape.fields r2).1],
      by simp [(hshape.fields r1).1, (hshape.fields b).1, hshape.unitLength, hm1, hmb, hlen2, hlenb]⟩
    (by simpa only [hshape.wholeSlot] using hshape.answered (ha.subset (by simp) (by simp)))
    (not_partlyOverlaps_of_not_shareBytes fun h => hs12 (hshape.shareBytes.1 h).symm)
    (not_partlyOverlaps_of_not_shareBytes fun h => hs2b (hshape.shareBytes.1 h))
  refine ⟨t, r, ht, hr, htc, hrc, fun u hu => ?_⟩
  calc r.unitRead r2 u
      = t.unitRead r1 u ^^^ t.unitRead b u := hread2 u (by rw [hshape.unitLength]; omega)
    _ = s.unitRead a u ^^^ s.unitRead b u ^^^ s.unitRead b u := by
        rw [hread1 u (by omega), unitRead_of_disjoint hslots hext (Ne.symm h1b) hs1b (by omega)]
    _ = s.unitRead a u := by rw [BitVec.xor_assoc, BitVec.xor_self, BitVec.xor_zero]

end Sys2Proof.Machine
end

section
/-! Every order and grouping of the units of a combination ends in the same state (42_xor_combine.md R162): group by
group it is a list of writes of the snapshot's values, and writes of distinct units commute. -/
namespace Sys2Proof.Machine

variable {s : State} {d k a b : SlotNum} {u w : Nat} {ps qs : List (Nat × Byte)} {us : List Nat}
  {groups : List (List Nat)}

/-! ## Lists of unit writes -/

theorem writeAt_append (ps qs : List (Nat × Byte)) (s : State) :
    writeAt d (ps ++ qs) s = writeAt d qs (writeAt d ps s) := by
  induction ps generalizing s with
  | nil => rfl
  | cons p ps ih => exact ih _

@[simp] theorem writeAt_unitLength (ps : List (Nat × Byte)) (s : State) (k : SlotNum) :
    (writeAt d ps s).unitLength k = s.unitLength k := by
  induction ps generalizing s with
  | nil => rfl
  | cons p ps ih => exact (ih _).trans (unitWrite_unitLength s d p.1 p.2 k)

@[simp] theorem writeAt_unitAddress (ps : List (Nat × Byte)) (s : State) (k : SlotNum) (w : Nat) :
    (writeAt d ps s).unitAddress k w = s.unitAddress k w := by
  induction ps generalizing s with
  | nil => rfl
  | cons p ps ih => exact (ih _).trans (unitWrite_unitAddress s d p.1 p.2 k w)

/-- Units in rising order are what `writeUnits` writes. -/
theorem writeUnits_map_range' (f : Nat → Byte) (lo n : Nat) (s : State) :
    s.writeUnits d lo ((List.range' lo n).map f) = writeAt d ((List.range' lo n).map fun u => (u, f u)) s := by
  induction n generalizing lo s with
  | zero => rfl
  | succ n ih => exact ih (lo + 1) (s.unitWrite d lo (f lo))

/-! ## Writes of distinct units commute -/

theorem Memory.write_comm {m : Memory} (h : Memory.wf m = true) {x y : Nat} (hne : x ≠ y) (v v' : Byte) :
    Memory.write (Memory.write m x v) y v' = Memory.write (Memory.write m y v') x v := by
  refine Memory.ext_of_wf (Memory.wf_write (Memory.wf_write h)) (Memory.wf_write (Memory.wf_write h)) fun z => ?_
  simp only [Memory.read_write]
  by_cases hz : z = y
  · rw [if_pos hz, if_neg (by omega), if_pos hz]
  · rw [if_neg hz, if_neg hz]

theorem unitWrite_of_owned (hm : (s.slot d).mode = .owned) (u : Nat) (v : Byte) :
    s.unitWrite d u v = s.setSlot d { s.slot d with own := Memory.write (s.slot d).own u v } := by
  unfold State.unitWrite; rw [hm]

theorem unitWrite_of_borrowed (hm : (s.slot d).mode = .borrowed) (u : Nat) (v : Byte) :
    s.unitWrite d u v = s.withExt (Memory.write s.ext ((s.slot d).base.toNat + u) v) := by
  unfold State.unitWrite; rw [hm]; rfl

/-- The canonical form of the buffers makes either order of the writes the same state. -/
theorem Inv.unitWrite_comm (h : Inv s) (hne : u ≠ w) (v v' : Byte) :
    (s.unitWrite d u v).unitWrite d w v' = (s.unitWrite d w v').unitWrite d u v := by
  cases hm : (s.slot d).mode with
  | empty => simp [State.unitWrite, hm]
  | owned =>
    have hlt := lt_of_attached (s := s) (d := d) (by simp [hm])
    have hown := Memory.write_comm (h.slot_inv d).own_wf hne v v'
    simp [unitWrite_of_owned, hm, slot_setSlot hlt, setSlot_setSlot, hown]
  | borrowed =>
    have hadr : (s.slot d).base.toNat + u ≠ (s.slot d).base.toNat + w := by omega
    have hm' : ∀ m, ((s.withExt m).slot d).mode = .borrowed := fun _ => hm
    rw [unitWrite_of_borrowed hm, unitWrite_of_borrowed hm, unitWrite_of_borrowed (hm' _),
      unitWrite_of_borrowed (hm' _)]
    exact congrArg s.withExt (Memory.write_comm h.ext_wf hadr v v')

/-- The order of writes of distinct units does not matter. -/
theorem Inv.writeAt_perm (hperm : ps.Perm qs) (h : Inv s) (hlt : ∀ p ∈ ps, p.1 < s.unitLength d)
    (hnd : (ps.map Prod.fst).Nodup) : writeAt d ps s = writeAt d qs s := by
  induction hperm generalizing s with
  | nil => rfl
  | cons p _ ih =>
    rw [List.forall_mem_cons] at hlt
    exact ih (h.unitWrite hlt.1 p.2) (by simpa using hlt.2) (List.nodup_cons.1 hnd).2
  | swap p q ps =>
    have hne : q.1 ≠ p.1 := fun e => (List.nodup_cons.1 hnd).1 (by simp [e])
    exact congrArg (writeAt d ps) (h.unitWrite_comm hne q.2 p.2)
  | trans h1 _ ih1 ih2 =>
    exact (ih1 h hlt hnd).trans (ih2 h (fun p hp => hlt p (h1.mem_iff.2 hp)) ((h1.map _).nodup_iff.1 hnd))

/-! ## A unit write leaves every other unit of a source as it reads -/

/-- Slots `d` and `k` have as many units, and an external byte that both have is the same unit of either. -/
structure UnitsAligned (s : State) (d k : SlotNum) : Prop where
  length : s.unitLength k = s.unitLength d
  same : ∀ u w x, u < s.unitLength d → w < s.unitLength d → s.unitAddress d u = some x → s.unitAddress k w = some x →
    w = u

theorem unitsAligned_of_not_partlyOverlaps (hlen : s.unitLength k = s.unitLength d) (h : ¬ PartlyOverlaps s d k) :
    UnitsAligned s d k := by
  refine ⟨hlen, fun u w x hu hw hdx hkx => ?_⟩
  have hbase : (s.slot d).base = (s.slot k).base := by
    by_contra hne
    exact h ⟨⟨x, ⟨u, hu, hdx⟩, w, hlen ▸ hw, hkx⟩, hne⟩
  simp only [State.unitAddress, hbase, Option.ite_none_right_eq_some, Option.some.injEq] at hdx hkx
  omega

theorem UnitsAligned.after_writeAt (h : UnitsAligned s d k) (ps : List (Nat × Byte)) :
    UnitsAligned (writeAt d ps s) d k :=
  ⟨by simpa using h.length, by simpa using h.same⟩

theorem UnitsAligned.unitRead_unitWrite (h : UnitsAligned s d k) (hu : u < s.unitLength d) (hw : w < s.unitLength d)
    (hne : w ≠ u) (v : Byte) : (s.unitWrite d u v).unitRead k w = s.unitRead k w := by
  refine unitRead_congr (unitWrite_mode s d u v k) (unitWrite_base s d u v k) ?_ fun x hx => ?_
  · rw [unitWrite_slot]
    split
    · next hk => rw [hk.1, Memory.read_write, if_neg hne]
    · rfl
  · rw [unitWrite_ext, if_neg fun hdx => hne (h.same u w x hu hw hdx hx)]

theorem UnitsAligned.unitRead_writeAt (h : UnitsAligned s d k) (hps : ∀ p ∈ ps, p.1 < s.unitLength d)
    (hw : w < s.unitLength d) (hne : ∀ p ∈ ps, w ≠ p.1) : (writeAt d ps s).unitRead k w = s.unitRead k w := by
  induction ps generalizing s with
  | nil => rfl
  | cons p ps ih =>
    rw [List.forall_mem_cons] at hps hne
    exact (ih (h.after_writeAt [p]) (by simpa using hps.2) (by simpa using hw) hne.2).trans
      (h.unitRead_unitWrite hps.1 hw hne.1 p.2)

/-! ## Combinations as lists of writes -/

/-- The writes that combine units `us` of slots `a` and `b` as they stand. -/
def State.xorWrites (s : State) (a b : SlotNum) (us : List Nat) : List (Nat × Byte) :=
  us.map fun u => (u, s.unitRead a u ^^^ s.unitRead b u)

theorem xorWrites_units (s : State) (a b : SlotNum) (us : List Nat) : (s.xorWrites a b us).map Prod.fst = us := by
  simp [State.xorWrites, Function.comp_def]

theorem mem_of_mem_xorWrites {p : Nat × Byte} (hp : p ∈ s.xorWrites a b us) : p.1 ∈ us := by
  rw [← xorWrites_units s a b us]
  exact List.mem_map_of_mem hp

/-- Units that `ps` does not write are combined after it as before it. -/
theorem xorWrites_writeAt (ha : UnitsAligned s d a) (hb : UnitsAligned s d b) (hps : ∀ p ∈ ps, p.1 < s.unitLength d)
    (hus : ∀ w ∈ us, w < s.unitLength d) (hne : ∀ w ∈ us, ∀ p ∈ ps, w ≠ p.1) :
    (writeAt d ps s).xorWrites a b us = s.xorWrites a b us :=
  List.map_congr_left fun w hw => by
    rw [ha.unitRead_writeAt hps (hus w hw) (hne w hw), hb.unitRead_writeAt hps (hus w hw) (hne w hw)]

theorem combined_eq_writeAt (hc : Compatible s d [a, b]) :
    s.combined d a b = writeAt d (s.xorWrites a b (List.range (s.unitLength d))) s := by
  have hunits : xorUnits (s.units a) (s.units b) =
      (List.range' 0 (s.unitLength d)).map fun u => s.unitRead a u ^^^ s.unitRead b u := by
    simp [xorUnits, State.units, (hc.2 a (by simp)).2, (hc.2 b (by simp)).2, List.range_eq_range', List.zipWith_map]
  rw [State.combined, hunits, writeUnits_map_range', State.xorWrites, List.range_eq_range']

/-- The units of the groups to come read as in the snapshot, so every group writes the snapshot's values. -/
theorem combineByGroups_eq_writeAt (ha : UnitsAligned s d a) (hb : UnitsAligned s d b)
    (hlt : ∀ u ∈ groups.flatten, u < s.unitLength d) (hnd : groups.flatten.Nodup) :
    combineByGroups d a b groups s = writeAt d (s.xorWrites a b groups.flatten) s := by
  induction groups generalizing s with
  | nil => rfl
  | cons g gs ih =>
    rw [List.flatten_cons, List.forall_mem_append] at hlt
    obtain ⟨hltg, hltgs⟩ := hlt
    obtain ⟨-, hndgs, hdisjoint⟩ := List.nodup_append.1 hnd
    have hkept : (writeAt d (s.xorWrites a b g) s).xorWrites a b gs.flatten = s.xorWrites a b gs.flatten :=
      xorWrites_writeAt ha hb (fun p hp => hltg _ (mem_of_mem_xorWrites hp)) hltgs
        fun w hw p hp => (hdisjoint _ (mem_of_mem_xorWrites hp) w hw).symm
    calc combineByGroups d a b (g :: gs) s
        = combineByGroups d a b gs (writeAt d (s.xorWrites a b g) s) := rfl
      _ = writeAt d (s.xorWrites a b gs.flatten) (writeAt d (s.xorWrites a b g) s) := by
          rw [ih (ha.after_writeAt _) (hb.after_writeAt _) (by simpa using hltgs) hndgs, hkept]
      _ = writeAt d (s.xorWrites a b (g :: gs).flatten) s := by
          rw [← writeAt_append, List.flatten_cons, State.xorWrites, State.xorWrites, State.xorWrites, List.map_append]

/-! ## The statement -/

theorem combine_eq_combineByGroups (hinv : Inv s) (hc : Compatible s d [a, b])
    (ha : Answered [s.wholeSlot a, s.wholeSlot b] [s.wholeSlot d] s) (hna : ¬ PartlyOverlaps s d a)
    (hnb : ¬ PartlyOverlaps s d b) (hperm : groups.flatten.Perm (List.range (s.unitLength d))) :
    combine d a b s = .next (complete .ok false (combineByGroups d a b groups s)) := by
  have hlt : ∀ u ∈ groups.flatten, u < s.unitLength d := fun u hu => List.mem_range.1 (hperm.mem_iff.1 hu)
  have hnd : groups.flatten.Nodup := hperm.nodup_iff.2 List.nodup_range
  have hgroups := combineByGroups_eq_writeAt (unitsAligned_of_not_partlyOverlaps (hc.2 a (by simp)).2 hna)
    (unitsAligned_of_not_partlyOverlaps (hc.2 b (by simp)).2 hnb) hlt hnd
  have horder : writeAt d (s.xorWrites a b groups.flatten) s =
      writeAt d (s.xorWrites a b (List.range (s.unitLength d))) s :=
    hinv.writeAt_perm (hperm.map _) (fun p hp => hlt _ (mem_of_mem_xorWrites hp)) (by rwa [xorWrites_units])
  rw [combine_of_not_overlapping hc ha hna hnb, combined_eq_writeAt hc, hgroups, horder]
  rfl

/-- Settles O32: for XOR2 the receiver is the first source, and it never partly overlaps itself. -/
theorem everyDatapathGivesSnapshotResult : Obligations.EveryDatapathGivesSnapshotResult :=
  ⟨fun _ _ _ _ _ hi hinv hc ha hna hnb hperm =>
      (execXor3_eq hi).trans (combine_eq_combineByGroups hinv hc ha hna hnb hperm),
    fun s d _ _ hi hinv hc ha hno hperm => (execXor2_eq hi).trans
      (combine_eq_combineByGroups hinv hc.with_receiver ha (not_partlyOverlaps_self s d) hno hperm)⟩

end Sys2Proof.Machine
end

section
/-! HASSURV (43_redundancy_check.md R190 to R197): what the check comes to where the platform answers and where it
refuses, the per-unit tests, the binding case, and the statements. -/
namespace Sys2Proof.Machine

variable {s : State} {d a : SlotNum} {surv : List Byte → List Byte → Bool} {early : Bool} {rule : SurvRule}
  {m r o : Byte}

/-! ## One equation per outcome -/

theorem execHassurv_eq (hi : Issued (.hassurv d a) s) :
    exec (.hassurv d a) s
      = surviveBy (survives s.cfg.survRule s.cfg.survMask) (s.failsReadably d a) d a s :=
  issue_of_issued hi

theorem surviveBy_of_answered (hc : Compatible s d [a]) (ha : Answered [s.wholeSlot d, s.wholeSlot a] [] s) :
    surviveBy surv early d a s = finish (surv (s.units d) (s.units a)) s := by
  obtain ⟨hdev, hreads, -⟩ := ha
  unfold surviveBy
  rw [vectorError_ok.2 hc]
  exact (if_neg (by simpa using hdev)).trans (if_neg (by simpa using hreads))

/-- A refused read where a readable unit has decided the check: a free bit chooses the ending. -/
theorem surviveBy_of_refused (hc : Compatible s d [a]) (hdev : s.onDevice [s.wholeSlot d, s.wholeSlot a] = false)
    (hr : s.readRefused (s.wholeSlot d) = true ∨ s.readRefused (s.wholeSlot a) = true) :
    surviveBy surv true d a s = if s.freeBit then finish false (s.tick 1) else raise .bus (s.tick 1) := by
  unfold surviveBy
  rw [vectorError_ok.2 hc]
  exact (if_neg (by simpa using hdev)).trans ((if_pos (by simpa using hr)).trans (if_pos rfl))

theorem execHassurv_of_answered (hi : Issued (.hassurv d a) s) (hc : Compatible s d [a])
    (ha : Answered [s.wholeSlot d, s.wholeSlot a] [] s) :
    exec (.hassurv d a) s
      = finish (survives s.cfg.survRule s.cfg.survMask (s.units d) (s.units a)) s :=
  (execHassurv_eq hi).trans (surviveBy_of_answered hc ha)

theorem sameBlock_complete_tick (s : State) (n : Nat) (e : ErrCode) (b : Bool) :
    SameBlock s (complete e b (s.tick n)) := by
  constructor <;> rfl

/-! ## Receiver and other exchanged -/

theorem Issued.hassurv_symm (h : Issued (.hassurv d a) s) : Issued (.hassurv a d) s :=
  ⟨h.1, by simpa [Instr.wf, Instr.slots, and_comm] using h.2⟩

theorem Compatible.symm (h : Compatible s d [a]) : Compatible s a [d] := by
  obtain ⟨hm, ha⟩ := h
  obtain ⟨hm', hlen⟩ := ha a (by simp)
  exact ⟨hm', by simp [hm, hlen]⟩

theorem execHassurv_swap_of_answered (hi : Issued (.hassurv d a) s) (hc : Compatible s d [a])
    (ha : Answered [s.wholeSlot d, s.wholeSlot a] [] s) :
    exec (.hassurv a d) s
      = finish (survives s.cfg.survRule s.cfg.survMask (s.units a) (s.units d)) s :=
  execHassurv_of_answered hi.hassurv_symm hc.symm (ha.subset (by simp) (by simp))

/-! ## The per-unit tests -/

theorem survTest_allBoth_iff : survTest .allBoth m r o = true ↔ r &&& o &&& m = m := beq_iff_eq

theorem survTest_allEqual_iff : survTest .allEqual m r o = true ↔ r &&& m = o &&& m := beq_iff_eq

theorem survTest_allImplies_iff : survTest .allImplies m r o = true ↔ r &&& m &&& ~~~o = 0 := beq_iff_eq

/-- Every test but that of ALL_IMPLIES treats the two units alike. -/
theorem survTest_comm (h : rule ≠ .allImplies) (m r o : Byte) : survTest rule m r o = survTest rule m o r := by
  cases rule with
  | allBoth => rw [Bool.eq_iff_iff, survTest_allBoth_iff, survTest_allBoth_iff, BitVec.and_comm r o]
  | allEqual => rw [Bool.eq_iff_iff, survTest_allEqual_iff, survTest_allEqual_iff, eq_comm]
  | allImplies => exact absurd rfl h

theorem survives_comm (h : rule ≠ .allImplies) (m : Byte) (rs os : List Byte) :
    survives rule m rs os = survives rule m os rs := by
  unfold survives
  rw [← List.zip_swap os rs, List.all_map]
  exact congrArg (List.all _) (funext fun p => survTest_comm h m p.2 p.1)

/-- The reduction over the unit sequences is the test at every unit number. -/
theorem survives_units_iff (hlen : s.unitLength a = s.unitLength d) :
    survives rule m (s.units d) (s.units a) = true
      ↔ ∀ u, u < s.unitLength d → survTest rule m (s.unitRead d u) (s.unitRead a u) = true := by
  simp [survives, State.units, hlen, List.zip_map']

/-! ## The binding case -/

/-- The units of R191: every marker bit of `d` is set, and the first one of `a` is cleared. -/
theorem units_of_bindingCase (hlen : s.unitLength a = s.unitLength d) (h8 : s.unitLength d = 8)
    (hd : ∀ u, u < 8 → s.unitRead d u = 0x80) (h0 : s.unitRead a 0 = 0x00)
    (ha : ∀ u, 0 < u → u < 8 → s.unitRead a u = 0x80) :
    s.units d = List.replicate 8 0x80 ∧ s.units a = 0x00 :: List.replicate 7 0x80 := by
  unfold State.units
  rw [hlen, h8]
  constructor
  · exact List.eq_replicate_iff.2 ⟨by simp, by simpa using hd⟩
  · rw [List.range_succ_eq_map, List.map_cons, List.map_map, h0]
    congr 1
    exact List.eq_replicate_iff.2 ⟨by simp, by simpa using fun u hu => ha (u + 1) (Nat.succ_pos u) (by omega)⟩

/-- R194: unit 0 fails under every rule. -/
theorem survives_bindingCase (rule : SurvRule) :
    survives rule 0x80 (List.replicate 8 0x80) (0x00 :: List.replicate 7 0x80) = false := by
  cases rule with
  | allBoth => decide
  | allEqual => decide
  | allImplies => decide

/-- R194: with the receiver exchanged only ALL_IMPLIES holds, since a cleared marker asks nothing of the other unit. -/
theorem survives_bindingCase_swap (rule : SurvRule) :
    survives rule 0x80 (0x00 :: List.replicate 7 0x80) (List.replicate 8 0x80) = decide (rule = .allImplies) := by
  by_cases h : rule = .allImplies
  · subst h
    decide
  · rw [survives_comm h, survives_bindingCase, decide_eq_false h]

/-! ## Statements -/

/-- Settles O33: HASSURV only completes, and its result is the test at every unit, rule by rule. -/
theorem hassurvReducesUnitTests : Obligations.HassurvReducesUnitTests := by
  intro s d a hi hc ha
  have hlen : s.unitLength a = s.unitLength d := (hc.2 a (by simp)).2
  refine ⟨_, _, execHassurv_of_answered hi hc ha, completed_ok _ _, sameBlock_complete _ _ _,
    sameStorage_complete _ _ _, (survives_units_iff hlen).trans (forall₂_congr fun u _ => ?_)⟩
  cases s.cfg.survRule with
  | allBoth => exact survTest_allBoth_iff
  | allEqual => exact survTest_allEqual_iff
  | allImplies => exact survTest_allImplies_iff

/-- Settles O34: the unit sequences are those of the binding case, on which each rule is evaluated both ways. -/
theorem bindingCaseByRule : Obligations.BindingCaseByRule := by
  intro s v1 v2 hi hc h8 hmask ha h1 h20 h2
  obtain ⟨hunits1, hunits2⟩ := units_of_bindingCase (hc.2 v2 (by simp)).2 h8 h1 h20 h2
  have he := execHassurv_of_answered hi hc ha
  have he' := execHassurv_swap_of_answered hi hc ha
  rw [hunits1, hunits2, hmask, survives_bindingCase] at he
  rw [hunits1, hunits2, hmask, survives_bindingCase_swap] at he'
  exact ⟨_, _, he, he', completed_ok _ _, completed_ok _ _⟩

/-- Settles O35: the per-unit test of either rule is symmetric, and so is its reduction. -/
theorem hassurvIsSymmetric : Obligations.HassurvIsSymmetric := by
  intro s d a hi hc hrule ha
  have he' := execHassurv_swap_of_answered hi hc ha
  rw [survives_comm hrule] at he'
  exact ⟨_, _, _, execHassurv_of_answered hi hc ha, he', completed_ok _ _, completed_ok _ _⟩

/-- Settles O36: answered, the check completes with the predicate of the two unit sequences, which on the binding case
are those the predicate is false on. -/
theorem anySurvivalPredicate : Obligations.AnySurvivalPredicate := by
  refine ⟨fun surv early s d a hfalse hc ha => ?_, fun s d a hi => execHassurv_eq hi⟩
  refine ⟨_, surviveBy_of_answered hc ha, completed_ok _ _, sameBlock_complete _ _ _, sameStorage_complete _ _ _,
    fun h8 hd h0 hother => ?_⟩
  obtain ⟨hunits, hunits'⟩ := units_of_bindingCase (hc.2 a (by simp)).2 h8 hd h0 hother
  obtain ⟨-, -, -, hresult⟩ := completed_ok s (surv (s.units d) (s.units a))
  rw [hresult, hunits, hunits']
  exact hfalse

/-- Settles O37: either value of the free bit gives one of the two endings, and a counted draw touches neither slots nor
memory. -/
theorem hassurvMayStopEarly : Obligations.HassurvMayStopEarly := by
  intro s d a hi hc hdev hearly hr
  rw [execHassurv_eq hi, hearly, surviveBy_of_refused hc hdev hr]
  cases s.freeBit with
  | false => exact ⟨_, rfl, .inl (completed_complete _ _ _), sameBlock_complete_tick s 1 _ _, rfl, rfl⟩
  | true => exact ⟨_, rfl, .inr (completed_ok _ _), sameBlock_complete_tick s 1 _ _, rfl, rfl⟩

end Sys2Proof.Machine
end

section
/-! Completion and errors (60_exceptions.md R210, R215, R216, R221, R222): a command that HALTED or the slot range ends
before its own work, the engine's turn of such a word, and the statements over every command. -/
namespace Sys2Proof.Machine

variable {s t : State} {i : Instr} {d : SlotNum} {rest : List Turn} {x : Result} {e : ErrCode} {w : Word}

/-! ## Ending with an error -/

/-- What `raise` leaves: the completion, and nothing else changed. -/
theorem exists_next_of_raise (h : x = raise e s) :
    ∃ t, x = .next t ∧ Completed t e false ∧ SameBlock s t ∧ SameStorage s t :=
  ⟨_, h, completed_complete s e false, sameBlock_complete s e false, sameStorage_complete s e false⟩

/-! ## Turned away before the command -/

/-- Every command stands behind the checks of 30_encoding.md R96. -/
theorem exec_eq_issue (i : Instr) (s : State) : ∃ body, exec i s = issue i s body := by
  cases i <;> exact ⟨_, rfl⟩

theorem exec_of_halted (i : Instr) (hh : s.status.halted = true) : exec i s = raise .halted s := by
  obtain ⟨body, hbody⟩ := exec_eq_issue i s
  exact hbody.trans (if_pos hh)

theorem exec_of_not_wf (hh : s.status.halted = false) (hw : i.wf s.cfg.nv = false) : exec i s = raise .illegal s := by
  obtain ⟨body, hbody⟩ := exec_eq_issue i s
  exact hbody.trans ((if_neg (by simp [hh])).trans (if_neg (by simp [hw])))

theorem wf_eq_false {nv : Nat} (hd : d ∈ i.slots) (hle : nv ≤ d.val) : i.wf nv = false :=
  List.all_eq_false.2 ⟨d, hd, by simpa using hle⟩

/-! ## The engine's turn and the CMD write -/

theorem engineTurn_of_undecoded {de : DecodeError} (hb : s.status.busy = true) (hd : decode s.cur.word = .error de) :
    engineTurn s = if s.status.halted then raise .halted s else raise .illegal s := by
  unfold engineTurn runCommand
  rw [if_pos hb, hd]

theorem engineTurn_of_halted (hb : s.status.busy = true) (hh : s.status.halted = true) (hr : s.cur.raced = []) :
    engineTurn s = raise .halted s := by
  cases hd : decode s.cur.word with
  | error de => exact (engineTurn_of_undecoded hb hd).trans (if_pos hh)
  | ok i => exact (engineTurn_of_unraced hb hd hr).trans (exec_of_halted i hh)

/-- A word that selects no row, or whose command names a slot the block does not have. -/
theorem engineTurn_of_illegal (hb : s.status.busy = true) (hh : s.status.halted = false) (hr : s.cur.raced = [])
    (hill : ∀ i, decode s.cur.word = .ok i → ∃ d ∈ i.slots, s.cfg.nv ≤ d.val) : engineTurn s = raise .illegal s := by
  cases hd : decode s.cur.word with
  | error de => exact (engineTurn_of_undecoded hb hd).trans (if_neg (by simp [hh]))
  | ok i =>
    obtain ⟨d, hmem, hle⟩ := hill i hd
    exact (engineTurn_of_unraced hb hd hr).trans (exec_of_not_wf hh (wf_eq_false hmem hle))

theorem writeCmd_of_halted (w : Word) (hb : s.status.busy = false) (hh : s.status.halted = true) :
    writeCmd w s = raise .halted (s.accept w) := by
  unfold writeCmd
  rw [if_neg (by simp [hb]), if_pos hh]

/-! ## Statements -/

/-- Settles O6: the engine's step is its turn, which completes a BUSY command and keeps an idle block. -/
theorem engineTurnCompletesOrIdles : Obligations.EngineTurnCompletesOrIdles := by
  intro s rest hn
  rw [step_of_engineNext hn]
  refine ⟨fun hb hplain => ?_, fun hb => if_neg (by simp [hb])⟩
  obtain ⟨t, ht, hbusy, hdone, -⟩ := engineTurn_completes (s := { s with turns := rest }) hb hplain
  exact ⟨t, ht, hbusy, hdone⟩

/-- Settles O7: what every completion does to STATUS, and that every command completes unless it meets memory with read
side effects. -/
theorem everyCommandCompletesOnce : Obligations.EveryCommandCompletesOnce := by
  refine ⟨fun i s t h => ?_, exec_endsUnlessOnDevice⟩
  obtain ⟨-, -, -, -, -, -, -, -, hovf, hbusy, hdone, -, hresult, -⟩ := exec_block h
  exact ⟨hbusy, hdone, hresult, hovf⟩

/-- Settles O8: of the effects of a command, those that write a slot, a unit or the draw count end with OK or BUS. -/
theorem errorsArePrecise : Obligations.ErrorsArePrecise := by
  intro i s t h hok hbus
  cases exec_effect h with
  | turnedAway | checked | alloc | observed => exact ⟨rfl, rfl, rfl⟩
  | emptied | allocated | attached | filled | bitSet | combined | overlapped => exact absurd rfl hok
  | bus => exact absurd rfl hbus
  | early d a hd hi e he => exact (he.elim hbus hok).elim

/-- Settles O9: the engine raises ILLEGAL, whichever of the two ways the word is illegal. -/
theorem illegalWordChangesNothing : Obligations.IllegalWordChangesNothing := by
  intro s rest hn hb hh hr hill
  exact exists_next_of_raise (s := { s with turns := rest })
    ((step_of_engineNext hn).trans (engineTurn_of_illegal hb hh hr hill))

/-- Settles O10: the check for HALTED stands before every command, before the decoder's answer is used, and in the CMD
write itself. -/
theorem haltedBlocksEveryCommand : Obligations.HaltedBlocksEveryCommand := by
  refine ⟨fun i s hh => exists_next_of_raise (exec_of_halted i hh), fun s rest hn hb hh hr => ?_,
    fun s w rest h hb hh => ?_⟩
  · exact exists_next_of_raise (s := { s with turns := rest })
      ((step_of_engineNext hn).trans (engineTurn_of_halted hb hh hr))
  · exact ⟨_, (step_write_cmd h).trans (writeCmd_of_halted (s := { s with turns := rest }) w hb hh),
      completed_complete _ _ _, hh, ⟨rfl, rfl, rfl⟩, rfl, rfl⟩

end Sys2Proof.Machine
end

section
/-! A command's own checks (60_exceptions.md R212 to R214): what the check of the operand slots answers, one equation
per command that it or the index check ends, and the statements. -/
namespace Sys2Proof.Machine

variable {s : State} {d a b o : SlotNum} {others : List SlotNum} {e : ErrCode} {val : Bool}

/-! ## The check of the operand slots -/

theorem unattached_iff : s.unattached d = true ↔ (s.slot d).mode = .empty := beq_iff_eq

/-- An EMPTY slot is found before any length is compared (R161, R160). -/
theorem vectorError_of_empty (h : (s.slot d).mode = .empty ∨ ∃ a ∈ others, (s.slot a).mode = .empty) :
    s.vectorError d others = .unattached :=
  if_pos (by simpa [unattached_iff] using h)

theorem vectorError_of_unequal (hm : (s.slot d).mode ≠ .empty) (hms : ∀ a ∈ others, (s.slot a).mode ≠ .empty)
    (h : ∃ a ∈ others, s.unitLength a ≠ s.unitLength d) : s.vectorError d others = .lenMismatch := by
  have hatt : ¬ (s.unattached d || others.any s.unattached) = true := by
    simpa [unattached_iff, -Bool.not_eq_true] using ⟨hm, hms⟩
  exact (if_neg hatt).trans (if_pos (by simpa using h))

/-- The receiver as a source of its own adds nothing to check. -/
theorem vectorError_receiver (s : State) (d : SlotNum) (others : List SlotNum) :
    s.vectorError d (d :: others) = s.vectorError d others := by
  simp [State.vectorError]

/-- Of two unequal lengths one is not the receiver's. -/
theorem exists_unequal_receiver (h : ∃ x ∈ d :: others, ∃ y ∈ d :: others, s.unitLength x ≠ s.unitLength y) :
    ∃ a ∈ others, s.unitLength a ≠ s.unitLength d := by
  by_contra hno
  simp only [not_exists, not_and, not_not] at hno
  have hall : ∀ x ∈ d :: others, s.unitLength x = s.unitLength d := List.forall_mem_cons.2 ⟨rfl, hno⟩
  obtain ⟨x, hx, y, hy, hne⟩ := h
  exact hne ((hall x hx).trans (hall y hy).symm)

/-! ## One equation per command that a check ends -/

theorem execInitpat_of_empty {pat flag : Byte} (hi : Issued (.initpat d pat flag) s) (hm : (s.slot d).mode = .empty) :
    exec (.initpat d pat flag) s = raise .unattached s :=
  (issue_of_issued hi).trans (if_pos (unattached_iff.2 hm))

theorem combine_of_vectorError (h : s.vectorError d [a, b] = e) (he : e ≠ .ok) : combine d a b s = raise e s := by
  subst h
  unfold combine
  split
  · exact absurd ‹_› he
  · rfl

theorem surviveBy_of_vectorError {surv : List Byte → List Byte → Bool} {early : Bool} (h : s.vectorError d [a] = e)
    (he : e ≠ .ok) : surviveBy surv early d a s = raise e s := by
  subst h
  unfold surviveBy
  split
  · exact absurd ‹_› he
  · rfl

theorem execXor3_of_vectorError (hi : Issued (.xor3 d a b) s) (h : s.vectorError d [a, b] = e) (he : e ≠ .ok) :
    exec (.xor3 d a b) s = raise e s :=
  (execXor3_eq hi).trans (combine_of_vectorError h he)

theorem execXor2_of_vectorError (hi : Issued (.xor2 d o) s) (h : s.vectorError d [o] = e) (he : e ≠ .ok) :
    exec (.xor2 d o) s = raise e s :=
  (execXor2_eq hi).trans (combine_of_vectorError ((vectorError_receiver s d [o]).trans h) he)

theorem execHassurv_of_vectorError (hi : Issued (.hassurv d a) s) (h : s.vectorError d [a] = e) (he : e ≠ .ok) :
    exec (.hassurv d a) s = raise e s :=
  (execHassurv_eq hi).trans (surviveBy_of_vectorError h he)

theorem execSetbit_of_invalid (hi : Issued (.setbit d val) s) (hv : ¬ s.indexValid d = true) :
    exec (.setbit d val) s = raise .oob s :=
  (issue_of_issued hi).trans (if_neg hv)

theorem execGetbit_of_invalid (hi : Issued (.getbit d) s) (hv : ¬ s.indexValid d = true) :
    exec (.getbit d) s = raise .oob s :=
  (issue_of_issued hi).trans (if_neg hv)

/-! ## Statements -/

/-- Settles O12: each command's first check is for EMPTY slots, whatever the lengths. -/
theorem emptySlotIsUnattached : Obligations.EmptySlotIsUnattached := by
  intro s i hi h
  rcases h with ⟨d, pat, flag, rfl, hm⟩ | ⟨d, a, b, rfl, hm⟩ | ⟨d, o, rfl, hm⟩ | ⟨d, a, rfl, hm⟩
  · exact exists_next_of_raise (execInitpat_of_empty hi hm)
  · exact exists_next_of_raise (execXor3_of_vectorError hi (vectorError_of_empty (by simpa using hm)) (by decide))
  · exact exists_next_of_raise (execXor2_of_vectorError hi (vectorError_of_empty (by simpa using hm)) (by decide))
  · exact exists_next_of_raise (execHassurv_of_vectorError hi (vectorError_of_empty (by simpa using hm)) (by decide))

/-- Settles O13: of two slots of differing length one differs from the receiver, which the second check finds; a
command that names one slot has no two lengths. -/
theorem unequalLengthsMismatch : Obligations.UnequalLengthsMismatch := by
  intro s i hi hatt hne
  have hmismatch {d : SlotNum} {others : List SlotNum} (hs : i.slots = d :: others) :
      s.vectorError d others = .lenMismatch := by
    rw [hs] at hatt hne
    obtain ⟨hm, hms⟩ := List.forall_mem_cons.1 hatt
    exact vectorError_of_unequal hm hms (exists_unequal_receiver hne)
  cases i with
  | xor3 d a b => exact exists_next_of_raise (execXor3_of_vectorError hi (hmismatch rfl) (by decide))
  | xor2 d o => exact exists_next_of_raise (execXor2_of_vectorError hi (hmismatch rfl) (by decide))
  | hassurv d a => exact exists_next_of_raise (execHassurv_of_vectorError hi (hmismatch rfl) (by decide))
  | init d | initpat d pat flag | attach d flag | detach d | setbit d val | getbit d =>
    obtain ⟨a, ha, -⟩ := exists_unequal_receiver hne
    exact absurd ha List.not_mem_nil

/-- Settles O14: an EMPTY slot has bit length 0, so in both cases the index check fails. -/
theorem badIndexIsOutOfBounds : Obligations.BadIndexIsOutOfBounds := by
  intro s d i hcmd hi hinv hbad
  have hv : ¬ s.indexValid d = true := by
    rcases hbad with hle | hm
    · rw [indexValid_iff]
      exact Nat.not_lt.2 hle
    · exact fun hv => hinv.attached_of_indexValid hv hm
  rcases hcmd with ⟨val, rfl⟩ | rfl
  · exact exists_next_of_raise (execSetbit_of_invalid hi hv)
  · exact exists_next_of_raise (execGetbit_of_invalid hi hv)

end Sys2Proof.Machine
end

section
/-! Refused accesses (60_exceptions.md R217, R222): one equation per command whose access the platform refuses, what the
block holds after BUS, and the statements. -/
namespace Sys2Proof.Machine

variable {s t : State} {d a b o : SlotNum} {i : Instr} {val : Bool} {pat flag : Byte}

/-! ## The trigger -/

section

variable (hplain : ∀ r ∈ s.platform, r.kind ≠ .readSideEffects)
include hplain

theorem execInitpat_of_refused (hi : Issued (.initpat d pat flag) s) (hm : (s.slot d).mode ≠ .empty)
    (hr : s.writeRefused (s.wholeSlot d) = true) :
    exec (.initpat d pat flag) s = raise .bus (s.scramble (s.wholeSlot d)) :=
  (issue_of_issued hi).trans ((if_neg (mt unattached_iff.1 hm)).trans (withAccess_bus hplain (.inr (by simpa using hr))))

/-- SETBIT asks for the write only where the bit does not hold the value (41_bit_access.md R143). -/
theorem execSetbit_of_refused (hi : Issued (.setbit d val) s) (hv : s.indexValid d = true)
    (hr : s.readRefused (s.bitSpan d) = true
      ∨ (s.writeRefused (s.bitSpan d) = true ∧ s.bitWritten d val ≠ s.unitRead d (unitOf s.indexOperand))) :
    exec (.setbit d val) s = raise .bus (s.scramble (s.bitSpan d)) := by
  by_cases hb : s.bitWritten d val = s.unitRead d (unitOf s.indexOperand)
  · have hread := hr.resolve_right fun h => h.2 hb
    exact (execSetbit_of_held hi hv hb).trans (withAccess_bus hplain (.inl (by simpa using hread)))
  · have hrefused := hr.imp_right And.left
    exact (issue_of_issued hi).trans
      ((if_pos hv).trans ((if_neg hb).trans (withAccess_bus hplain (by simpa using hrefused))))

theorem execGetbit_of_refused (hi : Issued (.getbit d) s) (hv : s.indexValid d = true)
    (hr : s.readRefused (s.bitSpan d) = true) : exec (.getbit d) s = raise .bus s :=
  (issue_of_issued hi).trans ((if_pos hv).trans (withAccess_bus hplain (.inl (by simpa using hr))))

theorem combine_of_refused (hc : Compatible s d [a, b])
    (hr : s.readRefused (s.wholeSlot a) = true ∨ s.readRefused (s.wholeSlot b) = true
      ∨ s.writeRefused (s.wholeSlot d) = true) : combine d a b s = raise .bus (s.scramble (s.wholeSlot d)) := by
  unfold combine
  rw [vectorError_ok.2 hc]
  exact withAccess_bus hplain (by simpa [or_assoc] using hr)

/-- HASSURV that no readable unit decides. -/
theorem execHassurv_of_refused (hi : Issued (.hassurv d a) s) (hc : Compatible s d [a])
    (hundecided : s.failsReadably d a = false)
    (hr : s.readRefused (s.wholeSlot d) = true ∨ s.readRefused (s.wholeSlot a) = true) :
    exec (.hassurv d a) s = raise .bus s := by
  rw [execHassurv_eq hi, hundecided]
  unfold surviveBy
  rw [vectorError_ok.2 hc]
  exact (if_neg (by simp [onDevice_false hplain])).trans
    ((if_pos (by simpa using hr)).trans (if_neg (by decide)))

end

theorem exists_next_of_bus (h : exec i s = raise .bus t) : ∃ u, exec i s = .next u ∧ Completed u .bus false :=
  ⟨_, h, completed_complete t .bus false⟩

/-- Settles O15: in every command the refusal is met before anything else the command does with its units. -/
theorem refusedAccessGivesBus : Obligations.RefusedAccessGivesBus := by
  intro s i hi hplain h
  rcases h with ⟨d, pat, flag, rfl, hm, hr⟩ | ⟨d, val, rfl, hv, hr⟩ | ⟨d, rfl, hv, hr⟩ | ⟨d, a, b, rfl, hc, hr⟩
    | ⟨d, o, rfl, hc, hr⟩ | ⟨d, a, rfl, hc, hundecided, hr⟩
  · exact exists_next_of_bus (execInitpat_of_refused hplain hi hm hr)
  · exact exists_next_of_bus
      (execSetbit_of_refused hplain hi hv (hr.imp_right fun h => ⟨h.1, mt (bitWritten_eq_iff s d val).1 h.2⟩))
  · exact exists_next_of_bus (execGetbit_of_refused hplain hi hv hr)
  · exact exists_next_of_bus ((execXor3_eq hi).trans (combine_of_refused hplain hc hr))
  · exact exists_next_of_bus ((execXor2_eq hi).trans (combine_of_refused hplain hc.with_receiver hr))
  · exact exists_next_of_bus (execHassurv_of_refused hplain hi hc hundecided hr)

/-! ## The state after BUS -/

/-- After BUS the receiver's units are drawn; a draw may besides have chosen between the two endings of HASSURV (log
entry 8). -/
theorem exec_eq_of_bus (h : exec i s = .next t) (hbus : t.status.err = .bus) :
    ∃ n, t = complete .bus false ((s.scramble (receiverOf i s)).tick n)
      ∧ ((receiverOf i s).count ≠ 0 → (s.slot (receiverOf i s).slot).mode ≠ .empty) := by
  cases exec_effect h with
  | turnedAway e he => rcases he with rfl | rfl <;> cases hbus
  | checked hi e he => rcases he with rfl | rfl | rfl | rfl <;> cases hbus
  | alloc | emptied | allocated | attached | filled | bitSet | observed | combined | overlapped => cases hbus
  | bus d hi hd sp hsp hs hm hc =>
    subst hs
    rw [← hsp]
    exact ⟨0, rfl, fun _ => hm⟩
  | early d a hd hi e he =>
    subst hd
    obtain rfl : e = .bus := hbus
    have h0 : (receiverOf (.hassurv d a) s).count = 0 := by simp [receiverOf, receiverOf_issued hi]
    exact ⟨1, by rw [scramble_of_count_eq_zero s h0], fun hc => absurd h0 hc⟩

theorem unitRead_scramble_outside {sp : Span} {u : Nat} (hu : u < sp.lo ∨ sp.lo + sp.count ≤ u) :
    (s.scramble sp).unitRead sp.slot u = s.unitRead sp.slot u :=
  unitRead_writeUnits_outside (by simpa using hu)

/-! ## The receiver of a command that ends with BUS -/

/-- BUS comes from the command itself, not from the checks before it. -/
theorem body_of_bus {body : Result} (h : issue i s body = .next t) (hbus : t.status.err = .bus) :
    Issued i s ∧ body = .next t := by
  rcases issue_next h with ⟨-, rfl⟩ | ⟨-, -, rfl⟩ | hbody
  · cases hbus
  · cases hbus
  · exact hbody

/-- The shape that INIT and ATTACH share: emptied, an error of their own, or a new slot. -/
theorem err_ne_bus_of_lifecycle {c c' : Prop} [Decidable c] [Decidable c'] {u v w : State} {e : ErrCode} (he : e ≠ .bus)
    (h : (if c then finish false u else if c' then raise e v else finish false w) = .next t) : t.status.err ≠ .bus := by
  intro hbus
  split at h
  · cases (finish_err h).symm.trans hbus
  · split at h
    · obtain rfl := next_inj h
      exact he hbus
    · cases (finish_err h).symm.trans hbus

theorem vectorError_of_combine_bus (h : combine d a b s = .next t) (hbus : t.status.err = .bus) :
    s.vectorError d [a, b] = .ok := by
  by_contra hne
  obtain rfl := next_inj ((combine_of_vectorError rfl hne).symm.trans h)
  rcases vectorError_not_bus rfl hne with he | he
  · cases he.symm.trans hbus
  · cases he.symm.trans hbus

/-- INIT, ATTACH and DETACH access no unit, and the other commands' checks have passed. -/
theorem receiverOf_of_bus (h : exec i s = .next t) (hbus : t.status.err = .bus) :
    (∃ d pat flag, i = .initpat d pat flag ∧ receiverOf i s = s.wholeSlot d)
      ∨ (∃ d val, i = .setbit d val ∧ receiverOf i s = s.bitSpan d)
      ∨ (∃ d a b, i = .xor3 d a b ∧ receiverOf i s = s.wholeSlot d)
      ∨ (∃ d o, i = .xor2 d o ∧ receiverOf i s = s.wholeSlot d)
      ∨ ((∃ d, i = .getbit d) ∨ ∃ d a, i = .hassurv d a) ∧ (receiverOf i s).count = 0 := by
  obtain ⟨body, hbody⟩ := exec_eq_issue i s
  have hw := receiverOf_issued (body_of_bus (hbody.symm.trans h) hbus).1
  cases i with
  | init d => exact absurd hbus (err_ne_bus_of_lifecycle (by decide) (body_of_bus h hbus).2)
  | initpat d pat flag => exact .inl ⟨d, pat, flag, rfl, by simp [receiverOf, hw]⟩
  | attach d flag => exact absurd hbus (err_ne_bus_of_lifecycle (by decide) (body_of_bus h hbus).2)
  | detach d => cases (finish_err (body_of_bus h hbus).2).symm.trans hbus
  | setbit d val =>
    have hv : s.indexValid d = true := by
      by_contra hv
      obtain ⟨-, hb⟩ := body_of_bus h hbus
      obtain rfl := next_inj ((if_neg hv).symm.trans hb)
      cases hbus
    exact .inr (.inl ⟨d, val, rfl, by simp [receiverOf, hw, hv, State.bitSpan]⟩)
  | getbit d => exact .inr (.inr (.inr (.inr ⟨.inl ⟨d, rfl⟩, by simp [receiverOf, hw]⟩)))
  | xor3 d a b =>
    have hv := vectorError_of_combine_bus (body_of_bus h hbus).2 hbus
    exact .inr (.inr (.inl ⟨d, a, b, rfl, by simp [receiverOf, hw, hv, State.wholeSlot]⟩))
  | xor2 d o =>
    have hv := vectorError_of_combine_bus (body_of_bus h hbus).2 hbus
    exact .inr (.inr (.inr (.inl ⟨d, o, rfl, by simp [receiverOf, hw, hv, State.wholeSlot]⟩)))
  | hassurv d a => exact .inr (.inr (.inr (.inr ⟨.inr ⟨d, a, rfl⟩, by simp [receiverOf, hw]⟩)))

/-- Settles O16: the state is the one with the receiver's units drawn, and the receiver is told command by command. -/
theorem busLeavesOnlyReceiverUnitsDrawn : Obligations.BusLeavesOnlyReceiverUnitsDrawn := by
  intro i s t _ h hbus
  have hreceiver := receiverOf_of_bus h hbus
  obtain ⟨n, rfl, hm⟩ := exec_eq_of_bus h hbus
  refine ⟨rfl, (sameBlock_scramble s _).trans (sameBlock_complete_tick _ n _ _), sameFields_scramble s _,
    fun k hk => scramble_slot_ne s _ hk, fun a ha => scramble_ext fun u h1 h2 => ha u ⟨h1, h2⟩, fun u h1 h2 => ?_,
    fun u hu => unitRead_scramble_outside hu, hreceiver⟩
  exact (isDraw_scramble (hm (by omega)) h1 h2).widen (Nat.le_refl _) (Nat.le_add_right _ n) rfl

end Sys2Proof.Machine
end

section
/-! Reset (10_state.md R49, 70_reset_and_hazards.md R250, R251), of an idle block and of a BUSY one, and the operand
registers, which no command in flight reads (R255). -/
namespace Sys2Proof.Machine

variable {s t : State} {i : Instr} {sp : Span} {as : List Nat} {rest : List Turn}

/-! ## The operand registers -/

/-- Settles O45: `exec` commutes with every change of OPA and OPB (R38, R255). -/
theorem operandWritesDoNotDisturbCommand : Obligations.OperandWritesDoNotDisturbCommand :=
  fun i s x y => exec_mapUnread (l := id) (p := fun _ => x) (q := fun _ => y) i s

/-! ## The reset state -/

theorem step_reset (h : s.turns = .reset :: rest) : step s = .next (blockReset s.popTurn) := by
  have hnext : s.nextTurn = .reset := by rw [State.nextTurn, h]; rfl
  rw [step_eq_takeTurn, hnext]
  rfl

/-- Every slot of a reset block is EMPTY, those beyond `NV` included, which read as EMPTY ones. -/
@[simp] theorem blockReset_slot (s : State) (k : SlotNum) : (blockReset s).slot k = Slot.emptied :=
  List.getElem?_getD_replicate_default_eq _ s.cfg.nv k.val

@[simp] theorem blockReset_unitLength (s : State) (k : SlotNum) : (blockReset s).unitLength k = 0 := by
  rw [State.unitLength, blockReset_slot]; rfl

@[simp] theorem blockReset_statusWord (s : State) : (blockReset s).status.word = 0 :=
  show Status.zero.word = 0 by decide

/-! ## The command that reset abandons: one equation per case -/

theorem abandonCommand_of_undecoded {e : DecodeError} (hd : decode s.cur.word = .error e) : abandonCommand s = s := by
  unfold abandonCommand; rw [hd]

theorem abandonCommand_of_idle (hb : s.status.busy = false) : abandonCommand s = s := by
  unfold abandonCommand
  cases decode s.cur.word with
  | error e => rfl
  | ok i => exact if_neg (by simp [hb])

theorem abandonCommand_of_busy (hb : s.status.busy = true) (hd : decode s.cur.word = .ok i) :
    abandonCommand s = (s.redraw.scramble (receiverOf i s)).scrambleExt s.cur.raced := by
  unfold abandonCommand
  rw [hd]
  exact if_pos hb

/-! ## What an abandoned command leaves -/

/-- A receiver with units is a slot that is not EMPTY. -/
theorem Inv.receiverOf_attached (h : Inv s) (hc : (receiverOf i s).count ≠ 0) :
    (s.slot (receiverOf i s).slot).mode ≠ .empty := by
  intro hm
  have hzero := h.unitLength_of_empty hm
  have hfits := (receiverOf_fits i s).resolve_left hc
  omega

/-- The receiver's units and the raced bytes are freed, from the fresh epoch on. -/
theorem Inv.freed_abandonCommand (h : Inv s) (hb : s.status.busy = true) (hd : decode s.cur.word = .ok i) :
    Freed (receiverOf i s) s.cur.raced s.redraw (Machine.abandonCommand s) := by
  rw [abandonCommand_of_busy hb hd]
  exact freed_scramble_scrambleExt s.redraw s.cur.raced h.receiverOf_attached

theorem abandonCommand_epoch (hb : s.status.busy = true) (hd : decode s.cur.word = .ok i) :
    (abandonCommand s).epoch = s.epoch + 1 := by
  rw [abandonCommand_of_busy hb hd, scrambleExt_epoch, scramble_epoch, redraw_epoch]

/-- The external byte of a freed unit is a draw. -/
theorem Freed.unitByte (h : Freed sp as s t) {u a : Nat} (h1 : sp.lo ≤ u) (h2 : u < sp.lo + sp.count)
    (ha : s.unitAddress sp.slot u = some a) : IsDraw s t (Memory.read t.ext a) := by
  obtain ⟨hmode, -, -, hbase⟩ := h.fields
  unfold State.unitAddress at ha
  split at ha
  · rename_i hm
    obtain rfl := Option.some.inj ha
    have hread := unitRead_of_borrowed (hmode.trans hm) u
    rw [hbase] at hread
    exact hread ▸ h.units u h1 h2
  · cases ha

/-! ## The statements about reset -/

/-- Settles O57: an idle block has no command to abandon, so reset touches no byte. -/
theorem resetRestoresResetState : Obligations.ResetRestoresResetState := by
  intro s rest h hb
  have hext := congrArg State.ext (abandonCommand_of_idle (s := s.popTurn) hb)
  refine ⟨_, step_reset h, List.length_replicate, fun k => ?_, blockReset_statusWord _, rfl, rfl, hext,
    blockReset_cfg _⟩
  rw [blockReset_slot, blockReset_unitLength]
  exact ⟨rfl, rfl, rfl, rfl, rfl⟩

/-- Settles O58: reset leaves the external memory of the abandoned command, where the receiver's units and the raced
bytes are freed. -/
theorem resetAbandonsCommand : Obligations.ResetAbandonsCommand := by
  refine ⟨fun s i rest hinv h hb hd => ?_, fun s e rest h hb hd => ?_⟩
  · have hpop : Inv s.popTurn := hinv.of_same rfl rfl rfl rfl rfl
    have hfreed := hpop.freed_abandonCommand hb hd
    exact ⟨_, step_reset h, rfl, blockReset_statusWord _, rfl, rfl, blockReset_cfg _,
      abandonCommand_epoch (s := s.popTurn) hb hd, fun u a h1 h2 ha => hfreed.unitByte h1 h2 ha,
      hfreed.bytes, hfreed.otherBytes⟩
  · have hext := congrArg State.ext (abandonCommand_of_undecoded (s := s.popTurn) hd)
    exact ⟨_, step_reset h, rfl, blockReset_statusWord _, rfl, rfl, blockReset_cfg _, hext⟩

end Sys2Proof.Machine
end
